-- ==== Sys2Proof/Word.lean ====
section
/-! DEFINITION. The word types of the Transformant formant filter unit (TFU): the binary64 and binary32
interchange words (`00_scope.md` R7), the 80-bit command word (R90) and the 72-bit response word (R93). -/

namespace Sys2Proof

/-- A binary64 value as its 64-bit interchange word: sign in bit 63, exponent in bits 62 to 52, fraction in
bits 51 to 0 (R7). -/
abbrev F64 := BitVec 64

/-- A binary32 value as its 32-bit interchange word: sign in bit 31, exponent in bits 30 to 23, fraction in
bits 22 to 0 (R7). -/
abbrev F32 := BitVec 32

/-- One byte of a serialised command or response (R66). -/
abbrev Byte := BitVec 8

/-- A command: `w[79:72]` OPC, `w[71:64]` SEL, `w[63:0]` PAYLOAD (R90). -/
abbrev CommandWord := BitVec 80

/-- A response: `r[71:64]` CAUSE, `r[63:0]` DATA (R93). -/
abbrev ResponseWord := BitVec 72

end Sys2Proof
end

