-- ==== Sys2Proof/Config.lean ====
section
/-! DEFINITION. The configuration of the TFU: the fixed constants of `00_scope.md` R5, the record of its
parameters, and the free values, which are opaque constants with no body: nothing in Lean can evaluate one
or prove a value of it. A claim that holds of the model holds whatever they are. -/

namespace Sys2Proof.Config

/-- `TABLE_SIZE` (R5): phase entries per width row. -/
abbrev tableSize : Nat := 257

/-- `MAX_WIDTH` (R5): number of width rows. -/
abbrev maxWidth : Nat := 64

/-- `TABLE_WORDS` (R5): words in the table memory, `TABLE_SIZE * MAX_WIDTH`. -/
abbrev tableWords : Nat := 16448

/-- `K` (R5): entries in each target vector. -/
abbrev entries : Nat := 9

/-- The default of `S`, the number of slots (R5, D18); `S` itself is the field `Params.slotCount`. -/
abbrev defaultSlotCount : Nat := 4

/-- The numerics record `NUM` (R13): four functions on binary64 whose result depends on the operand alone. -/
structure Numerics where
  /-- e to the operand. -/
  exp : F64 → F64
  /-- Cosine, operand in radians. -/
  cos : F64 → F64
  /-- Sine, operand in radians. -/
  sin : F64 → F64
  /-- 2 to the operand. -/
  pow2 : F64 → F64

/-- The eleven dynamics configuration registers `DYN.*` (R36), in the order of their selectors. -/
structure DynRegs where
  /-- SEL 0: compressor threshold. -/
  thr : F64
  /-- SEL 1: compressor ratio. -/
  rat : F64
  /-- SEL 2: output trim. -/
  trim : F64
  /-- SEL 3: envelope attack coefficient. -/
  att : F64
  /-- SEL 4: envelope release coefficient. -/
  rel : F64
  /-- SEL 5: limiter threshold, 0 for no limiter. -/
  lthr : F64
  /-- SEL 6: gate threshold. -/
  xthr : F64
  /-- SEL 7: gate attack coefficient. -/
  gatt : F64
  /-- SEL 8: gate decay ratio. -/
  xrat : F64
  /-- SEL 9: dry gain. -/
  dry : F64
  /-- SEL 10: false (0) simple compression, true (1) full processing. -/
  mode : Bool
deriving DecidableEq, Repr, Inhabited

/-- The parameters of a TFU (R5): fixed while the unit runs, and no part of its state (R20). The two constant
memories `AMP` and `FREQ` are held by word address, `k + K*s` for slot `s` and entry `k` (R64). -/
structure Params where
  /-- `S`: the number of slots, by default 4 (D18). -/
  slotCount : Nat := defaultSlotCount
  /-- The memory `AMP`. -/
  amp : Fin (slotCount * entries) → F64
  /-- The memory `FREQ`. -/
  freq : Fin (slotCount * entries) → F64
  /-- The memory `WIDTHSCALE`. -/
  widthScale : Fin slotCount → F64
  /-- `MIN_LFO_RATE`. -/
  minLfoRate : F64
  /-- `MAX_LFO_RATE`. -/
  maxLfoRate : F64
  /-- `DYN_DEFAULT`. -/
  dynDefault : DynRegs
  /-- `NUM`. -/
  num : Numerics
  /-- `LFO_WAVE`: the waveform, a function of the phase. -/
  lfoWave : F64 → F64
  /-- `PI`: by default the binary64 nearest to pi (R11, D14). -/
  pi : F64 := 0x400921FB54442D18#64
  /-- `ATTEN`: the smoothing constant, by default the binary64 nearest 0.0005 (D20). -/
  atten : F64 := 0x3F40624DD2F1A9FC#64
  /-- `SYNTH_MODE`: table-based formant shaping, by default on (D29). -/
  synthMode : Bool := true

/-- The operation whose result is a NaN (`freeNaN`). -/
inductive NaNSource where
  | add | mul | div | fmod | floor | widen | narrow
deriving DecidableEq, Repr

/-- Free value (log 2): the sign and payload of a NaN that an operation produces from its operands. -/
opaque freeNaN : NaNSource → F64 → F64 → BitVec 64

/-- Free value (log 3): `fmod` outside the operands R12 defines it for (an infinite dividend, an infinite or
zero divisor). -/
opaque freeFmod : F64 → F64 → F64

/-- Free value (log 3): `floor` of an infinity, for which R12 states no result. -/
opaque freeFloor : F64 → F64

/-- Free value (log 4): a function of the open numerics record `NUM`. -/
opaque freeExp : F64 → F64
/-- Free value (log 4), see `freeExp`. -/
opaque freeCos : F64 → F64
/-- Free value (log 4), see `freeExp`. -/
opaque freeSin : F64 → F64
/-- Free value (log 4): the choices from which `freeMonotone` makes `pow2` between two neighbouring integral
exponents, beside the least or beside the greatest of them: one for each region and node. -/
opaque freePow2 : Int → Nat → Nat
/-- Free value (log 4): the sign of a zero that `pow2` returns. -/
opaque freePow2ZeroSign : F64 → Bool
/-- Free value (log 4): `pow2` of a NaN. -/
opaque freePow2NaN : F64 → F64

/-- Free value (log 5): the open constant memory `AMP`, by word address. -/
opaque freeAmp : Nat → F64
/-- Free value (log 5): the open constant memory `FREQ`, by word address. -/
opaque freeFreq : Nat → F64
/-- Free value (log 5): the open constant memory `WIDTHSCALE`, by word address. -/
opaque freeWidthScale : Nat → F64
/-- Free value (log 5): the open parameter `MIN_LFO_RATE`. -/
opaque freeMinLfoRate : F64
/-- Free value (log 5): the open parameter `MAX_LFO_RATE`. -/
opaque freeMaxLfoRate : F64
/-- Free value (log 5): the open parameter `DYN_DEFAULT`. -/
opaque freeDynDefault : DynRegs

end Sys2Proof.Config
end

