-- ==== Sys2Proof/Syntax.lean ====
section
/-! DEFINITION. The commands of the TFU, one constructor per row of `spec/opcode_table.json`
(`30_encoding.md` R94), and its seven fault causes (`60_exceptions.md` R230). -/

namespace Sys2Proof

/-- A decoded command with its operands assembled (R92): every bit pattern of an operand is a value, NaNs
included; which values a command accepts is part of its meaning. -/
inductive Instr where
  /-- `CONSTRUCT v0, sr` (R170). -/
  | construct (v0 sr : F32)
  /-- `SETVOWEL v` (R181). -/
  | setVowel (v : F32)
  /-- `GETVOWEL` (R182). -/
  | getVowel
  /-- `SETLFO ratePercent, depth` (R183). -/
  | setLfo (ratePercent depth : F32)
  /-- `PROCESS x` (R171). -/
  | process (x : F64)
  /-- `DYNCFG reg, x` (R210); `sel` is the selector of R95. -/
  | dynCfg (sel : BitVec 8) (x : F64)
  /-- `DYNPROC x` (R211). -/
  | dynProc (x : F64)
deriving DecidableEq, Repr

/-- A fault cause of the TFU (R230): a synchronous, precise refusal of one command, after which the unit is
ready for the next one (R232). It is an outcome the spec describes in full, so it leads to a next state. -/
inductive Cause where
  /-- `OPC` is `0x00` or `0x08` to `0xFF` (R234). -/
  | illegalOpcode
  /-- A legal `OPC` with a non-zero must-be-zero field, or DYNCFG's `SEL > 10` (R235). -/
  | illegalEncoding
  /-- A command other than CONSTRUCT while `STATUS.CONSTRUCTED = 0` (R236). -/
  | notConstructed
  /-- A configuration value with which no formula has a meaning (R237). -/
  | configError
  /-- A control operand is a NaN (R238). -/
  | operandNaN
  /-- The sample operand is a NaN or an infinity (R239). -/
  | sampleNonFinite
  /-- A table read outside `TF`, a phase outside `[-1, 1]`, or `toNat` outside its domain (R240). -/
  | tableBounds
deriving DecidableEq, Repr

/-- The cause codes of R230. -/
def Cause.code : Cause → Nat
  | .illegalOpcode => 1
  | .illegalEncoding => 2
  | .notConstructed => 3
  | .configError => 4
  | .operandNaN => 5
  | .sampleNonFinite => 6
  | .tableBounds => 7

end Sys2Proof
end

