-- ==== Sys2Proof/WellFormed.lean ====
section
/-! DEFINITION. Which terms of `Instr` are commands of TFU-C: those some legal command word stands for. The
one check is DYNCFG's selector (`30_encoding.md` R95, R96): every other field is an operand, and an operand
field may hold any bits (R92, R235). -/

namespace Sys2Proof

/-- `SEL` 0 to 10 names a register; 11 to 255 is reserved (R95). -/
def selectorLegal (sel : BitVec 8) : Bool := decide (sel.toNat ≤ 10)

/-- The well-formed commands. -/
def Instr.WellFormed : Instr → Bool
  | .construct _ _ => true
  | .setVowel _ => true
  | .getVowel => true
  | .setLfo _ _ => true
  | .process _ => true
  | .dynCfg sel _ => selectorLegal sel
  | .dynProc _ => true

end Sys2Proof
end

