-- ==== Sys2Proof/Decode.lean ====
section
/-! DEFINITION. Decoding and encoding of command words (`30_encoding.md` R90 to R98), and the byte order of a
transport that must cut words into bytes (`20_memory.md` R66). -/

namespace Sys2Proof

/-! ## Fields of a command word (R90, R91) -/

/-- `OPC = w[79:72]`. -/
def opcField (w : CommandWord) : BitVec 8 := w.extractLsb' 72 8

/-- `SEL = w[71:64]`. -/
def selField (w : CommandWord) : BitVec 8 := w.extractLsb' 64 8

/-- The f64 operand `x = w[63:0]`, the whole `PAYLOAD`. -/
def xField (w : CommandWord) : F64 := w.extractLsb' 0 64

/-- The f32 operand `a = w[63:32]`. -/
def aField (w : CommandWord) : F32 := w.extractLsb' 32 32

/-- The f32 operand `b = w[31:0]`. -/
def bField (w : CommandWord) : F32 := w.extractLsb' 0 32

/-- The total decode function of R98: the opcode first, then the must-be-zero fields of the command's format
and DYNCFG's selector. It reads no state. -/
def decode (w : CommandWord) : Except Cause Instr :=
  if opcField w = 0x01#8 then
    if selField w = 0 then .ok (.construct (aField w) (bField w)) else .error .illegalEncoding
  else if opcField w = 0x02#8 then
    if selField w = 0 ∧ bField w = 0 then .ok (.setVowel (aField w)) else .error .illegalEncoding
  else if opcField w = 0x03#8 then
    if selField w = 0 ∧ xField w = 0 then .ok .getVowel else .error .illegalEncoding
  else if opcField w = 0x04#8 then
    if selField w = 0 then .ok (.setLfo (aField w) (bField w)) else .error .illegalEncoding
  else if opcField w = 0x05#8 then
    if selField w = 0 then .ok (.process (xField w)) else .error .illegalEncoding
  else if opcField w = 0x06#8 then
    if selectorLegal (selField w) then .ok (.dynCfg (selField w) (xField w)) else .error .illegalEncoding
  else if opcField w = 0x07#8 then
    if selField w = 0 then .ok (.dynProc (xField w)) else .error .illegalEncoding
  else .error .illegalOpcode

/-! ## Encoding -/

/-- The opcode byte of R94. -/
def Instr.opcode : Instr → BitVec 8
  | .construct _ _ => 0x01#8
  | .setVowel _ => 0x02#8
  | .getVowel => 0x03#8
  | .setLfo _ _ => 0x04#8
  | .process _ => 0x05#8
  | .dynCfg _ _ => 0x06#8
  | .dynProc _ => 0x07#8

/-- The selector byte: zero for every command but DYNCFG (R91). -/
def Instr.selector : Instr → BitVec 8
  | .construct _ _ => 0#8
  | .setVowel _ => 0#8
  | .getVowel => 0#8
  | .setLfo _ _ => 0#8
  | .process _ => 0#8
  | .dynCfg sel _ => sel
  | .dynProc _ => 0#8

/-- The payload of formats `Z`, `A`, `AB`, `X` and `CX` (R91). -/
def Instr.payload : Instr → BitVec 64
  | .construct v0 sr => v0 ++ sr
  | .setVowel v => v ++ 0#32
  | .getVowel => 0#64
  | .setLfo ratePercent depth => ratePercent ++ depth
  | .process x => x
  | .dynCfg _ x => x
  | .dynProc x => x

/-- The command word of a command (R90, R94). -/
def encode (i : Instr) : CommandWord := i.opcode ++ (i.selector ++ i.payload)

/-! ## The response word (R93) -/

/-- `r[71:64] = CAUSE`, `r[63:0] = DATA`. -/
def responseWord (cause : Nat) (data : BitVec 64) : ResponseWord := BitVec.ofNat 8 cause ++ data

/-- The `CAUSE` of a response. -/
def responseCause (r : ResponseWord) : BitVec 8 := r.extractLsb' 64 8

/-- The `DATA` of a response. -/
def responseData (r : ResponseWord) : BitVec 64 := r.extractLsb' 0 64

/-! ## Serial transport (R66): the most significant byte goes first -/

/-- The bytes of a `8 * n`-bit word, most significant first. -/
def bigEndianBytes (n : Nat) {v : Nat} (w : BitVec v) : List Byte :=
  (List.range n).map fun i => w.extractLsb' (8 * (n - 1 - i)) 8

/-- The ten bytes of a command word: byte 0 is the opcode. -/
def commandBytes (w : CommandWord) : List Byte := bigEndianBytes 10 w

/-- The nine bytes of a response word: byte 0 is the cause. -/
def responseBytes (r : ResponseWord) : List Byte := bigEndianBytes 9 r

/-- The command word that ten bytes carry; a list of another length carries none. -/
def commandOfBytes (bytes : List Byte) : Option CommandWord :=
  if bytes.length = 10 then
    some (BitVec.ofNat 80 (bytes.foldl (fun acc b => acc * 256 + b.toNat) 0))
  else none

/-- Decoding a serialised command, total on any bytes: ten bytes carry a command word, which decodes by R98;
any other number of bytes carries none (every command has the one length of R90). -/
def decodeBytes (bytes : List Byte) : Option (Except Cause Instr) :=
  (commandOfBytes bytes).map decode

/-! ## The opcode table's numbering -/

/-- The 80-bit command word whose low `nbits` bits are those of `w` and whose other bits are zero. -/
def tableWord (nbits w : Nat) : CommandWord := BitVec.ofNat 80 (w % 2 ^ nbits)

/-- The command the decoder reads from an opcode-table word: bit 0 of the table is `w[0]`, so the number is
the command word itself. -/
def decodeTableWord (nbits w : Nat) : Option Instr :=
  match decode (tableWord nbits w) with
  | .ok i => some i
  | .error _ => none

end Sys2Proof
end

