-- ==== Sys2Proof/Machine/State.lean ====
section
/-! DEFINITION. The state of one TFU instance (`10_state.md` R20), its command port, and the machine right
after reset (R40, `70_reset_and_hazards.md` R261). -/

namespace Sys2Proof.Machine

open Sys2Proof.Config

/-- The formant table memory `TF` (`20_memory.md` R60, R61): pairs of a word address and a 64-bit word, the
addresses strictly rising and no entry equal to what an unlisted address reads as (`Table.wf`). -/
abbrev Table := List (Nat × F64)

/-- The three envelopes of the Dynamics Processor (R35). -/
structure Envelopes where
  /-- `ENV`: envelope. -/
  env : F64
  /-- `ENV2`: secondary (limiter) envelope. -/
  env2 : F64
  /-- `GENV`: gate envelope. -/
  genv : F64
deriving DecidableEq, Repr

/-- What a constructed unit with `S` slots holds: every register of R23 to R36 and the table `TF`. -/
structure Regs (S : Nat) where
  /-- `VOWEL` (R23): the base vowel. -/
  vowel : F64
  /-- `TEMPVOWEL` (R24): the working vowel. -/
  tempVowel : F64
  /-- `HASLFO` (R25): the LFO drives the working vowel. -/
  hasLfo : Bool
  /-- `LFODEPTH` (R26). -/
  lfoDepth : F64
  /-- `LFORANGE` (R27). -/
  lfoRange : F64
  /-- `LFOMIN` (R27). -/
  lfoMin : F64
  /-- `LFOMAX` (R27). -/
  lfoMax : F64
  /-- `PHASE` (R28): the carrier phase. -/
  phase : F64
  /-- `SRATE` (R29): the sample rate in Hz. -/
  srate : F64
  /-- `COEFFOFFSET` (R30): the entry the working vowel selects, 0 to 8. -/
  coeffOffset : Fin entries
  /-- `LPHASE` (R31): the LFO phase. -/
  lphase : F64
  /-- `LRATE` (R32): the LFO rate in Hz. -/
  lrate : F64
  /-- `AVAL[s]` (R34): live amplitudes. -/
  aval : Vector F64 S
  /-- `FVAL[s]` (R34): live frequencies. -/
  fval : Vector F64 S
  /-- `ENV`, `ENV2`, `GENV` (R35). -/
  envs : Envelopes
  /-- `DYN.*` (R36). -/
  dyn : DynRegs
  /-- `TF` (R61). -/
  tf : Table
deriving DecidableEq, Repr

/-- The registers of the machine's unit, which has the default number of slots (log 5). -/
abbrev UnitRegs := Regs defaultSlotCount

/-- What can reach the unit from outside: a command word on the command port (R90), or hardware reset, "the
one event that reaches the unit outside the command port" (R260). -/
inductive PortEvent where
  | command (w : CommandWord)
  | hardwareReset
deriving DecidableEq, Repr

/-- The state of one TFU and its port. `unit` is `none` exactly while `STATUS.CONSTRUCTED = 0`: the registers
of R23 to R36 and `TF` "then hold no value" (R21, R40), and a successful CONSTRUCT gives all of them one
(log 1). `input` and `responses` are the model's own record of the host's side of the port (log 6). -/
structure State where
  /-- The registers and the table of a constructed unit; `none` is the spec's unconstructed state. -/
  unit : Option UnitRegs
  /-- `STATUS.FAULT` (R22): bit `c` is the sticky bit of cause code `c`. -/
  statusFault : BitVec 8
  /-- What the host has yet to send, in order. -/
  input : List PortEvent
  /-- The responses returned so far, the latest first. -/
  responses : List ResponseWord
deriving DecidableEq, Repr

/-- `STATUS.CONSTRUCTED` (R21). -/
def State.constructed (s : State) : Bool := s.unit.isSome

/-- The reasons the machine could stop with a fault: there are none. A TFU fault is an outcome the spec
describes in full (R232): the unit answers with a cause, sets a sticky bit and is "ready for the next command
exactly as after a successful one", so it is a next state. Nobody raises a value of this type. -/
inductive Fault where
deriving DecidableEq, Repr

/-- The reasons for which the model gives a command no meaning. -/
inductive Refusal where
  /-- Raised by `exec`'s arm of a command that has no meaning yet; safe, since the machine stops where the
  hardware goes on. No arm of this model raises it. -/
  | notModelled (mnemonic : String)
deriving DecidableEq, Repr

/-- The machine right after hardware reset (R40, R261): `STATUS.CONSTRUCTED` and `STATUS.FAULT` are 0 and every
other register holds no value; nothing has been sent and nothing answered. -/
def State.reset : State where
  unit := none
  statusFault := 0#8
  input := []
  responses := []

end Sys2Proof.Machine
end

