-- ==== Sys2Proof/Machine/Flags.lean ====
section
/-! DEFINITION. The status bits (`10_state.md` R21, R22). The TFU has no arithmetic condition codes and keeps
no IEEE exception flags (R37): `STATUS.FAULT` is the only register of flags. -/

namespace Sys2Proof.Machine

/-- The bit of a cause in `STATUS.FAULT`: bit `c` is the bit of cause code `c` (R22, R230). -/
def causeBit (c : Cause) : BitVec 8 := 1#8 <<< c.code

/-- `STATUS.FAULT[c] <- 1`: the other bits keep their value, and no command clears one (R22). -/
def setFaultBit (status : BitVec 8) (c : Cause) : BitVec 8 := status ||| causeBit c

end Sys2Proof.Machine
end

