-- ==== Sys2Proof/Machine/Float.lean ====
section
/-! DEFINITION. IEEE 754 arithmetic on binary64 words (`00_scope.md` R7, R9 to R12, R14): exact integer
arithmetic on magnitudes counted in units of the least subnormal (2^-1074), narrowed once at the end to the
nearest binary64, ties to even. Nothing here is fused and no result is flushed. -/

namespace Sys2Proof.Machine

open Sys2Proof.Config

/-! ## Fields and classes of a binary64 word (R7) -/

/-- The sign bit. -/
def fsign (x : F64) : Bool := x.msb

/-- The 63 bits below the sign, as a number: they order the magnitudes. -/
def fbits (x : F64) : Nat := x.toNat % 2 ^ 63

/-- The magnitude bits of an infinity: exponent all ones, fraction zero. -/
def infBits : Nat := 2047 * 2 ^ 52

/-- Exponent all ones, fraction not zero. -/
def isNaN (x : F64) : Bool := decide (infBits < fbits x)

/-- Exponent all ones, fraction zero. -/
def isInf (x : F64) : Bool := decide (fbits x = infBits)

/-- Neither a NaN nor an infinity. -/
def isFinite (x : F64) : Bool := decide (fbits x < infBits)

/-- A zero of either sign. -/
def isZero (x : F64) : Bool := decide (fbits x = 0)

/-- The word with the given sign and magnitude bits. -/
def withSign (s : Bool) (b : Nat) : F64 := BitVec.ofNat 64 (if s then 2 ^ 63 + b else b)

/-- A quiet NaN: sign and payload are taken from the free bits (V6 of `93_implementation_defined.md`). -/
def quietNaN (free : BitVec 64) : F64 := free ||| 0x7FF8000000000000#64

/-- `abs(x)`: clears the sign bit (R12). -/
def fabs (x : F64) : F64 := x &&& 0x7FFFFFFFFFFFFFFF#64

/-- Negation: flips the sign bit. -/
def fneg (x : F64) : F64 := x ^^^ 0x8000000000000000#64

/-! ## Exact values and the one rounding -/

/-- One, counted in units of the least positive subnormal, 2^-1074. -/
def oneUnits : Nat := 2 ^ 1074

/-- The magnitude that magnitude bits stand for, in a format with `p` fraction bits, counted in units of the
format's least subnormal: the fraction itself for exponent 0, else `(2^p + fraction) * 2^(exponent - 1)`. -/
def magOfBits (p b : Nat) : Nat :=
  if b / 2 ^ p = 0 then b else (2 ^ p + b % 2 ^ p) * 2 ^ (b / 2 ^ p - 1)

/-- The magnitude of a finite word, counted in units of 2^-1074. -/
def fmag (x : F64) : Nat := magOfBits 52 (fbits x)

/-- The value of a finite word, counted in units of 2^-1074. -/
def fval (x : F64) : Int := if fsign x then -(fmag x : Int) else fmag x

/-- The integer nearest to `n / d`, ties to even. -/
def roundHalfEven (n d : Nat) : Nat :=
  if d < 2 * (n % d) ∨ (2 * (n % d) = d ∧ n / d % 2 = 1) then n / d + 1 else n / d

/-- The magnitude bits of the float nearest to `n / d` units of the least subnormal, ties to even, for a
format with `p` fraction bits whose infinity has magnitude bits `inf`. The kept integer is scaled by
`2 ^ k`, so that it has `p + 1` bits, or fewer where the result is subnormal (R10: gradual underflow). -/
def roundBits (p inf n d : Nat) : Nat :=
  min ((Nat.log2 (n / d) - p) * 2 ^ p + roundHalfEven n (d * 2 ^ (Nat.log2 (n / d) - p))) inf

/-- The binary64 nearest to `n / d` units of 2^-1074, with the given sign (R10). -/
def ofUnits (s : Bool) (n d : Nat) : F64 := withSign s (roundBits 52 infBits n d)

/-- The binary64 of a `nat`: exact for every `nat` of the spec (R11). -/
def natToF64 (n : Nat) : F64 := ofUnits false (n * oneUnits) 1

/-! ## The four operations (R10) -/

/-- `x + y`. An exact zero sum is `+0`, unless both operands are negative. -/
def fadd (x y : F64) : F64 :=
  if isNaN x || isNaN y then quietNaN (freeNaN .add x y)
  else if isInf x then
    (if isInf y && (fsign x != fsign y) then quietNaN (freeNaN .add x y) else x)
  else if isInf y then y
  else if fval x + fval y = 0 then withSign (fsign x && fsign y) 0
  else ofUnits (decide (fval x + fval y < 0)) (fval x + fval y).natAbs 1

/-- `x - y`, which is `x + (-y)`. -/
def fsub (x y : F64) : F64 := fadd x (fneg y)

/-- `x * y`. -/
def fmul (x y : F64) : F64 :=
  if isNaN x || isNaN y then quietNaN (freeNaN .mul x y)
  else if isInf x || isInf y then
    (if isZero x || isZero y then quietNaN (freeNaN .mul x y)
      else withSign (fsign x != fsign y) infBits)
  else ofUnits (fsign x != fsign y) (fmag x * fmag y) oneUnits

/-- `x / y`. -/
def fdiv (x y : F64) : F64 :=
  if isNaN x || isNaN y then quietNaN (freeNaN .div x y)
  else if isInf x then
    (if isInf y then quietNaN (freeNaN .div x y) else withSign (fsign x != fsign y) infBits)
  else if isInf y then withSign (fsign x != fsign y) 0
  else if isZero y then
    (if isZero x then quietNaN (freeNaN .div x y) else withSign (fsign x != fsign y) infBits)
  else ofUnits (fsign x != fsign y) (fmag x * oneUnits) (fmag y)

/-! ## Comparisons (R12): every comparison with a NaN is false except `!=` -/

/-- A number that orders the words that are not NaNs; the two zeros are equal in it. -/
def ford (x : F64) : Int := if fsign x then -(fbits x : Int) else fbits x

/-- `x < y`. -/
def flt (x y : F64) : Bool := !isNaN x && !isNaN y && decide (ford x < ford y)

/-- `x <= y`. -/
def fle (x y : F64) : Bool := !isNaN x && !isNaN y && decide (ford x ≤ ford y)

/-- `x = y`. -/
def feq (x y : F64) : Bool := !isNaN x && !isNaN y && decide (ford x = ford y)

/-- `min(a, b)`: `if b < a then b else a` (R12). -/
def fmin (a b : F64) : F64 := if flt b a then b else a

/-- `max(a, b)`: `if a < b then b else a` (R12). -/
def fmax (a b : F64) : F64 := if flt a b then b else a

/-! ## Exact operations (R12) -/

/-- `floor(x)`: the largest integral value not above `x`. A zero, and so every integral value, is its own
floor; an infinity gives the free value. -/
def ffloor (x : F64) : F64 :=
  if isNaN x then quietNaN (freeNaN .floor x x)
  else if isInf x then freeFloor x
  else if fsign x then ofUnits true ((fmag x + (oneUnits - 1)) / oneUnits * oneUnits) 1
  else ofUnits false (fmag x / oneUnits * oneUnits) 1

/-- `fmod(x, y)` for finite `x` and finite non-zero `y`: exactly `x - n*y` with `n` the truncated quotient;
it has the sign of `x`. Other operands that are not NaNs give the free value. -/
def ffmod (x y : F64) : F64 :=
  if isNaN x || isNaN y then quietNaN (freeNaN .fmod x y)
  else if isInf x || isInf y || isZero y then freeFmod x y
  else ofUnits (fsign x) (fmag x % fmag y) 1

/-- `toNat(x)`: the integer part of a finite `x >= 0`; nothing for a negative value, a NaN or an infinity,
where the caller raises `TableBounds`. -/
def ftoNat (x : F64) : Option Nat :=
  if isFinite x && (!fsign x || isZero x) then some (fmag x / oneUnits) else none

/-! ## binary32 (R14) -/

/-- The 31 bits below the sign of a binary32 word. -/
def fbits32 (a : F32) : Nat := a.toNat % 2 ^ 31

/-- The magnitude bits of a binary32 infinity. -/
def infBits32 : Nat := 255 * 2 ^ 23

/-- A binary32 NaN, quiet or signalling, of either sign (R238). -/
def isNaN32 (a : F32) : Bool := decide (infBits32 < fbits32 a)

/-- The magnitude of a finite binary32 word, counted in units of 2^-149. -/
def fmag32 (a : F32) : Nat := magOfBits 23 (fbits32 a)

/-- `widen(a)`: the binary64 of the same value, which is exact (R14); 2^-149 is 2^925 units of 2^-1074. -/
def widen (a : F32) : F64 :=
  if isNaN32 a then quietNaN (freeNaN .widen (a.setWidth 64) 0)
  else if fbits32 a = infBits32 then withSign a.msb infBits
  else ofUnits a.msb (fmag32 a * 2 ^ 925) 1

/-- The binary32 word with the given sign and magnitude bits. -/
def withSign32 (s : Bool) (b : Nat) : F32 := BitVec.ofNat 32 (if s then 2 ^ 31 + b else b)

/-- The binary32 nearest to `n / d` units of 2^-149, with the given sign. -/
def ofUnits32 (s : Bool) (n d : Nat) : F32 := withSign32 s (roundBits 23 infBits32 n d)

/-- `narrow(x)`: binary64 to binary32, round to nearest, ties to even (R14). A NaN stays a quiet NaN with
free sign and payload. -/
def narrow (x : F64) : F32 :=
  if isNaN x then (freeNaN .narrow x 0).setWidth 32 ||| 0x7FC00000#32
  else if isInf x then withSign32 (fsign x) infBits32
  else ofUnits32 (fsign x) (fmag x) (2 ^ 925)

/-! ## Literals (R11): the binary64 nearest to each decimal -/

/-- `+0`. -/
def fzero : F64 := 0x0000000000000000#64
/-- `1`. -/
def fone : F64 := 0x3FF0000000000000#64
/-- `2`. -/
def ftwo : F64 := 0x4000000000000000#64
/-- `4`. -/
def ffour : F64 := 0x4010000000000000#64
/-- `8`, which is `K - 1`. -/
def feight : F64 := 0x4020000000000000#64
/-- `12`, `F0_BASE`. -/
def ftwelve : F64 := 0x4028000000000000#64
/-- `62`, `MAX_WIDTH - 2`. -/
def fsixtyTwo : F64 := 0x404F000000000000#64
/-- `256`, `TABLE_SIZE - 1`. -/
def f256 : F64 := 0x4070000000000000#64
/-- `1000`, `FMOD_GUARD`. -/
def fthousand : F64 := 0x408F400000000000#64
/-- `0.5`. -/
def fhalf : F64 := 0x3FE0000000000000#64
/-- `0.85`. -/
def f085 : F64 := 0x3FEB333333333333#64
/-- `0.15`. -/
def f015 : F64 := 0x3FC3333333333333#64
/-- `1e-10`, `FLUSH_THRESHOLD`. -/
def flushThreshold : F64 := 0x3DDB7CDFD9D7BDBB#64
/-- `1e-9`, `DIV_FLOOR`. -/
def divFloor : F64 := 0x3E112E0BE826D695#64
/-- The default of `PI`, the binary64 nearest to pi (R11, D14). -/
def fpi : F64 := 0x400921FB54442D18#64

end Sys2Proof.Machine
end

