-- ==== Sys2Proof/Machine/Parameters.lean ====
section
/-! DEFINITION. What a configuration must satisfy to be a TFU (`00_scope.md` R6, R13), the parameters of the
machine (decided ones at their stated default, open ones free within R6 and R13), and configuration T0 of
`95_test_vectors.md`. -/

namespace Sys2Proof.Machine

open Sys2Proof.Config

/-! ## The named properties of `NUM` (R13) -/

/-- `P-cos-even`. -/
def CosEven (n : Numerics) : Prop := ∀ x, n.cos (fneg x) = n.cos x

/-- `P-cos-range`, for the finite operands a cosine has. -/
def CosRange (n : Numerics) : Prop :=
  ∀ x, isFinite x = true → fle (fneg fone) (n.cos x) = true ∧ fle (n.cos x) fone = true

/-- `P-sin-range`, for the finite operands a sine has. -/
def SinRange (n : Numerics) : Prop :=
  ∀ x, isFinite x = true → fle (fneg fone) (n.sin x) = true ∧ fle (n.sin x) fone = true

/-- `P-exp-unit`: for every operand not above 0, `-inf` among them. -/
def ExpUnit (n : Numerics) : Prop :=
  n.exp fzero = fone ∧ n.exp (fneg fzero) = fone ∧
    ∀ x, fle x fzero = true → fle fzero (n.exp x) = true ∧ fle (n.exp x) fone = true

/-- The binary64 of the integer `k - 1022`, for the exponents of `P-pow2-int`. -/
def exponentF64 (k : Nat) : F64 :=
  ofUnits (decide (k < 1022)) (((k : Int) - 1022).natAbs * oneUnits) 1

/-- `P-pow2-int`: `NUM.pow2(n) = 2^n` for `n = k - 1022` from -1022 to 1023; the word of `2^n` has exponent
field `n + 1023` and fraction zero. -/
def Pow2Int (n : Numerics) : Prop :=
  ∀ k : Nat, k ≤ 2045 → n.pow2 (exponentF64 k) = BitVec.ofNat 64 ((k + 1) * 2 ^ 52)

/-- What `P-pow2-mono` and `P-pow2-int` give for the exponents the rules form (`pow2Range_of_mono`):
`1 <= NUM.pow2(x) <= 16` for `0 <= x <= 4` (R13). -/
def Pow2Range (n : Numerics) : Prop :=
  ∀ x, fle fzero x = true → fle x ffour = true →
    fle fone (n.pow2 x) = true ∧ fle (n.pow2 x) (0x4030000000000000#64) = true

/-- `P-pow2-mono`: over all operands that compare, the infinities among them. -/
def Pow2Mono (n : Numerics) : Prop := ∀ x y, fle x y = true → fle (n.pow2 x) (n.pow2 y) = true

/-- `P-finite`, in the ranges the rules use: `exp` up to 0 (R121), `cos` of the running phase (R121), `sin` of the
LFO phase (R143), `pow2` from 0 to 4 (R162). -/
def FiniteInRange (n : Numerics) : Prop :=
  (∀ x, isFinite x = true → fle x fzero = true → isFinite (n.exp x) = true) ∧
  (∀ x, isFinite x = true → isFinite (n.cos x) = true) ∧
  (∀ x, isFinite x = true → isFinite (n.sin x) = true) ∧
  (∀ x, fle fzero x = true → fle x ffour = true → isFinite (n.pow2 x) = true)

/-! ## The constraints of R6 -/

/-- Finite and greater than zero. -/
def isPositive (x : F64) : Bool := isFinite x && flt fzero x

/-- Finite and not less than zero. -/
def isNonNegative (x : F64) : Bool := isFinite x && fle fzero x

/-- In `[0, 1]`. -/
def inUnit (x : F64) : Bool := fle fzero x && fle x fone

/-- The ranges of the last column of R36, for which the source's properties of `Dyn` hold (R271). -/
structure DynSafe (c : DynRegs) : Prop where
  thr : isPositive c.thr = true
  rat : isNonNegative c.rat = true
  trim : isNonNegative c.trim = true
  attPositive : flt fzero c.att = true
  attUnit : inUnit c.att = true
  rel : inUnit c.rel = true
  lthr : isNonNegative c.lthr = true
  xthr : isNonNegative c.xthr = true
  gatt : inUnit c.gatt = true
  xrat : inUnit c.xrat = true
  dry : isNonNegative c.dry = true

/-- A configuration of a TFU: R6 (a) to (f), the seven named properties of `NUM` that every statement may assume
(R13), and `DYN_DEFAULT` inside the ranges of R271. -/
structure LawfulParams (p : Params) : Prop where
  freq : ∀ a, isPositive (p.freq a) = true
  amp : ∀ a, isFinite (p.amp a) = true
  widthScale : ∀ s, isNonNegative (p.widthScale s) = true
  attenPositive : flt fzero p.atten = true
  attenUnit : fle p.atten fone = true
  minRate : isPositive p.minLfoRate = true
  maxRate : isPositive p.maxLfoRate = true
  rateOrder : fle p.minLfoRate p.maxLfoRate = true
  wave : ∀ phi, fle fzero phi = true → flt phi fone = true →
    fle (fneg fone) (p.lfoWave phi) = true ∧ fle (p.lfoWave phi) fone = true
  cosEven : CosEven p.num
  cosRange : CosRange p.num
  sinRange : SinRange p.num
  expUnit : ExpUnit p.num
  pow2Int : Pow2Int p.num
  pow2Mono : Pow2Mono p.num
  finite : FiniteInRange p.num
  slots : 1 ≤ p.slotCount
  dynDefault : DynSafe p.dynDefault

/-! ## Free values kept inside the constraints

Each function below returns its free argument wherever that satisfies the constraint, and a fixed legal value
where it does not; so its results are exactly the legal values, and which one is as free as the argument. -/

/-- A finite value. -/
def legalFinite (x : F64) : F64 := if isFinite x then x else fzero

/-- A finite positive value. -/
def legalPositive (x : F64) : F64 := if isPositive x then x else fone

/-- A finite value that is not negative. -/
def legalNonNegative (x : F64) : F64 := if isNonNegative x then x else fzero

/-- A value in `[lo, hi]`. -/
def legalBetween (lo hi x : F64) : F64 := if fle lo x && fle x hi then x else hi

/-- A dynamics configuration in the ranges of R271. -/
def legalDyn (c : DynRegs) : DynRegs where
  thr := legalPositive c.thr
  rat := legalNonNegative c.rat
  trim := legalNonNegative c.trim
  att := if flt fzero c.att && inUnit c.att then c.att else fone
  rel := legalBetween fzero fone c.rel
  lthr := legalNonNegative c.lthr
  xthr := legalNonNegative c.xthr
  gatt := legalBetween fzero fone c.gatt
  xrat := legalBetween fzero fone c.xrat
  dry := legalNonNegative c.dry
  mode := c.mode

/-- `exp` with `P-exp-unit`. -/
def legalExp (f : F64 → F64) (x : F64) : F64 :=
  if isZero x then fone
  else if !isNaN x && fsign x then legalBetween fzero fone (f x)
  else f x

/-- `cos` with `P-cos-even` and `P-cos-range`. -/
def legalCos (f : F64 → F64) (x : F64) : F64 :=
  if isFinite x then legalBetween (fneg fone) fone (f (fabs x)) else f (fabs x)

/-- `sin` with `P-sin-range`. -/
def legalSin (f : F64 → F64) (x : F64) : F64 :=
  if isFinite x then legalBetween (fneg fone) fone (f x) else f x

/-! ### A free monotone function

The words that are not NaNs are numbered in the order of their values, the two zeros alike, from `-inf` up. -/

/-- The place of a word in that order, 0 for `-inf`. -/
def ordinal (x : F64) : Nat := (ford x + infBits).toNat

/-- The word at a place, up to that of `+inf`; a zero has the given sign. -/
def ofOrdinal (zeroSign : Bool) (n : Nat) : F64 :=
  if n = infBits then withSign zeroSign 0
  else if n < infBits then withSign true (infBits - n)
  else withSign false (n - infBits)

/-- A monotone function of the low bits of `k` into `lo .. hi`, read off from free choices: at each bit the
choice at the current node splits the range, for the operands with the bit 0 and those with the bit 1. Every
monotone function into the range is given by some choices. -/
def freeMonotone (free : Nat → Nat) : (bits node lo hi k : Nat) → Nat
  | 0, node, lo, hi, _ => lo + free node % (hi - lo + 1)
  | n + 1, node, lo, hi, k =>
    let middle := lo + free node % (hi - lo + 1)
    if k / 2 ^ n % 2 = 0 then freeMonotone free n (2 * node) lo middle k
    else freeMonotone free n (2 * node + 1) middle hi k

/-- The largest integer not above a word; an infinity counts as beyond every exponent. -/
def floorInt (x : F64) : Int := fval x / (oneUnits : Int)

/-- The place of `2^n`, for an exponent `n` of the normal range. -/
def powerOrdinal (n : Int) : Nat := infBits + (n + 1023).toNat * 2 ^ 52

/-- The region of an exponent: between which two neighbouring integral exponents of `P-pow2-int` it lies, or -1023
below the least of them, or 1023 from the greatest. -/
def pow2Region (x : F64) : Int := max (-1023) (min 1023 (floorInt x))

/-- The place below which no power of a region lies. -/
def regionLow (r : Int) : Nat := if r = -1023 then 0 else powerOrdinal r

/-- The place above which no power of a region lies. -/
def regionHigh (r : Int) : Nat := if r = 1023 then 2 * infBits else powerOrdinal (r + 1)

/-- An exponent of `P-pow2-int`. -/
def isIntegralExponent (x : F64) : Bool :=
  decide (fval x % (oneUnits : Int) = 0) && decide (-1022 ≤ floorInt x) && decide (floorInt x ≤ 1023)

/-- The place of `pow2` of a word: exact for an exponent of `P-pow2-int`, free and monotone in each region. -/
def pow2Ordinal (f : Int → Nat → Nat) (x : F64) : Nat :=
  if isIntegralExponent x then powerOrdinal (floorInt x)
  else freeMonotone (f (pow2Region x)) 64 1 (regionLow (pow2Region x)) (regionHigh (pow2Region x)) (ordinal x)

/-- `pow2` with `P-pow2-int` and `P-pow2-mono`. -/
def legalPow2 (f : Int → Nat → Nat) (zeroSign : F64 → Bool) (ofNaN : F64 → F64) (x : F64) : F64 :=
  if isNaN x then ofNaN x else ofOrdinal (zeroSign x) (pow2Ordinal f x)

/-! ## The machine's parameters -/

/-- The machine's `NUM`: free but for the named properties of R13 (log 4). -/
def machineNum : Numerics where
  exp := legalExp freeExp
  cos := legalCos freeCos
  sin := legalSin freeSin
  pow2 := legalPow2 freePow2 freePow2ZeroSign freePow2NaN

/-- The default `LFO_WAVE` (R5, D23): `phi -> NUM.sin(2 * PI * phi)`, for the given `NUM` and `PI`. -/
def sineWave (n : Numerics) (pi phi : F64) : F64 := n.sin (fmul (fmul ftwo pi) phi)

/-- The machine's `MIN_LFO_RATE`. -/
def machineMinRate : F64 := legalPositive freeMinLfoRate

/-- The machine's `MAX_LFO_RATE`: positive and not below the minimum. -/
def machineMaxRate : F64 :=
  if isPositive freeMaxLfoRate && fle machineMinRate freeMaxLfoRate then freeMaxLfoRate else machineMinRate

/-- The parameters of the machine (R5): decided ones at their stated default, open ones free within R6. -/
@[reducible] def machineParams : Params where
  amp := fun a => legalFinite (freeAmp a.val)
  freq := fun a => legalPositive (freeFreq a.val)
  widthScale := fun s => legalNonNegative (freeWidthScale s.val)
  minLfoRate := machineMinRate
  maxLfoRate := machineMaxRate
  dynDefault := legalDyn freeDynDefault
  num := machineNum
  lfoWave := sineWave machineNum fpi

/-! ## Configuration T0 of `95_test_vectors.md` -/

/-- The default `FREQ` of `93_implementation_defined.md` G1, in Hz, slot by slot (general knowledge). -/
def t0Freq : List Nat :=
  [730, 200, 400, 250, 190, 350, 550, 550, 450] ++
  [1090, 2100, 900, 1700, 800, 1900, 1600, 850, 1100] ++
  [2440, 3100, 2300, 2100, 2000, 2500, 2250, 1900, 1500] ++
  [3400, 4700, 3000, 3300, 3400, 3700, 3200, 3000, 3000]

/-- The default `AMP` of G1, in hundredths, slot by slot (general knowledge). -/
def t0Amp : List Nat :=
  [100, 50, 100, 100, 70, 100, 100, 30, 100] ++
  [200, 50, 70, 70, 35, 30, 50, 100, 70] ++
  [30, 15, 20, 40, 10, 30, 70, 20, 20] ++
  [20, 10, 20, 30, 10, 10, 30, 20, 30]

/-- The binary64 nearest to the decimal `n / d` (R11). -/
def decimal (n d : Nat) : F64 := ofUnits false (n * oneUnits) d

/-- The default `DYN_DEFAULT` of D32 (general knowledge, G4). -/
def t0Dyn : DynRegs where
  thr := decimal 1585 10000
  rat := fhalf
  trim := decimal 1585 1000
  att := decimal 4345 10000
  rel := decimal 224 1000000
  lthr := fzero
  xthr := fzero
  gatt := decimal 4989 10000
  xrat := decimal 999776 1000000
  dry := fzero
  mode := false

/-- Configuration T0 with a given `NUM`: a default of the open parameters, never a fact about the hardware. -/
def paramsT0 (n : Numerics) : Params where
  amp := fun a => decimal (t0Amp.getD a.val 0) 100
  freq := fun a => natToF64 (t0Freq.getD a.val 0)
  widthScale := fun s => natToF64 ([100, 120, 150, 300].getD s.val 0)
  minLfoRate := decimal 1 10
  maxLfoRate := natToF64 10
  dynDefault := t0Dyn
  num := n
  lfoWave := sineWave n fpi

end Sys2Proof.Machine
end

