-- ==== Sys2Proof/Machine/Ops.lean ====
section
/-! DEFINITION. The named operations: the table memory `TF` (`20_memory.md` R60 to R63), the constant memories
`AMP` and `FREQ` (R64), the response (R93), taking a fault (`60_exceptions.md` R232), committing a command
(`43_formant_filter.md` R180) and hardware reset (`70_reset_and_hazards.md` R260). There is no return from a
fault: "a fault saves nothing and changes no mode" (R243). -/

namespace Sys2Proof.Machine

open Sys2Proof.Config

/-! ## The table memory -/

/-- What an unlisted word of `TF` reads as (log 7). -/
def tableDefault : F64 := fzero

/-- The word at an address. -/
def Table.read : Table → Nat → F64
  | [], _ => tableDefault
  | (b, v) :: rest, a => if a = b then v else Table.read rest a

/-- `MemWrite(TF, a, v)` (R8), keeping the canonical form. -/
def Table.write : Table → Nat → F64 → Table
  | [], a, v => if v = tableDefault then [] else [(a, v)]
  | (b, w) :: rest, a, v =>
    if a < b then (if v = tableDefault then (b, w) :: rest else (a, v) :: (b, w) :: rest)
    else if a = b then (if v = tableDefault then rest else (a, v) :: rest)
    else (b, w) :: Table.write rest a v

/-- Every listed address is above `lo` and below `TABLE_WORDS`, the addresses strictly rise, and no entry
equals what an unlisted address reads as. -/
def Table.wfFrom : Option Nat → Table → Bool
  | _, [] => true
  | lo, (a, v) :: rest =>
    (match lo with | none => true | some b => decide (b < a)) && decide (a < tableWords) &&
      decide (v ≠ tableDefault) && Table.wfFrom (some a) rest

/-- The canonical form of the table memory. -/
def Table.wf (m : Table) : Bool := Table.wfFrom none m

/-- The word address of cell `(phaseIndex, widthIndex)` (R61). -/
def cellAddress (phaseIndex widthIndex : Nat) : Nat := phaseIndex + tableSize * widthIndex

/-- `MemRead(TF, a)`: an address outside the memory raises `TableBounds` and returns no value (R63). -/
def memRead (m : Table) (a : Nat) : Except Cause F64 :=
  if a < tableWords then .ok (m.read a) else .error .tableBounds

/-! ## The constant memories -/

/-- The word address of slot `s`, entry `k` in `AMP` and `FREQ`: `k + K*s` (R64). -/
def coeffAddress {S : Nat} (s : Fin S) (k : Fin entries) : Fin (S * entries) :=
  ⟨k.val + entries * s.val, by have := s.isLt; have := k.isLt; simp only [entries] at *; omega⟩

/-- `AMP[s][k]`. -/
def ampTarget (p : Params) (s : Fin p.slotCount) (k : Fin entries) : F64 := p.amp (coeffAddress s k)

/-- `FREQ[s][k]`. -/
def freqTarget (p : Params) (s : Fin p.slotCount) (k : Fin entries) : F64 := p.freq (coeffAddress s k)

/-- The slots `0 .. S-1` in increasing order. -/
def slots (S : Nat) : List (Fin S) := List.finRange S

/-- One value for each slot. -/
def perSlot {S : Nat} (f : Fin S → F64) : Vector F64 S := Vector.ofFn f

/-! ## Responses and faults -/

/-- Returns a response to the host: exactly one per command (R93). -/
def respond (cause : Nat) (data : BitVec 64) (s : State) : State :=
  { s with responses := responseWord cause data :: s.responses }

/-- Taking a fault with cause `c` (R232): no register and no memory word changes, bit `c` of `STATUS.FAULT` is
set, the response is `CAUSE = c`, `DATA = 0`, and the unit is ready for the next command. -/
def raise (c : Cause) (s : State) : State :=
  respond c.code 0#64 { s with statusFault := setFaultBit s.statusFault c }

/-- Commits a command whose new registers and `DATA` were computed as values: on success all its writes take
effect together, on a fault none does (R180, R232). -/
def commit (result : Except Cause (UnitRegs × BitVec 64)) (s : State) : Host.Outcome State Fault Refusal :=
  match result with
  | .ok (u, data) => .next (respond 0 data { s with unit := some u })
  | .error c => .next (raise c s)

/-- A command other than CONSTRUCT: `NotConstructed` while `STATUS.CONSTRUCTED = 0`, before any operand is
examined (R236); otherwise the command runs on the registers and commits. -/
def onConstructed (s : State) (run : UnitRegs → Except Cause (UnitRegs × BitVec 64)) :
    Host.Outcome State Fault Refusal :=
  match s.unit with
  | none => .next (raise .notConstructed s)
  | some u => commit (run u) s

/-- Hardware reset (R260): `STATUS.CONSTRUCTED` and `STATUS.FAULT` become 0 and every other register and every
word of `TF` loses its value. -/
def hardwareReset (s : State) : State := { s with unit := none, statusFault := 0#8 }

end Sys2Proof.Machine
end

