-- ==== Sys2Proof/Machine/FormantTable.lean ====
section
/-! DEFINITION. The Formant Table (`40_formant_table.md` R120 to R127): `fast_cos`, `generateFormant`,
`buildTable` and the bilinear lookup `getFormant`. -/

namespace Sys2Proof.Machine

open Sys2Proof.Config

/-- `fast_cos(x) = 1 + x^2 * (2 * x^2 - 4)`, evaluated as written for every operand (R120). -/
def fastCos (x : F64) : F64 :=
  fadd fone (fmul (fmul x x) (fsub (fmul ftwo (fmul x x)) ffour))

/-- `hmax = min(10 * i, 128)`, with `128 = 257 div 2` (R121). -/
def harmonicMax (i : Nat) : Nat := min (10 * i) (tableSize / 2)

/-- The Hann weight `0.5 + 0.5 * fast_cos(h / hmax)` of harmonic `h` in row `i` (R121). -/
def hannWeight (i h : Nat) : F64 :=
  fadd fhalf (fmul fhalf (fastCos (fdiv (natToF64 h) (natToF64 (harmonicMax i)))))

/-- The Gaussian envelope `0.85 * NUM.exp(-(h * h) / (width * width)) + 0.15` of harmonic `h` in row `i`, whose
width is `i` itself (R121). -/
def gaussWeight (p : Params) (i h : Nat) : F64 :=
  fadd (fmul f085 (p.num.exp (fneg (fdiv (fmul (natToF64 h) (natToF64 h)) (fmul (natToF64 i) (natToF64 i)))))) f015

/-- One turn of the loop of R121: the running phase is advanced, then the harmonic's term is added. -/
def formantStep (p : Params) (phase : F64) (i : Nat) (acc : F64 × F64) (h : Nat) : F64 × F64 :=
  let phi := fadd acc.2 (fmul p.pi phase)
  (fadd acc.1 (fmul (fmul (hannWeight i h) (gaussWeight p i h)) (p.num.cos phi)), phi)

/-- `generateFormant(p, i)` (R121): the harmonics `1 .. hmax - 1`, from `a = 0.5` and `phi = +0`. -/
def generateFormant (p : Params) (phase : F64) (i : Nat) : F64 :=
  ((List.range' 1 (harmonicMax i - 1)).foldl (formantStep p phase i) (fhalf, fzero)).1

/-- The phase of entry `j`: `-1 + j * (2 / 256)` (R122). -/
def entryPhase (j : Nat) : F64 := fadd (fneg fone) (fmul (natToF64 j) (fdiv ftwo f256))

/-- The word `buildTable` writes at address `a`, which is cell `(a mod 257, a div 257)` (R61, R122). -/
def builtWord (p : Params) (a : Nat) : F64 := generateFormant p (entryPhase (a % tableSize)) (a / tableSize)

/-- `buildTable()` (R122): writes each of the 16448 words once; the order of the writes cannot be observed. -/
def buildTable (p : Params) : Table :=
  (List.range tableWords).foldr (fun a m => Table.write m a (builtWord p a)) []

/-- The width clamp of R125: into `[0, MAX_WIDTH - 2]`; a NaN passes both comparisons unchanged. -/
def clampWidth (w : F64) : F64 := if flt w fzero then fzero else if flt fsixtyTwo w then fsixtyTwo else w

/-- The row coordinate `P = 256 * (p + 1) * 0.5` of R125. -/
def rowCoordinate (phase : F64) : F64 := fmul (fmul f256 (fadd phase fone)) fhalf

/-- `toNat` raising `TableBounds` outside its domain (R12, R240 (c)). -/
def toNatOrBounds (x : F64) : Except Cause Nat :=
  match ftoNat x with
  | some n => .ok n
  | none => .error .tableBounds

/-- `u + f * (v - u)`, the form of every interpolation (R125, R163). -/
def lerp (f u v : F64) : F64 := fadd u (fmul f (fsub v u))

/-- The interpolation of R125 between four words: along phase in each row, then across the rows. -/
def bilinear (fP fI t00 t01 t10 t11 : F64) : F64 :=
  fadd (fmul (fsub fone fI) (lerp fP t00 t01)) (fmul fI (lerp fP t10 t11))

/-- `getFormant(p, w)` (R125). -/
def getFormant (tf : Table) (phase w : F64) : Except Cause F64 :=
  if fle (fneg fone) phase && fle phase fone then do
    let p0 ← toNatOrBounds (rowCoordinate phase)
    let i0 ← toNatOrBounds (clampWidth w)
    let i00 := cellAddress p0 i0
    let i10 := i00 + tableSize
    if tableWords ≤ i10 + 1 then
      .error .tableBounds
    else do
      let t00 ← memRead tf i00
      let t01 ← memRead tf (i00 + 1)
      let t10 ← memRead tf i10
      let t11 ← memRead tf (i10 + 1)
      .ok (bilinear (fsub (rowCoordinate phase) (natToF64 p0)) (fsub (clampWidth w) (natToF64 i0)) t00 t01 t10 t11)
  else .error .tableBounds

end Sys2Proof.Machine
end

