-- ==== Sys2Proof/Machine/CoefficientBank.lean ====
section
/-! DEFINITION. The Vowel Coefficient Bank (`42_coefficient_bank.md` R150 to R154). -/

namespace Sys2Proof.Machine

open Sys2Proof.Config

/-- `scale(value, maxValue, maxCompareValue)` (R151). -/
def scale (value maxValue maxCompareValue : F64) : F64 :=
  fmin maxCompareValue (fmul value (fdiv maxCompareValue maxValue))

/-- The entry a working vowel selects: `toNat(scale(TEMPVOWEL, 1, K - 1))` (R152). `scale` caps the value at
`K - 1`, so the last branch is never taken (`selectEntry_ok`). -/
def selectEntry (tempVowel : F64) : Except Cause (Fin entries) := do
  let n ← toNatOrBounds (scale tempVowel fone feight)
  if h : n < entries then .ok ⟨n, h⟩ else .error .tableBounds

/-- `cacheCoeffOffset()` (R152). -/
def cacheCoeffOffset {S : Nat} (u : Regs S) : Except Cause (Regs S) := do
  let k ← selectEntry u.tempVowel
  .ok { u with coeffOffset := k }

/-- One-pole smoothing: `value + ATTEN * (target - value)` (R153). -/
def smoothed (p : Params) (value target : F64) : F64 := fadd value (fmul p.atten (fsub target value))

/-- `smooth(s)` (R153): both live values of slot `s` move toward the targets at `COEFFOFFSET`. -/
def smooth (p : Params) (s : Fin p.slotCount) (u : Regs p.slotCount) : Regs p.slotCount :=
  { u with
    aval := u.aval.set s.val (smoothed p (u.aval.get s) (ampTarget p s u.coeffOffset))
    fval := u.fval.set s.val (smoothed p (u.fval.get s) (freqTarget p s u.coeffOffset)) }

end Sys2Proof.Machine
end

