-- ==== Sys2Proof/Machine/Operands.lean ====
section
/-! DEFINITION. Operand forms (`30_encoding.md` R92, `00_scope.md` R14, R15) and the operand tests that the
commands share (`60_exceptions.md` R237 to R239). -/

namespace Sys2Proof.Machine

/-- `clamp01(x) = min(1, max(0, x))` (R15). -/
def clamp01 (x : F64) : F64 := fmin fone (fmax fzero x)

/-- A control operand the source bounds to `[0, 1]`: widened exactly, then clamped (R14, R15). -/
def controlOperand (a : F32) : F64 := clamp01 (widen a)

/-- `not (sr > 0) or sr = +inf`: the sample rates CONSTRUCT refuses once NaNs are refused (R237). -/
def rateRefused (sr : F32) : Bool := !flt fzero (widen sr) || isInf (widen sr)

/-- The samples PROCESS and DYNPROC refuse: a NaN, `+inf` or `-inf` (R239). -/
def sampleRefused (x : F64) : Bool := isNaN x || isInf x

/-- The values DYNCFG refuses with `ConfigError` once NaNs are refused (R210, R237): an infinity; for `THR` a
value not above zero; for `MODE` a value that is neither `0.0`, of either sign, nor `1.0`. -/
def configRefused (sel : BitVec 8) (x : F64) : Bool :=
  isInf x || (sel = 0#8 && !flt fzero x) || (sel = 10#8 && !feq x fzero && !feq x fone)

end Sys2Proof.Machine
end

