-- ==== Sys2Proof/Machine/Dynamics.lean ====
section
/-! DEFINITION. The Dynamics Processor (`44_dynamics.md` R200 to R213): `Dyn`, stage by stage and in sequence,
and the commands DYNCFG and DYNPROC. -/

namespace Sys2Proof.Machine

open Sys2Proof.Config

/-! ## The stages (R201 to R208) -/

/-- Stage E, the peak envelope follower: the new `ENV` (R201). -/
def stageE (c : DynRegs) (i env : F64) : F64 :=
  if flt env i then fadd env (fmul c.att (fsub i env)) else fmul env (fsub fone c.rel)

/-- Stage G, the compressor gain, from the `ENV` stage E wrote (R202). -/
def stageG (c : DynRegs) (env : F64) : F64 :=
  if flt c.thr env then fdiv c.trim (fadd fone (fmul c.rat (fsub (fdiv env c.thr) fone))) else c.trim

/-- Stage O0, the simple-mode output `x * (g + DRY)` (R203). -/
def stageO0 (c : DynRegs) (x g : F64) : F64 := fmul x (fadd g c.dry)

/-- Stage E2, the limiter's peak envelope: the new `ENV2` (R204). -/
def stageE2 (c : DynRegs) (i env env2 : F64) : F64 := if flt env i then i else fmul env2 (fsub fone c.rel)

/-- Stage L, the limiter clamp of the gain (R205). -/
def stageL (c : DynRegs) (g env2 : F64) : F64 :=
  if flt fzero c.lthr && flt c.lthr (fmul g env2) then fdiv c.lthr env2 else g

/-- Stage X, the gate envelope: the new `GENV` (R206). -/
def stageX (c : DynRegs) (env genv : F64) : F64 :=
  if flt c.xthr env then fadd genv (fmul c.gatt (fsub fone genv)) else fmul genv c.xrat

/-- Stage O1, the full-mode output `x * (g * GENV + DRY)` (R207). -/
def stageO1 (c : DynRegs) (x g genv : F64) : F64 := fmul x (fadd (fmul g genv) c.dry)

/-- Stage F for one envelope: `+0` where its magnitude is below `1e-10` (R208). -/
def flush (e : F64) : F64 := if flt (fabs e) flushThreshold then fzero else e

/-- Stage F, the denormal flush of all three envelopes (R208). -/
def stageF (e : Envelopes) : Envelopes where
  env := flush e.env
  env2 := flush e.env2
  genv := flush e.genv

/-! ## The sequence (R209) -/

/-- `Dyn(x)` in simple mode: the output, and the envelopes before the flush. -/
def dynSimple (c : DynRegs) (e : Envelopes) (x : F64) : F64 × Envelopes :=
  let env := stageE c (fabs x) e.env
  (stageO0 c x (stageG c env), { e with env := env })

/-- `Dyn(x)` in full mode: the output, and the envelopes before the flush. -/
def dynFull (c : DynRegs) (e : Envelopes) (x : F64) : F64 × Envelopes :=
  let env := stageE c (fabs x) e.env
  let env2 := stageE2 c (fabs x) env e.env2
  let genv := stageX c env e.genv
  (stageO1 c x (stageL c (stageG c env) env2) genv, { env := env, env2 := env2, genv := genv })

/-- `Dyn(x)` (R209): the output and the new envelopes, a function of `x`, the old envelopes and the `DYN.*`
registers, and of nothing else. -/
def dyn (c : DynRegs) (e : Envelopes) (x : F64) : F64 × Envelopes :=
  let r := if c.mode then dynFull c e x else dynSimple c e x
  (r.1, stageF r.2)

/-! ## DYNCFG and DYNPROC -/

/-- `DYN.<register sel> <- x`; `MODE` becomes 1 if `x = 1`, else 0 (R95, R210). -/
def setDynReg (c : DynRegs) (sel : BitVec 8) (x : F64) : DynRegs :=
  if sel = 0#8 then { c with thr := x }
  else if sel = 1#8 then { c with rat := x }
  else if sel = 2#8 then { c with trim := x }
  else if sel = 3#8 then { c with att := x }
  else if sel = 4#8 then { c with rel := x }
  else if sel = 5#8 then { c with lthr := x }
  else if sel = 6#8 then { c with xthr := x }
  else if sel = 7#8 then { c with gatt := x }
  else if sel = 8#8 then { c with xrat := x }
  else if sel = 9#8 then { c with dry := x }
  else if sel = 10#8 then { c with mode := feq x fone }
  else c

/-- The operand checks and the effect of DYNCFG on a constructed unit (R210). -/
def dynCfgRegs {S : Nat} (sel : BitVec 8) (x : F64) (u : Regs S) : Except Cause (Regs S × BitVec 64) :=
  if isNaN x then .error .operandNaN
  else if configRefused sel x then .error .configError
  else .ok ({ u with dyn := setDynReg u.dyn sel x }, 0#64)

/-- `DYNCFG reg, x` (R210). A selector above 10 is an illegal encoding, refused before any state is read (R96,
R233). -/
def execDynCfg (sel : BitVec 8) (x : F64) (s : State) : Host.Outcome State Fault Refusal :=
  if selectorLegal sel then onConstructed s (dynCfgRegs sel x) else .next (raise .illegalEncoding s)

/-- DYNPROC on a constructed unit (R211): `Dyn` alone, on the envelopes PROCESS uses. -/
def dynProcRegs {S : Nat} (x : F64) (u : Regs S) : Except Cause (Regs S × BitVec 64) :=
  if sampleRefused x then .error .sampleNonFinite
  else .ok ({ u with envs := (dyn u.dyn u.envs x).2 }, (dyn u.dyn u.envs x).1)

/-- `DYNPROC x` (R211). -/
def execDynProc (x : F64) (s : State) : Host.Outcome State Fault Refusal := onConstructed s (dynProcRegs x)

end Sys2Proof.Machine
end

