-- ==== Sys2Proof/Machine/Lfo.lean ====
section
/-! DEFINITION. The LFO (`41_lfo.md` R140 to R145). -/

namespace Sys2Proof.Machine

open Sys2Proof.Config

/-- `rateMap(rp) = MIN_LFO_RATE + rp * (MAX_LFO_RATE - MIN_LFO_RATE)` (R141). -/
def rateMap (p : Params) (rp : F64) : F64 := fadd p.minLfoRate (fmul rp (fsub p.maxLfoRate p.minLfoRate))

/-- `LFO.setRate(hz)`: it does not touch `LPHASE` (R142). -/
def lfoSetRate {S : Nat} (hz : F64) (u : Regs S) : Regs S := { u with lrate := hz }

/-- The LFO phase one sample later: `LPHASE + LRATE / SRATE`, less 1 where that is `>= 1` (R143). -/
def lfoNextPhase (lphase lrate srate : F64) : F64 :=
  if fle fone (fadd lphase (fdiv lrate srate)) then fsub (fadd lphase (fdiv lrate srate)) fone
  else fadd lphase (fdiv lrate srate)

/-- `LFO.peek()`: the value at the current phase, and then one sample's advance (R143, C1). -/
def lfoPeek {S : Nat} (p : Params) (u : Regs S) : F64 × Regs S :=
  (p.lfoWave u.lphase, { u with lphase := lfoNextPhase u.lphase u.lrate u.srate })

/-- The rescale to unipolar `[0, 1]`: `(v + 1) * 0.5` (R144). -/
def unipolar (v : F64) : F64 := fmul (fadd v fone) fhalf

end Sys2Proof.Machine
end

