-- ==== Sys2Proof/Machine/FormantFilter.lean ====
section
/-! DEFINITION. The Formant Filter (`43_formant_filter.md` R160 to R187): its internal functions and the
commands CONSTRUCT, PROCESS, SETVOWEL, GETVOWEL and SETLFO. Each command is a function of a configuration; the
machine runs it with `machineParams`. -/

namespace Sys2Proof.Machine

open Sys2Proof.Config

/-! ## Internal functions -/

/-- `cacheLFO()` (R160): a disabled LFO has depth 0. -/
def cacheLfo {S : Nat} (u : Regs S) : Regs S :=
  let range := fmul u.vowel (if u.hasLfo then u.lfoDepth else fzero)
  { u with
    lfoRange := range
    lfoMax := fmin fone (fadd u.vowel (fdiv range ftwo))
    lfoMin := fmax fzero (fsub u.vowel (fdiv range ftwo)) }

/-- `retrack()` (R161). -/
def retrack {S : Nat} (u : Regs S) : Regs S :=
  { u with tempVowel := if u.hasLfo then fmin u.lfoMax (fmax u.lfoMin u.tempVowel) else u.vowel }

/-- `carrierFreq(t) = 12 * NUM.pow2(4 - 4 * t)` (R162). -/
def carrierFreq (p : Params) (t : F64) : F64 := fmul ftwelve (p.num.pow2 (fsub ffour (fmul ffour t)))

/-- The wrapped phase `fmod(p * n + 1 + 1000, 2) - 1` of harmonic `n` (R163). -/
def harmonicPhase (phase n : F64) : F64 :=
  fsub (ffmod (fadd (fadd (fmul phase n) fone) fthousand) ftwo) fone

/-- `getCarrier(h, p)` (R163): two polynomial cosines, crossfaded by the fractional part of `h`. -/
def getCarrier (h phase : F64) : F64 :=
  let h0 := ffloor h
  lerp (fsub h h0) (fastCos (harmonicPhase phase h0)) (fastCos (harmonicPhase phase (fadd h0 fone)))

/-! ## CONSTRUCT (R170) -/

/-- The registers after a successful `CONSTRUCT v0, sr` (R41), for the entry `k` the initial vowel selects. -/
def constructed (p : Params) (v srate : F64) (k : Fin entries) : Regs p.slotCount :=
  cacheLfo
    { vowel := v, tempVowel := v, hasLfo := false, lfoDepth := fzero
      lfoRange := fzero, lfoMin := v, lfoMax := v
      phase := fzero, srate := srate, coeffOffset := k, lphase := fzero, lrate := p.minLfoRate
      aval := perSlot fun s => ampTarget p s k
      fval := perSlot fun s => freqTarget p s k
      envs := { env := fzero, env2 := fzero, genv := fzero }
      dyn := p.dynDefault
      tf := buildTable p }

/-- The operand checks and the effect of CONSTRUCT (R170). -/
def constructRegs (p : Params) (v0 sr : F32) : Except Cause (Regs p.slotCount × BitVec 64) :=
  if isNaN32 v0 || isNaN32 sr then .error .operandNaN
  else if rateRefused sr then .error .configError
  else do
    let k ← selectEntry (controlOperand v0)
    .ok (constructed p (controlOperand v0) (widen sr) k, 0#64)

/-- `CONSTRUCT v0, sr` (R170): legal on a constructed unit too, which it re-creates from scratch (R263). -/
def execConstruct (v0 sr : F32) (s : State) : Host.Outcome State Fault Refusal :=
  commit (constructRegs machineParams v0 sr) s

/-! ## PROCESS (R171 to R180) -/

/-- Step 1, the working vowel (R172): the LFO is read and advanced whatever `HASLFO` is (R140). -/
def processVowel {S : Nat} (p : Params) (u : Regs S) : Regs S :=
  if u.hasLfo then
    { (lfoPeek p u).2 with
      tempVowel := fmin u.lfoMax (fadd u.lfoMin (fmul u.lfoRange (unipolar (lfoPeek p u).1))) }
  else (lfoPeek p u).2

/-- The carrier phase one sample later: `PHASE + f0 / (SRATE / 2)`, less 2 where that is `> 1` (R175). -/
def nextPhase (f0 srate phase : F64) : F64 :=
  if flt fone (fadd phase (fdiv f0 (fdiv srate ftwo))) then fsub (fadd phase (fdiv f0 (fdiv srate ftwo))) ftwo
  else fadd phase (fdiv f0 (fdiv srate ftwo))

/-- Step 4, the carrier phase (R175). -/
def processPhase {S : Nat} (f0 : F64) (u : Regs S) : Regs S := { u with phase := nextPhase f0 u.srate u.phase }

/-- Step 5b, the formant of slot `s`: `getFormant(PHASE, WIDTHSCALE[s] * invf0)`, or 1 where table-based shaping
is off (R177). -/
def slotFormant (p : Params) (invf0 : F64) (s : Fin p.slotCount) (u : Regs p.slotCount) : Except Cause F64 :=
  if p.synthMode then getFormant u.tf u.phase (fmul (p.widthScale s) invf0) else .ok fone

/-- Step 5c, the term of slot `s`: `AVAL[s] * (f0 / FVAL[s]) * x * formant * carrier` (R178). -/
def slotTerm {S : Nat} (f0 x formant carrier : F64) (s : Fin S) (u : Regs S) : F64 :=
  fmul (fmul (fmul (fmul (u.aval.get s) (fdiv f0 (u.fval.get s))) x) formant) carrier

/-- Step 5 for slot `s` (R176 to R178): smooth, read the table, add the term to `out`. -/
def processSlot (p : Params) (f0 invf0 x : F64) (acc : F64 × Regs p.slotCount) (s : Fin p.slotCount) :
    Except Cause (F64 × Regs p.slotCount) := do
  let u := smooth p s acc.2
  let formant ← slotFormant p invf0 s u
  .ok (fadd acc.1 (slotTerm f0 x formant (getCarrier (fmul (u.fval.get s) invf0) u.phase) s u), u)

/-- Steps 1 to 4 (R172 to R175): the registers before the slots, and `f0`. -/
def processPrepare {S : Nat} (p : Params) (u : Regs S) : Except Cause (F64 × Regs S) := do
  let u2 ← cacheCoeffOffset (processVowel p u)
  .ok (carrierFreq p u2.tempVowel, processPhase (carrierFreq p u2.tempVowel) u2)

/-- Step 5 for all slots in increasing order, from `out = +0` (R171, R176). -/
def processSlots (p : Params) (f0 x : F64) (u : Regs p.slotCount) : Except Cause (F64 × Regs p.slotCount) :=
  (slots p.slotCount).foldlM (processSlot p f0 (fdiv fone f0) x) (fzero, u)

/-- Step 6: the response's `DATA` is `Dyn(out)`, and `Dyn` writes the envelopes (R179). -/
def processDyn {S : Nat} (out : F64) (u : Regs S) : Regs S × BitVec 64 :=
  ({ u with envs := (dyn u.dyn u.envs out).2 }, (dyn u.dyn u.envs out).1)

/-- PROCESS on a constructed unit (R171): steps 1 to 6, computed as values; `commit` stores them only on success
(R180). -/
def processRegs (p : Params) (x : F64) (u : Regs p.slotCount) : Except Cause (Regs p.slotCount × BitVec 64) :=
  if sampleRefused x then .error .sampleNonFinite
  else do
    let prepared ← processPrepare p u
    let summed ← processSlots p prepared.1 x prepared.2
    .ok (processDyn summed.1 summed.2)

/-- `PROCESS x` (R171). -/
def execProcess (x : F64) (s : State) : Host.Outcome State Fault Refusal :=
  onConstructed s (processRegs machineParams x)

/-! ## SETVOWEL, GETVOWEL, SETLFO -/

/-- The ratio of the old working vowel to the old base vowel, `TEMPVOWEL / max(VOWEL, 1e-9)` (R181). -/
def vowelRatio {S : Nat} (u : Regs S) : F64 := fdiv u.tempVowel (fmax u.vowel divFloor)

/-- SETVOWEL on a constructed unit (R181). -/
def setVowelRegs {S : Nat} (v32 : F32) (u : Regs S) : Except Cause (Regs S × BitVec 64) :=
  if isNaN32 v32 then .error .operandNaN
  else do
    let v := controlOperand v32
    let u' ← cacheCoeffOffset (retrack (cacheLfo
      { u with vowel := v, tempVowel := if u.hasLfo then fmul v (vowelRatio u) else v }))
    .ok (u', 0#64)

/-- `SETVOWEL v` (R181). -/
def execSetVowel (v : F32) (s : State) : Host.Outcome State Fault Refusal := onConstructed s (setVowelRegs v)

/-- The `DATA` of GETVOWEL: `narrow(VOWEL)` in bits 63 to 32, zero below (R93, R182). -/
def vowelData {S : Nat} (u : Regs S) : BitVec 64 := narrow u.vowel ++ 0#32

/-- `GETVOWEL` (R182). -/
def execGetVowel (s : State) : Host.Outcome State Fault Refusal := onConstructed s fun u => .ok (u, vowelData u)

/-- `ratePercent > 0` after clamping enables the LFO (R183). -/
def lfoEnables (ratePercent : F32) : Bool := flt fzero (controlOperand ratePercent)

/-- The registers SETLFO writes on every call: `HASLFO` and `LRATE` (R183). -/
def setLfoRate {S : Nat} (p : Params) (ratePercent : F32) (u : Regs S) : Regs S :=
  lfoSetRate (rateMap p (controlOperand ratePercent)) { u with hasLfo := lfoEnables ratePercent }

/-- `changed`: the enabled state or the depth differs from before (R183). -/
def lfoChanged {S : Nat} (ratePercent depth : F32) (u : Regs S) : Bool :=
  (lfoEnables ratePercent != u.hasLfo) || !feq (controlOperand depth) u.lfoDepth

/-- SETLFO on a constructed unit (R183). -/
def setLfoRegs {S : Nat} (p : Params) (ratePercent depth : F32) (u : Regs S) : Except Cause (Regs S × BitVec 64) :=
  if isNaN32 ratePercent || isNaN32 depth then .error .operandNaN
  else if lfoChanged ratePercent depth u then do
    let u' ← cacheCoeffOffset (retrack (cacheLfo
      { setLfoRate p ratePercent u with lfoDepth := controlOperand depth }))
    .ok (u', 0#64)
  else .ok (setLfoRate p ratePercent u, 0#64)

/-- `SETLFO ratePercent, depth` (R183). -/
def execSetLfo (ratePercent depth : F32) (s : State) : Host.Outcome State Fault Refusal :=
  onConstructed s (setLfoRegs machineParams ratePercent depth)

end Sys2Proof.Machine
end

