-- ==== Sys2Proof/Machine/Dispatch.lean ====
section
/-! DEFINITION. `exec`: one arm per command, each a direct call of its meaning. -/

namespace Sys2Proof.Machine

def exec (i : Instr) (s : State) : Host.Outcome State Fault Refusal :=
  match i with
  | .construct v0 sr => Sys2Proof.Machine.execConstruct v0 sr s
  | .setVowel v => Sys2Proof.Machine.execSetVowel v s
  | .getVowel => Sys2Proof.Machine.execGetVowel s
  | .setLfo ratePercent depth => Sys2Proof.Machine.execSetLfo ratePercent depth s
  | .process x => Sys2Proof.Machine.execProcess x s
  | .dynCfg sel x => Sys2Proof.Machine.execDynCfg sel x s
  | .dynProc x => Sys2Proof.Machine.execDynProc x s

end Sys2Proof.Machine
end

