-- ==== Sys2Proof/Machine/Step.lean ====
section
/-! DEFINITION. One step of the machine: what reaches the unit next is carried out (`00_scope.md` R2,
`20_memory.md` R71, `70_reset_and_hazards.md` R260). -/

namespace Sys2Proof.Machine

/-- One step. With nothing from the host the unit is idle and "holds its state indefinitely" (R247). A command
word is decoded (R98); an illegal one raises its fault (R96), a legal one runs atomically and answers before
the next is taken (R71). -/
def step (s : State) : Host.Outcome State Fault Refusal :=
  match s.input with
  | [] => .next s
  | .hardwareReset :: rest => .next (hardwareReset { s with input := rest })
  | .command w :: rest =>
    match decode w with
    | .error c => .next (raise c { s with input := rest })
    | .ok i => exec i { s with input := rest }

/-- The state in which the host's next command word is the opcode-table word `w`. -/
def State.withFetchWord (s : State) (nbits w : Nat) : State :=
  { s with input := .command (tableWord nbits w) :: s.input }

end Sys2Proof.Machine
end

