-- ==== Sys2Proof/Machine/HostSide.lean ====
section
/-! DEFINITION. What the host does with the command port: the pseudo-instructions of `30_encoding.md` R100,
which are host-side macros over the commands, and several independent channels (`60_exceptions.md` R246). -/

namespace Sys2Proof.Machine

/-! ## Pseudo-instructions (R100) -/

/-- The words of a list of commands, as the host issues them. -/
def issue (commands : List Instr) : List PortEvent := commands.map fun i => .command (encode i)

/-- The host issues a list of commands one at a time, each after the response to the one before it (R71). -/
def runCommands : List Instr → State → Host.Outcome State Fault Refusal
  | [], s => .next s
  | i :: rest, s =>
    match exec i s with
    | .next t => runCommands rest t
    | .fault r => .fault r
    | .refused r => .refused r

/-- `LFOOFF depth`: `SETLFO 0, depth` (R100 (c)). -/
def lfoOff (depth : F32) : Instr := .setLfo 0#32 depth

/-- `DYNCONFIGURE thr, rat, trim, att, rel, lthr, xthr, gatt, xrat, dry, mode`: eleven DYNCFG commands with `SEL`
0 to 10 in that order (R100 (b)). -/
def dynConfigure (thr rat trim att rel lthr xthr gatt xrat dry mode : F64) : List Instr :=
  [.dynCfg 0#8 thr, .dynCfg 1#8 rat, .dynCfg 2#8 trim, .dynCfg 3#8 att, .dynCfg 4#8 rel, .dynCfg 5#8 lthr,
   .dynCfg 6#8 xthr, .dynCfg 7#8 gatt, .dynCfg 8#8 xrat, .dynCfg 9#8 dry, .dynCfg 10#8 mode]

/-- What PROCESSBLK leaves: the host's buffer, the unit, and the `CAUSE` it reports (0 for none). -/
structure BlockResult where
  buffer : List F64
  unitState : State
  cause : BitVec 8
deriving DecidableEq, Repr

/-- `PROCESSBLK buf, n` (R65, R100 (a)), with `n` the length of the list: each `buf[i]` in increasing order is
sent as the operand of one PROCESS and replaced by the response's `DATA`. At the first fault the expansion
stops, that element and all later ones are left as they were, and the fault is reported. -/
def processBlk : List F64 → State → BlockResult
  | [], s => { buffer := [], unitState := s, cause := 0#8 }
  | x :: rest, s =>
    match exec (.process x) s with
    | .next t =>
      let r := t.responses.headD 0#72
      if responseCause r = 0#8 then
        let later := processBlk rest t
        { later with buffer := responseData r :: later.buffer }
      else { buffer := x :: rest, unitState := t, cause := responseCause r }
    | .fault _ => { buffer := x :: rest, unitState := s, cause := 0#8 }
    | .refused _ => { buffer := x :: rest, unitState := s, cause := 0#8 }

/-! ## Channels (R246) -/

/-- One step of channel `n` among independent instances: "a model of `n` channels is `n` independent copies of
the model of one". A number that names no channel changes nothing. -/
def stepChannel (n : Nat) (channels : List State) : Host.Outcome (List State) Fault Refusal :=
  match channels[n]? with
  | none => .next channels
  | some s =>
    match step s with
    | .next t => .next (channels.set n t)
    | .fault r => .fault r
    | .refused r => .refused r

end Sys2Proof.Machine
end

