-- ==== Sys2Proof/Safety.lean ====
section
/-! DEFINITION. What counts as a safe run of the TFU, in the terms the statements use: runs without a fault
(`10_state.md` R22), and the legal values the spec gives the registers (R23 to R36, R38), each as a predicate
that says what "legal" means and nothing about how it is kept. -/

namespace Sys2Proof.Machine

open Sys2Proof.Config

/-- No command has faulted since hardware reset: "all eight bits being 0 means that no command has faulted since
reset" (R232). -/
def State.clean (s : State) : Bool := decide (s.statusFault = 0#8)

/-- The word at an address of `TF`; an unconstructed unit holds none (R40). -/
def State.tableWord (s : State) (a : Nat) : Option F64 := s.unit.map fun u => u.tf.read a

/-- A predicate on the registers of a constructed unit; it asks nothing of an unconstructed one. -/
def State.holds (P : UnitRegs → Prop) (s : State) : Prop := ∀ u, s.unit = some u → P u

/-- The response a step added: the step answered exactly this on top of the earlier responses. -/
def Answered (s t : State) (cause : Nat) (data : BitVec 64) : Prop :=
  t.responses = responseWord cause data :: s.responses

/-- The result, from state `s`, is the refusal of a command with this cause code (R232): the response carries the cause
and a `DATA` of 0, the cause's sticky bit is set, and nothing else changes. -/
def Refuses (result : Host.Outcome State Fault Refusal) (s : State) (cause : Nat) : Prop :=
  ∃ t, result = .next t ∧ Answered s t cause 0#64 ∧ t.statusFault = s.statusFault ||| (1#8 <<< cause) ∧
    t.unit = s.unit ∧ t.input = s.input

/-- `STATUS.FAULT` as R22 and R230 have it: "bit 0 is never set". -/
def FaultBitsLegal (s : State) : Prop := s.statusFault.getLsbD 0 = false

/-- A value some f32 control operand gives (R184): widened and clamped, never a NaN. -/
def HeldByF32 (x : F64) : Prop := ∃ a : F32, isNaN32 a = false ∧ x = controlOperand a

/-- `r` is the binary64 for the exact value `n / d`, counted in units of 2^-1074 (R10): no finite word is nearer, and
where another word is as near, `r` has an even last bit; it is an infinity from half a unit in the last place above
the greatest finite word up (twice that bound is written out); and it has the sign of the value. -/
def CorrectlyRounded (r : F64) (n : Int) (d : Nat) : Prop :=
  isNaN r = false ∧
  (isFinite r = true → ∀ w : F64, isFinite w = true →
    |fval r * d - n| ≤ |fval w * d - n| ∧
    (|fval r * d - n| = |fval w * d - n| → fval w ≠ fval r → r.getLsbD 0 = false)) ∧
  (isInf r = true ↔
    (3 * fval (0x7FEFFFFFFFFFFFFF#64) - fval (0x7FEFFFFFFFFFFFFE#64)) * d ≤ 2 * |n|) ∧
  (n ≠ 0 → fsign r = decide (n < 0))

/-- The table holds what `buildTable` writes (R21, R68: "immutable afterward"). -/
def TableBuilt {S : Nat} (u : Regs S) : Prop := u.tf = buildTable machineParams

/-- "Each is `+0` or has magnitude at least `1e-10`" (R35); a NaN envelope is not flushed (R208). -/
def Flushed (e : F64) : Prop := e = fzero ∨ flt (fabs e) flushThreshold = false

/-- All three envelopes are flushed (R38 (b)). -/
def EnvelopesFlushed {S : Nat} (u : Regs S) : Prop := Flushed u.envs.env ∧ Flushed u.envs.env2 ∧ Flushed u.envs.genv

/-- The values DYNCFG accepts (R36, R210): all finite, `THR > 0`. -/
def DynAccepted (c : DynRegs) : Prop :=
  isPositive c.thr = true ∧ isFinite c.rat = true ∧ isFinite c.trim = true ∧ isFinite c.att = true ∧
  isFinite c.rel = true ∧ isFinite c.lthr = true ∧ isFinite c.xthr = true ∧ isFinite c.gatt = true ∧
  isFinite c.xrat = true ∧ isFinite c.dry = true

/-- What storage holds between commands: the built table, flushed envelopes, accepted dynamics registers. -/
structure StorageLegal {S : Nat} (u : Regs S) : Prop where
  table : TableBuilt u
  flushed : EnvelopesFlushed u
  dynamics : DynAccepted u.dyn

/-- The vowel registers between commands (R23, R24, R26, R27, R30, R38 (c) and (e)): the base vowel and the depth
are values of clamped f32 operands, the bounds are those `cacheLFO` gives, the working vowel is in `[0, 1]`, not
above `LFOMAX`, and equals the base vowel while the LFO is off, and `COEFFOFFSET` is the entry it selects. -/
structure VowelLegal {S : Nat} (u : Regs S) : Prop where
  vowel : HeldByF32 u.vowel
  depth : HeldByF32 u.lfoDepth
  bounds : cacheLfo u = u
  working : inUnit u.tempVowel = true
  upper : u.hasLfo = true → fle u.tempVowel u.lfoMax = true
  tracks : u.hasLfo = false → u.tempVowel = u.vowel
  offset : selectEntry u.tempVowel = .ok u.coeffOffset

/-- `SRATE` is the value of a sample-rate operand CONSTRUCT accepts (R29). -/
def RateAccepted {S : Nat} (u : Regs S) : Prop := ∃ sr : F32, isNaN32 sr = false ∧ rateRefused sr = false ∧ u.srate = widen sr

/-- The condition of R265: `SRATE >= 192`. -/
def CarrierRateSafe (srate : F64) : Bool := fle (0x4068000000000000#64) srate

/-- `-1 < PHASE <= 1` (R28). -/
def PhaseLegal (phase : F64) : Prop := flt (fneg fone) phase = true ∧ fle phase fone = true

/-- The carrier phase between commands, under the condition of R265 (R38 (a), R185). -/
structure CarrierLegal {S : Nat} (u : Regs S) : Prop where
  vowels : VowelLegal u
  rate : RateAccepted u
  phase : CarrierRateSafe u.srate = true → PhaseLegal u.phase

/-- The condition of R266: every rate SETLFO can set advances the LFO phase by less than one cycle per sample. -/
def LfoRateSafe (srate : F64) : Prop :=
  ∀ rp, inUnit rp = true → flt (fdiv (rateMap machineParams rp) srate) fone = true

/-- `LRATE` is a rate that SETLFO or CONSTRUCT sets (R32, R142). -/
def LfoRateMapped {S : Nat} (u : Regs S) : Prop := ∃ rp, inUnit rp = true ∧ u.lrate = rateMap machineParams rp

/-- The LFO between commands, under the condition of R266: `0 <= LPHASE < 1` (R31, R38 (a)), and while the LFO is
on the working vowel is not below `LFOMIN` (R38 (c)). -/
structure SweepLegal {S : Nat} (u : Regs S) : Prop where
  vowels : VowelLegal u
  rate : RateAccepted u
  mapped : LfoRateMapped u
  phase : LfoRateSafe u.srate → fle fzero u.lphase = true ∧ flt u.lphase fone = true
  lower : LfoRateSafe u.srate → u.hasLfo = true → fle u.lfoMin u.tempVowel = true

/-- Every live frequency is finite and above zero (R34). -/
def LiveFrequenciesPositive {S : Nat} (u : Regs S) : Prop := ∀ s : Fin S, isPositive (u.fval.get s) = true

end Sys2Proof.Machine
end

