-- ==== Sys2Proof/Certificates/Slice0/Obligations.lean ====
section
/-! DEFINITION. The statements for the provers. Each names the rules of `spec/` it rests on; a statement about one
instruction gives its next state whole (so what it leaves unchanged too) or is joined by the frame statements
`EachCommandWritesOnlyItsRegisters` and `FaultsArePrecise`. -/

open Sys2Proof Sys2Proof.Config Sys2Proof.Machine

/-! ## Encoding -/

/-- Decoding the word of a well-formed command gives it back, every operand at every value (R90 to R98). -/
def Obligations.DecodeOfEncode : Prop := ∀ i : Instr, i.WellFormed = true → decode (encode i) = .ok i

/-- A word that decodes is the word of the command it decodes to: one word per command (R91, R97). -/
def Obligations.EncodeOfDecode : Prop :=
  ∀ (w : CommandWord) (i : Instr), decode w = .ok i → i.WellFormed = true ∧ encode i = w

/-- The total decode function of R98, in the bits of the word. -/
def Obligations.DecodeRule : Prop :=
  ∀ w : CommandWord,
    let opc := (w.extractLsb' 72 8).toNat
    let sel := w.extractLsb' 64 8
    let a := w.extractLsb' 32 32
    let b := w.extractLsb' 0 32
    let x := w.extractLsb' 0 64
    (opc < 1 ∨ 7 < opc → decode w = .error .illegalOpcode) ∧
    (1 ≤ opc ∧ opc ≤ 7 ∧
        (opc ≠ 6 ∧ sel ≠ 0#8 ∨ opc = 6 ∧ 10 < sel.toNat ∨ opc = 2 ∧ b ≠ 0#32 ∨ opc = 3 ∧ x ≠ 0#64) →
      decode w = .error .illegalEncoding) ∧
    (opc = 1 ∧ sel = 0#8 → decode w = .ok (.construct a b)) ∧
    (opc = 2 ∧ sel = 0#8 ∧ b = 0#32 → decode w = .ok (.setVowel a)) ∧
    (opc = 3 ∧ sel = 0#8 ∧ x = 0#64 → decode w = .ok .getVowel) ∧
    (opc = 4 ∧ sel = 0#8 → decode w = .ok (.setLfo a b)) ∧
    (opc = 5 ∧ sel = 0#8 → decode w = .ok (.process x)) ∧
    (opc = 6 ∧ sel.toNat ≤ 10 → decode w = .ok (.dynCfg sel x)) ∧
    (opc = 7 ∧ sel = 0#8 → decode w = .ok (.dynProc x))

/-- Worked encodings of `30_encoding.md` section 6, and words of R96 that are illegal. -/
def Obligations.WorkedEncodings : Prop :=
  decode 0x01003F000000472C4400#80 = .ok (.construct 0x3F000000#32 0x472C4400#32) ∧
  decode 0x02003E80000000000000#80 = .ok (.setVowel 0x3E800000#32) ∧
  decode 0x03000000000000000000#80 = .ok .getVowel ∧
  decode 0x04003F0000003F800000#80 = .ok (.setLfo 0x3F000000#32 0x3F800000#32) ∧
  decode 0x05003FF0000000000000#80 = .ok (.process 0x3FF0000000000000#64) ∧
  decode 0x060A3FF0000000000000#80 = .ok (.dynCfg 10#8 0x3FF0000000000000#64) ∧
  decode 0x07003FE0000000000000#80 = .ok (.dynProc 0x3FE0000000000000#64) ∧
  decode 0x00000000000000000000#80 = .error .illegalOpcode ∧
  decode 0x060B7FF8000000000000#80 = .error .illegalEncoding

/-- Serialised words (R66): ten bytes for a command and nine for a response, byte by byte, the most significant
first; and the ten bytes carry the word they came from. -/
def Obligations.SerialTransport : Prop :=
  (∀ w : CommandWord, (commandBytes w).length = 10 ∧
    (∀ i : Nat, i < 10 → (commandBytes w)[i]? = some (w.extractLsb' (8 * (9 - i)) 8)) ∧
    commandOfBytes (commandBytes w) = some w) ∧
  (∀ r : ResponseWord, (responseBytes r).length = 9 ∧
    ∀ i : Nat, i < 9 → (responseBytes r)[i]? = some (r.extractLsb' (8 * (8 - i)) 8))

/-! ## The step, reset, and the answer to every command -/

/-- A step runs the command its word decodes to, on the state with that word taken; a word that decodes to none is
refused with cause 1 (`IllegalOpcode`) or 2 (`IllegalEncoding`), whether or not the unit is constructed (R71, R96, R98,
R230, R232, R234, R235). -/
def Obligations.StepRunsTheDecodedCommand : Prop :=
  ∀ (s : State) (w : CommandWord) (rest : List PortEvent), s.input = .command w :: rest →
    (∀ i : Instr, decode w = .ok i → step s = exec i { s with input := rest }) ∧
    (∀ c : Cause, decode w = .error c → step s = .next (raise c { s with input := rest })) ∧
    (decode w = .error .illegalOpcode → Refuses (step s) { s with input := rest } 1) ∧
    (decode w = .error .illegalEncoding → Refuses (step s) { s with input := rest } 2) ∧
    (∀ c : Cause, decode w = .error c → c = .illegalOpcode ∨ c = .illegalEncoding)

/-- Without a command the unit holds its state (R247); hardware reset clears both status fields and leaves every
register and table word without a value (R260). That the state records what the host sends and what it was
answered is the model's choice (log 6). -/
def Obligations.IdleAndHardwareReset : Prop :=
  ∀ s : State,
    (s.input = [] → step s = .next s) ∧
    (∀ rest, s.input = .hardwareReset :: rest →
      ∃ t, step s = .next t ∧ t.constructed = false ∧ t.statusFault = 0#8 ∧ (∀ a, t.tableWord a = none) ∧
        t.unit = none ∧ t.input = rest ∧ t.responses = s.responses)

/-- The state after reset (R40, R261), and every invariant below holds in it. That no response has been given is
the model's choice: the record of responses is its own (log 6). -/
def Obligations.StateAfterReset : Prop :=
  State.reset.constructed = false ∧ State.reset.statusFault = 0#8 ∧ State.reset.unit = none ∧
  (∀ a, State.reset.tableWord a = none) ∧ State.reset.responses = [] ∧
  FaultBitsLegal State.reset ∧ State.reset.holds StorageLegal ∧ State.reset.holds VowelLegal ∧
  State.reset.holds CarrierLegal ∧ State.reset.holds SweepLegal ∧ State.reset.holds LiveFrequenciesPositive

/-- No step stops the machine: every step, and every command in every state, ends in a next state (R232, R274). -/
def Obligations.EveryStepEndsInANextState : Prop :=
  (∀ s : State, ∃ t, step s = .next t) ∧ (∀ (i : Instr) (s : State), ∃ t, exec i s = .next t)

/-! ## Faults -/

/-- Exactly one response per command, with `CAUSE` in `r[71:64]` and `DATA` in `r[63:0]` (R93), and faults are precise
(R232): a command that answers a cause other than 0 changes nothing but that cause's sticky bit, and its `DATA` is 0;
one that answers 0 changes no sticky bit, leaves the unit constructed, and has `DATA` 0 but for GETVOWEL, PROCESS and
DYNPROC. The words the other statements name are these bits. -/
def Obligations.FaultsArePrecise : Prop :=
  (∀ (c : Nat) (d : BitVec 64), c ≤ 7 →
    ((responseWord c d).extractLsb' 64 8).toNat = c ∧ (responseWord c d).extractLsb' 0 64 = d) ∧
  (∀ r : ResponseWord, responseCause r = r.extractLsb' 64 8 ∧ responseData r = r.extractLsb' 0 64) ∧
  (∀ (i : Instr) (s t : State), exec i s = .next t →
    ∃ r : BitVec 72, t.responses = r :: s.responses ∧ t.input = s.input ∧
      let cause := r.extractLsb' 64 8
      let data := r.extractLsb' 0 64
      cause.toNat ≤ 7 ∧
      (cause = 0#8 → t.statusFault = s.statusFault ∧ t.constructed = true ∧
        (data = 0#64 ∨ i = .getVowel ∨ (∃ x, i = .process x) ∨ ∃ x, i = .dynProc x)) ∧
      (cause ≠ 0#8 → t.unit = s.unit ∧ data = 0#64 ∧ t.statusFault = s.statusFault ||| (1#8 <<< cause.toNat)))

/-- Nothing but hardware reset clears a bit of `STATUS.FAULT` (R22, R232), and no step sets bit 0 (R22, R230). -/
def Obligations.FaultBitsAreSticky : Prop :=
  ∀ (s t : State), step s = .next t →
    ((∀ rest, s.input ≠ .hardwareReset :: rest) →
      ∀ b : Nat, s.statusFault.getLsbD b = true → t.statusFault.getLsbD b = true) ∧
    (FaultBitsLegal s → FaultBitsLegal t)

/-- A fault does not change how later commands execute (R232): with the same registers, two states that differ in
the sticky bits and in the responses given so far run every command alike. -/
def Obligations.FaultHistoryIsUnobservable : Prop :=
  ∀ (i : Instr) (s t : State) (bits : BitVec 8) (history : List ResponseWord), exec i s = .next t →
    ∃ t', exec i { s with statusFault := bits, responses := history } = .next t' ∧ t'.unit = t.unit ∧
      t'.input = t.input ∧ t'.responses.head? = t.responses.head?

/-- `NotConstructed` (R236): every legal command but CONSTRUCT raises it while `STATUS.CONSTRUCTED = 0`, whatever
its operands and whatever else the state holds, and CONSTRUCT never raises it. -/
def Obligations.NotConstructedUntilConstruct : Prop :=
  (∀ (i : Instr) (s : State), s.constructed = false → i.WellFormed = true → (∀ v sr, i ≠ .construct v sr) →
    ∃ t, exec i s = .next t ∧ Answered s t 3 0#64 ∧ t.statusFault = s.statusFault ||| 0x08#8 ∧ t.unit = s.unit ∧
      t.input = s.input) ∧
  (∀ (v sr : F32) (s t : State), exec (.construct v sr) s = .next t → ∀ d, ¬ Answered s t 3 d)

/-- `OperandNaN`, cause 5 (R238): the control operand of CONSTRUCT (either), SETVOWEL, SETLFO (either) or DYNCFG has
exponent all ones and a fraction other than zero: quiet or signalling, of either sign. -/
def Obligations.NaNControlOperandsAreRefused : Prop :=
  ∀ (s : State),
    let nan32 := fun a : F32 => a.extractLsb' 23 8 = 255#8 ∧ a.extractLsb' 0 23 ≠ 0#23
    let nan64 := fun x : F64 => x.extractLsb' 52 11 = 2047#11 ∧ x.extractLsb' 0 52 ≠ 0#52
    (∀ v sr, nan32 v ∨ nan32 sr → Refuses (exec (.construct v sr) s) s 5) ∧
    (s.constructed = true →
      (∀ v, nan32 v → Refuses (exec (.setVowel v) s) s 5) ∧
      (∀ rp d, nan32 rp ∨ nan32 d → Refuses (exec (.setLfo rp d) s) s 5) ∧
      (∀ sel x, sel.toNat ≤ 10 → nan64 x → Refuses (exec (.dynCfg sel x) s) s 5))

/-- `SampleNonFinite`, cause 6 (R239): PROCESS and DYNPROC refuse a sample with exponent all ones (a NaN or an infinity of
either sign) and no other sample. -/
def Obligations.NonFiniteSamplesAreRefused : Prop :=
  ∀ (s : State) (x : F64), s.constructed = true →
    (x.extractLsb' 52 11 = 2047#11 →
      Refuses (exec (.process x) s) s 6 ∧ Refuses (exec (.dynProc x) s) s 6) ∧
    (x.extractLsb' 52 11 ≠ 2047#11 →
      ∀ t, exec (.process x) s = .next t ∨ exec (.dynProc x) s = .next t → ∀ d, ¬ Answered s t 6 d)

/-- `ConfigError`, cause 4 (R237), once NaNs are refused: a sample rate that is negative, a zero or `+inf`; and for DYNCFG an
infinity, a `THR` that is negative or a zero, a `MODE` that is neither a zero nor 1. -/
def Obligations.MeaninglessConfigurationIsRefused : Prop :=
  ∀ (s : State),
    (∀ v sr : F32, isNaN32 v = false → isNaN32 sr = false → sr.msb = true ∨ sr = 0#32 ∨ sr = 0x7F800000#32 →
      Refuses (exec (.construct v sr) s) s 4) ∧
    (s.constructed = true → ∀ (sel : BitVec 8) (x : F64), sel.toNat ≤ 10 → isNaN x = false →
      x = 0x7FF0000000000000#64 ∨ x = 0xFFF0000000000000#64 ∨ (sel = 0#8 ∧ (x.msb = true ∨ x = 0#64)) ∨
        (sel = 10#8 ∧ x ≠ 0#64 ∧ x ≠ 0x8000000000000000#64 ∧ x ≠ 0x3FF0000000000000#64) →
      Refuses (exec (.dynCfg sel x) s) s 4)

/-- The worked examples of R233: the first failure in the order of the checks is reported. -/
def Obligations.PriorityOfFaults : Prop :=
  ∀ (s : State),
    (s.input = [.command 0x060B7FF8000000000000#80] → Refuses (step s) { s with input := [] } 2) ∧
    (s.constructed = false → s.input = [.command 0x06007FF8000000000000#80] →
      Refuses (step s) { s with input := [] } 3) ∧
    (s.constructed = true → s.input = [.command 0x06007FF8000000000000#80] →
      Refuses (step s) { s with input := [] } 5) ∧
    Refuses (exec (.construct 0x7FC00000#32 0xBF800000#32) s) s 5

/-! ## CONSTRUCT -/

/-- The state after a successful CONSTRUCT, item by item (R41); the live values of slot `s` are the words of `AMP` and
`FREQ` at `COEFFOFFSET + 9*s` (R64). -/
def Obligations.StateAfterConstruct : Prop :=
  ∀ (s : State) (v0 sr : F32), isNaN32 v0 = false → isNaN32 sr = false → flt fzero (widen sr) = true →
    isInf (widen sr) = false →
    ∃ t u, exec (.construct v0 sr) s = .next t ∧ t.unit = some u ∧ t.constructed = true ∧
      t.statusFault = s.statusFault ∧ t.input = s.input ∧ Answered s t 0 0#64 ∧
      u.vowel = fmin fone (fmax fzero (widen v0)) ∧ u.tempVowel = u.vowel ∧ u.hasLfo = false ∧ u.lfoDepth = 0#64 ∧
      u.lfoRange = 0#64 ∧ u.lfoMin = u.vowel ∧ u.lfoMax = u.vowel ∧ u.phase = 0#64 ∧ u.srate = widen sr ∧
      selectEntry u.tempVowel = .ok u.coeffOffset ∧ u.lphase = 0#64 ∧ u.lrate = machineParams.minLfoRate ∧
      (∀ sl, u.aval.get sl = ampTarget machineParams sl u.coeffOffset) ∧
      (∀ sl, u.fval.get sl = freqTarget machineParams sl u.coeffOffset) ∧
      (∀ sl : Fin 4, ∃ a : Fin 36, a.val = u.coeffOffset.val + 9 * sl.val ∧
        u.aval.get sl = machineParams.amp a ∧ u.fval.get sl = machineParams.freq a) ∧
      u.envs = { env := 0#64, env2 := 0#64, genv := 0#64 } ∧ u.dyn = machineParams.dynDefault ∧
      (∀ j i, j < 257 → i < 64 → u.tf.read (j + 257 * i) = generateFormant machineParams (entryPhase j) i)

/-- A CONSTRUCT of a constructed unit gives exactly the state a CONSTRUCT after reset gives, except that
`STATUS.FAULT` keeps its bits (R263). -/
def Obligations.ReconstructionStartsFromScratch : Prop :=
  ∀ (s : State) (v0 sr : F32), isNaN32 v0 = false → isNaN32 sr = false → flt fzero (widen sr) = true →
    isInf (widen sr) = false →
    ∃ t fresh, exec (.construct v0 sr) s = .next t ∧ exec (.construct v0 sr) State.reset = .next fresh ∧
      t.unit = fresh.unit ∧ t.unit ≠ none ∧ t.responses.head? = fresh.responses.head? ∧ t.statusFault = s.statusFault

/-! ## The table -/

/-- Every word of the table is what R122 writes there: `generateFormant`, which is the recurrence of R121 in every
row, of a phase that is exactly `-1 + j/128`; a `nat` converts exactly (R11). The canonical form of the memory is the
model's choice (log 7). -/
def Obligations.BuiltTableWords : Prop :=
  (∀ (p : Params) (j i : Nat), j < 257 → i < 64 →
    Table.read (buildTable p) (j + 257 * i) = generateFormant p (entryPhase j) i) ∧
  (∀ (p : Params) (phase : F64) (i : Nat),
    let width := natToF64 i
    let hmax := min (10 * i) 128
    let cosine := fun z : F64 => fadd fone (fmul (fmul z z) (fsub (fmul ftwo (fmul z z)) ffour))
    let hann := fun h : Nat => fadd fhalf (fmul fhalf (cosine (fdiv (natToF64 h) (natToF64 hmax))))
    let gauss := fun h : Nat => fadd
      (fmul (0x3FEB333333333333#64)
        (p.num.exp (fneg (fdiv (fmul (natToF64 h) (natToF64 h)) (fmul width width)))))
      (0x3FC3333333333333#64)
    ∃ a phi : Nat → F64, a 0 = fhalf ∧ phi 0 = fzero ∧
      (∀ h, phi (h + 1) = fadd (phi h) (fmul p.pi phase)) ∧
      (∀ h, a (h + 1) = fadd (a h) (fmul (fmul (hann (h + 1)) (gauss (h + 1))) (p.num.cos (phi (h + 1))))) ∧
      generateFormant p phase i = a (hmax - 1)) ∧
  (∀ j : Nat, j < 257 → isFinite (entryPhase j) = true ∧ 128 * fval (entryPhase j) = ((j : Int) - 128) * fval fone) ∧
  (∀ n : Nat, n ≤ 16448 → isFinite (natToF64 n) = true ∧ fval (natToF64 n) = n * fval fone) ∧
  (∀ p : Params, Table.wf (buildTable p) = true)

/-- Wrap continuity (R123): in every row, entry 256 equals entry 0, given `P-cos-even`, for every finite `PI`. -/
def Obligations.TableWrapsContinuously : Prop :=
  ∀ p : Params, CosEven p.num → isFinite p.pi = true → ∀ i : Nat, i < 64 →
    Table.read (buildTable p) (256 + 257 * i) = Table.read (buildTable p) (0 + 257 * i)

/-- Row 0 is 0.5 throughout, and in a lawful configuration with a `PI` between -4 and 4 no word of the table is a
NaN, an infinity or `-0` (R124, R127). -/
def Obligations.TableWordsAreFinite : Prop :=
  (∀ (p : Params) (j : Nat), j < 257 → Table.read (buildTable p) j = 0x3FE0000000000000#64) ∧
  (∀ p : Params, LawfulParams p → fle (fabs p.pi) ffour = true → ∀ a : Nat, a < tableWords →
    isFinite (Table.read (buildTable p) a) = true ∧ Table.read (buildTable p) a ≠ 0x8000000000000000#64)

/-- The lookup is exact at grid points (R127), for finite words whose differences are finite and a first word other
than `-0`. -/
def Obligations.LookupIsExactAtGridPoints : Prop :=
  ∀ (tf : Table) (j i : Nat), j ≤ 256 → i ≤ 62 → ¬ (j = 256 ∧ i = 62) →
    isFinite (tf.read (j + 257 * i)) = true → tf.read (j + 257 * i) ≠ 0x8000000000000000#64 →
    isFinite (tf.read (j + 257 * (i + 1))) = true →
    isFinite (fsub (tf.read (j + 1 + 257 * i)) (tf.read (j + 257 * i))) = true →
    isFinite (fsub (tf.read (j + 1 + 257 * (i + 1))) (tf.read (j + 257 * (i + 1)))) = true →
    getFormant tf (entryPhase j) (natToF64 i) = .ok (tf.read (j + 257 * i))

/-- When the lookup raises `TableBounds`, and the value it gives otherwise (R125, R126, R240): the bilinear
interpolation between four words, at the integer parts of the row coordinate `P` and of the clamped width.
`0x3FEFFFFFFFFFFFFF` is `1 - 2^-53`, the least phase that reaches column 256. -/
def Obligations.LookupBounds : Prop :=
  ∀ (tf : Table) (phase w : F64),
    let inside := fle (fneg fone) phase = true ∧ fle phase fone = true
    let atEnd := fle (0x3FEFFFFFFFFFFFFF#64) phase = true
    (¬ inside → getFormant tf phase w = .error .tableBounds) ∧
    (inside ∧ isNaN w = true → getFormant tf phase w = .error .tableBounds) ∧
    (inside ∧ isNaN w = false ∧ atEnd ∧ fle fsixtyTwo w = true → getFormant tf phase w = .error .tableBounds) ∧
    (inside ∧ isNaN w = false ∧ ¬ (atEnd ∧ fle fsixtyTwo w = true) →
      let row := fmul (fmul f256 (fadd phase fone)) fhalf
      let width := if flt w fzero then fzero else if flt fsixtyTwo w then fsixtyTwo else w
      ∃ j i : Nat, j ≤ 256 ∧ i ≤ 62 ∧ j + 257 * i + 258 < 16448 ∧
        (j : Int) * fval fone ≤ fval row ∧ fval row < ((j : Int) + 1) * fval fone ∧
        (i : Int) * fval fone ≤ fval width ∧ fval width < ((i : Int) + 1) * fval fone ∧
        (let fP := fsub row (natToF64 j)
         let fI := fsub width (natToF64 i)
         let t00 := tf.read (j + 257 * i)
         let t01 := tf.read (j + 257 * i + 1)
         let t10 := tf.read (j + 257 * i + 257)
         let t11 := tf.read (j + 257 * i + 258)
         getFormant tf phase w = .ok
          (fadd (fmul (fsub fone fI) (fadd t00 (fmul fP (fsub t01 t00))))
            (fmul fI (fadd t10 (fmul fP (fsub t11 t10)))))))

/-- `fast_cos` is even, and has the corner values of R120. -/
def Obligations.FastCosCorners : Prop :=
  (∀ x : F64, isNaN x = false → fastCos (fneg x) = fastCos x) ∧ (∀ x : F64, isNaN x = true → isNaN (fastCos x) = true) ∧
  fastCos fzero = fone ∧ fastCos fone = fneg fone ∧ fastCos (fneg fone) = fneg fone ∧
  fastCos fhalf = 0x3FC0000000000000#64 ∧ fastCos (0x3FD0000000000000#64) = 0x3FE8400000000000#64

/-! ## The LFO -/

/-- `LPHASE` is advanced by every successful PROCESS, whatever `HASLFO` is, zeroed by a successful CONSTRUCT, and
touched by nothing else (R140). -/
def Obligations.LfoPhaseMovesOnlyInProcess : Prop :=
  ∀ (i : Instr) (s t : State) (u u' : UnitRegs), s.unit = some u → exec i s = .next t → t.unit = some u' →
    u'.lphase =
      if responseCause (t.responses.headD 0#72) = 0#8 then
        match i with
        | .construct _ _ => 0#64
        | .process _ =>
          if fle fone (fadd u.lphase (fdiv u.lrate u.srate)) then fsub (fadd u.lphase (fdiv u.lrate u.srate)) fone
          else fadd u.lphase (fdiv u.lrate u.srate)
        | .setVowel _ => u.lphase
        | .getVowel => u.lphase
        | .setLfo _ _ => u.lphase
        | .dynCfg _ _ => u.lphase
        | .dynProc _ => u.lphase
      else u.lphase

/-- `0 <= LPHASE < 1` after every `LFO.peek`, provided `0 <= LRATE / SRATE < 1` and it held before (R145). -/
def Obligations.LfoPhaseBound : Prop :=
  ∀ (p : Params) (S : Nat) (u : Regs S), fle fzero u.lphase = true → flt u.lphase fone = true →
    fle fzero (fdiv u.lrate u.srate) = true → flt (fdiv u.lrate u.srate) fone = true →
    fle fzero (lfoPeek p u).2.lphase = true ∧ flt (lfoPeek p u).2.lphase fone = true

/-- The bounds `cacheLFO` gives (R27, R160): `0 <= LFORANGE <= 1` and `0 <= LFOMIN <= VOWEL <= LFOMAX <= 1`; and with
the LFO off, or a depth of `+0`, they collapse to the vowel exactly. -/
def Obligations.LfoBounds : Prop :=
  (∀ (S : Nat) (u : Regs S), inUnit u.vowel = true → inUnit u.lfoDepth = true →
    inUnit (cacheLfo u).lfoRange = true ∧ inUnit (cacheLfo u).lfoMin = true ∧ inUnit (cacheLfo u).lfoMax = true ∧
    fle (cacheLfo u).lfoMin u.vowel = true ∧ fle u.vowel (cacheLfo u).lfoMax = true) ∧
  (∀ (S : Nat) (u : Regs S), inUnit u.vowel = true → u.vowel ≠ 0x8000000000000000#64 → u.hasLfo = false ∨ u.lfoDepth = 0#64 →
    (cacheLfo u).lfoRange = 0#64 ∧ (cacheLfo u).lfoMin = u.vowel ∧ (cacheLfo u).lfoMax = u.vowel)

/-! ## The coefficient bank -/

/-- `cacheCoeffOffset` (R152): entry `k` is selected for `k/8 <= TEMPVOWEL < (k+1)/8`, so entry 8 only for 1, and
no other register changes. -/
def Obligations.EntrySelection : Prop :=
  ∀ (S : Nat) (u : Regs S), inUnit u.tempVowel = true → ∃ k : Fin 9, cacheCoeffOffset u = .ok { u with coeffOffset := k } ∧
    (k.val : Int) * fval fone ≤ 8 * fval u.tempVowel ∧ 8 * fval u.tempVowel < ((k.val : Int) + 1) * fval fone ∧
    (k.val = 8 ↔ u.tempVowel = fone)

/-- Smoothing moves a live value toward its target and never past it (R153, R154); a live value at its target stays
there. -/
def Obligations.SmoothingStaysBetween : Prop :=
  (∀ v t : F64, isFinite v = true → isFinite t = true → isFinite (fsub t v) = true →
    (fle v t = true → fle v (smoothed machineParams v t) = true ∧ fle (smoothed machineParams v t) t = true) ∧
    (fle t v = true → fle t (smoothed machineParams v t) = true ∧ fle (smoothed machineParams v t) v = true)) ∧
  (∀ v : F64, isFinite v = true → v ≠ 0x8000000000000000#64 → smoothed machineParams v v = v)

/-! ## The carrier -/

/-- `12 <= f0 <= 192` for a working vowel in `[0, 1]`, and the exact values at the quarters (R162). -/
def Obligations.CarrierFrequencyRange : Prop :=
  (∀ t : F64, inUnit t = true → fle ftwelve (carrierFreq machineParams t) = true ∧
    fle (carrierFreq machineParams t) (0x4068000000000000#64) = true) ∧
  carrierFreq machineParams fzero = 0x4068000000000000#64 ∧
  carrierFreq machineParams (0x3FD0000000000000#64) = 0x4058000000000000#64 ∧
  carrierFreq machineParams fhalf = 0x4048000000000000#64 ∧
  carrierFreq machineParams (0x3FE8000000000000#64) = 0x4038000000000000#64 ∧
  carrierFreq machineParams fone = 0x4028000000000000#64

/-- The carrier phase stays in `(-1, 1]` for `SRATE >= 192` and `12 <= f0 <= 192` (R175, R185). -/
def Obligations.CarrierPhaseBound : Prop :=
  ∀ f0 srate phase : F64, fle ftwelve f0 = true → fle f0 (0x4068000000000000#64) = true → isFinite srate = true →
    fle (0x4068000000000000#64) srate = true → PhaseLegal phase → PhaseLegal (nextPhase f0 srate phase)

/-- The exact operations of R12, on values counted in units of 2^-1074 (`oneUnits` of them are 1): `abs`; `floor`, the
greatest integral value not above a finite operand; `toNat`; `fmod`, exactly `x - n*y` for `n` the truncated quotient, with
the sign of `x`; the comparisons, false with a NaN; `min` and `max`. Then what they are for: the wrapped phase of a
harmonic is in `[-1, 1)`, inside the domain of `fast_cos`, for `-1 <= p <= 1` and `0 <= n <= 1001` (R163, R267). -/
def Obligations.HarmonicPhaseWraps : Prop :=
  (∀ x : F64, fabs x = 0#1 ++ x.extractLsb' 0 63) ∧
  (∀ x : F64, isFinite x = true →
    isFinite (ffloor x) = true ∧
    ∃ m : Int, fval (ffloor x) = m * oneUnits ∧ m * oneUnits ≤ fval x ∧ fval x < (m + 1) * oneUnits) ∧
  (∀ x : F64, isFinite x = true → 0 ≤ fval x →
    ∃ n : Nat, toNatOrBounds x = .ok n ∧ (n : Int) * oneUnits ≤ fval x ∧ fval x < ((n : Int) + 1) * oneUnits) ∧
  (∀ x : F64, isFinite x = false ∨ fval x < 0 → toNatOrBounds x = .error .tableBounds) ∧
  (∀ x y : F64, isFinite x = true → isFinite y = true → isZero y = false →
    isFinite (ffmod x y) = true ∧ fval (ffmod x y) = fval x - (fval x).tdiv (fval y) * fval y ∧
    fsign (ffmod x y) = fsign x ∧ |fval (ffmod x y)| < |fval y|) ∧
  (∀ x y : F64, isNaN x = true ∨ isNaN y = true → flt x y = false ∧ fle x y = false ∧ feq x y = false) ∧
  (∀ x y : F64, isFinite x = true → isFinite y = true →
    flt x y = decide (fval x < fval y) ∧ fle x y = decide (fval x ≤ fval y) ∧ feq x y = decide (fval x = fval y)) ∧
  (∀ x y : F64, isInf x = true → isNaN y = false →
    flt x y = (fsign x && decide (y ≠ x)) ∧ fle x y = (fsign x || decide (y = x)) ∧ feq x y = decide (y = x) ∧
    flt y x = (!fsign x && decide (y ≠ x)) ∧ fle y x = (!fsign x || decide (y = x)) ∧ feq y x = decide (y = x)) ∧
  (∀ a b : F64, fmin a b = (if flt b a then b else a) ∧ fmax a b = (if flt a b then b else a)) ∧
  (∀ p n : F64, harmonicPhase p n = fsub (ffmod (fadd (fadd (fmul p n) fone) (0x408F400000000000#64)) ftwo) fone) ∧
  (∀ p n : F64, fle (fneg fone) p = true → fle p fone = true → fle fzero n = true →
    fle n (0x408F480000000000#64) = true →
    fle (fneg fone) (harmonicPhase p n) = true ∧ flt (harmonicPhase p n) fone = true)

/-! ## GETVOWEL, SETVOWEL, SETLFO -/

/-- GETVOWEL on a constructed unit returns `narrow(VOWEL)` in `DATA[63:32]` and changes nothing (R182). -/
def Obligations.GetVowelAnswersTheVowel : Prop :=
  ∀ (s : State) (u : UnitRegs), s.unit = some u →
    exec .getVowel s = .next { s with responses := responseWord 0 (narrow u.vowel ++ 0#32) :: s.responses }

/-- GETVOWEL after SETVOWEL returns the operand's bits, clamped to `[0, 1]` (R182, R184): `+0` for every operand with
the sign bit set, 1.0 for every one from 1.0 up. -/
def Obligations.GetVowelAfterSetVowel : Prop :=
  ∀ (s : State) (u : UnitRegs) (v : F32), s.unit = some u → (u.hasLfo = true → inUnit u.lfoDepth = true) →
    isNaN32 v = false →
    ∃ t t', exec (.setVowel v) s = .next t ∧ Answered s t 0 0#64 ∧ exec .getVowel t = .next t' ∧
      Answered t t' 0
        ((if v.msb then 0#32 else if 0x3F800000 ≤ v.toNat then 0x3F800000#32 else v) ++ 0#32)

/-- SETVOWEL with the LFO off: the whole next state (R181). -/
def Obligations.SetVowelWithoutLfo : Prop :=
  ∀ (s : State) (u : UnitRegs) (a : F32), s.unit = some u → u.hasLfo = false → isNaN32 a = false →
    let v := fmin fone (fmax fzero (widen a))
    ∃ k, selectEntry v = .ok k ∧
      exec (.setVowel a) s = .next
        { s with
          responses := responseWord 0 0#64 :: s.responses
          unit := some
            { u with vowel := v, tempVowel := v, lfoRange := 0#64, lfoMin := v, lfoMax := v, coeffOffset := k } }

/-- SETVOWEL with the LFO on: the whole next state (R181). -/
def Obligations.SetVowelWithLfo : Prop :=
  ∀ (s : State) (u : UnitRegs) (a : F32), s.unit = some u → u.hasLfo = true → inUnit u.lfoDepth = true →
    isNaN32 a = false →
    let v := fmin fone (fmax fzero (widen a))
    let range := fmul v u.lfoDepth
    let hi := fmin fone (fadd v (fdiv range ftwo))
    let lo := fmax fzero (fsub v (fdiv range ftwo))
    let ratio := fdiv u.tempVowel (fmax u.vowel divFloor)
    let t := fmin hi (fmax lo (fmul v ratio))
    ∃ k, selectEntry t = .ok k ∧
      exec (.setVowel a) s = .next
        { s with
          responses := responseWord 0 0#64 :: s.responses
          unit := some
            { u with vowel := v, tempVowel := t, lfoRange := range, lfoMin := lo, lfoMax := hi, coeffOffset := k } }

/-- SETLFO with the enabled state and the depth as before writes the rate alone: the whole next state (R183). -/
def Obligations.SetLfoUnchanged : Prop :=
  ∀ (s : State) (u : UnitRegs) (rp d : F32), s.unit = some u → isNaN32 rp = false → isNaN32 d = false →
    let r := fmin fone (fmax fzero (widen rp))
    u.hasLfo = flt fzero r → feq (fmin fone (fmax fzero (widen d))) u.lfoDepth = true →
    exec (.setLfo rp d) s = .next
      { s with
        responses := responseWord 0 0#64 :: s.responses
        unit := some
          { u with lrate := fadd machineParams.minLfoRate
                              (fmul r (fsub machineParams.maxLfoRate machineParams.minLfoRate)) } }

/-- SETLFO with a new enabled state or depth: the whole next state (R183). -/
def Obligations.SetLfoChanged : Prop :=
  ∀ (s : State) (u : UnitRegs) (rp d : F32), s.unit = some u → inUnit u.vowel = true → isNaN32 rp = false →
    isNaN32 d = false →
    let r := fmin fone (fmax fzero (widen rp))
    let depth := fmin fone (fmax fzero (widen d))
    let on := flt fzero r
    let range := fmul u.vowel (if on then depth else fzero)
    let hi := fmin fone (fadd u.vowel (fdiv range ftwo))
    let lo := fmax fzero (fsub u.vowel (fdiv range ftwo))
    let t := if on then fmin hi (fmax lo u.tempVowel) else u.vowel
    u.hasLfo ≠ on ∨ feq depth u.lfoDepth = false →
    ∃ k, selectEntry t = .ok k ∧
      exec (.setLfo rp d) s = .next
        { s with
          responses := responseWord 0 0#64 :: s.responses
          unit := some
            { u with
              hasLfo := on, lfoDepth := depth, lfoRange := range, lfoMin := lo, lfoMax := hi, tempVowel := t
              coeffOffset := k
              lrate := fadd machineParams.minLfoRate
                         (fmul r (fsub machineParams.maxLfoRate machineParams.minLfoRate)) } }

/-- LFOOFF, which is SETLFO with a rate of 0 (R100 (c)), leaves the LFO off, the rate at `MIN_LFO_RATE` and the
working vowel at the base vowel (R183 (a)). -/
def Obligations.LfoOffTracksTheVowel : Prop :=
  ∀ (s : State) (u : UnitRegs) (d : F32), s.unit = some u → VowelLegal u → isNaN32 d = false →
    ∃ t u', exec (lfoOff d) s = .next t ∧ Answered s t 0 0#64 ∧ t.unit = some u' ∧ u'.hasLfo = false ∧
      u'.lrate = machineParams.minLfoRate ∧ u'.tempVowel = u.vowel ∧ u'.lphase = u.lphase

/-! ## PROCESS -/

/-- PROCESS completes, with this next state (R163, R171 to R180), the crossfaded carrier of R163 written out: for a finite sample, a working vowel in `[0, 1]` after
step 1, and a carrier phase in `[-1, 1]` after step 4 which is below `1 - 2^-53` or meets no width of 62 or more. -/
def Obligations.ProcessCompletes : Prop :=
  ∀ (s : State) (u : UnitRegs) (x : F64), s.unit = some u → isFinite x = true →
    let lphase := fadd u.lphase (fdiv u.lrate u.srate)
    let sweep := fmul (fadd (machineParams.lfoWave u.lphase) fone) fhalf
    let t := if u.hasLfo then fmin u.lfoMax (fadd u.lfoMin (fmul u.lfoRange sweep)) else u.tempVowel
    let f0 := fmul ftwelve (machineParams.num.pow2 (fsub ffour (fmul ffour t)))
    let invf0 := fdiv fone f0
    let moved := fadd u.phase (fdiv f0 (fdiv u.srate ftwo))
    let phase := if flt fone moved then fsub moved ftwo else moved
    let width := fun sl : Fin 4 => fmul (machineParams.widthScale sl) invf0
    let cosine := fun z : F64 => fadd fone (fmul (fmul z z) (fsub (fmul ftwo (fmul z z)) ffour))
    let wrapped := fun n : F64 => fsub (ffmod (fadd (fadd (fmul phase n) fone) (0x408F400000000000#64)) ftwo) fone
    let carrier := fun h : F64 =>
      fadd (cosine (wrapped (ffloor h)))
        (fmul (fsub h (ffloor h)) (fsub (cosine (wrapped (fadd (ffloor h) fone))) (cosine (wrapped (ffloor h)))))
    inUnit t = true → fle (fneg fone) phase = true → fle phase fone = true →
    flt phase (0x3FEFFFFFFFFFFFFF#64) = true ∨ (∀ sl, flt (width sl) fsixtyTwo = true) →
    ∃ (k : Fin entries) (formant : Fin 4 → F64), selectEntry t = .ok k ∧
      (∀ sl, getFormant u.tf phase (width sl) = .ok (formant sl)) ∧
      (let amp := fun sl => fadd (u.aval.get sl)
        (fmul machineParams.atten (fsub (ampTarget machineParams sl k) (u.aval.get sl)))
       let freq := fun sl => fadd (u.fval.get sl)
        (fmul machineParams.atten (fsub (freqTarget machineParams sl k) (u.fval.get sl)))
       let term := fun sl => fmul (fmul (fmul (fmul (amp sl) (fdiv f0 (freq sl))) x) (formant sl))
        (carrier (fmul (freq sl) invf0))
       let out := fadd (fadd (fadd (fadd fzero (term 0)) (term 1)) (term 2)) (term 3)
       exec (.process x) s = .next
        { s with
          responses := responseWord 0 (dyn u.dyn u.envs out).1 :: s.responses
          unit := some
            { u with
              lphase := if fle fone lphase then fsub lphase fone else lphase
              tempVowel := t, coeffOffset := k, phase := phase
              aval := #v[amp 0, amp 1, amp 2, amp 3], fval := #v[freq 0, freq 1, freq 2, freq 3]
              envs := (dyn u.dyn u.envs out).2 } })

/-- PROCESS at the table bound, in every lawful configuration with table-based shaping on (R177, R240, R264), for a
finite sample and a working vowel in `[0, 1]` after step 1: `TableBounds` when the carrier phase leaves `[-1, 1]`, or
reaches column 256 with a width of 62 or more; new registers and an output when it reaches column 256 with smaller
widths. And what `TableBounds` leaves: the cause, its sticky bit, nothing committed (R180). -/
def Obligations.ProcessAtTheTableBound : Prop :=
  (∀ (p : Params) (u : Regs p.slotCount) (x : F64), LawfulParams p → p.synthMode = true → isFinite x = true →
    let sweep := fmul (fadd (p.lfoWave u.lphase) fone) fhalf
    let t := if u.hasLfo then fmin u.lfoMax (fadd u.lfoMin (fmul u.lfoRange sweep)) else u.tempVowel
    let f0 := fmul ftwelve (p.num.pow2 (fsub ffour (fmul ffour t)))
    let phase := nextPhase f0 u.srate u.phase
    let width := fun sl : Fin p.slotCount => fmul (p.widthScale sl) (fdiv fone f0)
    let inside := fle (fneg fone) phase = true ∧ fle phase fone = true
    let atEnd := fle (0x3FEFFFFFFFFFFFFF#64) phase = true
    inUnit t = true →
    (¬ inside → processRegs p x u = .error .tableBounds) ∧
    (inside ∧ atEnd ∧ (∃ sl, fle fsixtyTwo (width sl) = true) → processRegs p x u = .error .tableBounds) ∧
    (inside ∧ atEnd ∧ (∀ sl, flt (width sl) fsixtyTwo = true) → ∃ u' y, processRegs p x u = .ok (u', y))) ∧
  (∀ (s : State) (u : UnitRegs) (x : F64), s.unit = some u → processRegs machineParams x u = .error .tableBounds →
    ∃ t, exec (.process x) s = .next t ∧ Answered s t 7 0#64 ∧ t.unit = s.unit ∧
      t.statusFault = s.statusFault ||| 0x80#8 ∧ t.input = s.input)

/-- Steps 1 to 6 in every configuration (R5, R150, R171 to R179), whatever its number of slots and whether table-based
shaping is on: for a finite sample, a working vowel that selects an entry after step 1, and a formant for every slot
(1 where shaping is off), PROCESS gives these registers and this output. The targets of slot `s` and entry `k` are the
words of `AMP` and `FREQ` at address `k + 9*s` (R64). -/
def Obligations.ProcessForEverySlotCount : Prop :=
  (∀ (p : Params) (sl : Fin p.slotCount) (k : Fin 9), ∃ a : Fin (p.slotCount * 9), a.val = k.val + 9 * sl.val ∧
    ampTarget p sl k = p.amp a ∧ freqTarget p sl k = p.freq a) ∧
  ∀ (p : Params) (u : Regs p.slotCount) (x : F64) (k : Fin entries) (formant : Fin p.slotCount → F64),
    isFinite x = true →
    let lphase := fadd u.lphase (fdiv u.lrate u.srate)
    let sweep := fmul (fadd (p.lfoWave u.lphase) fone) fhalf
    let t := if u.hasLfo then fmin u.lfoMax (fadd u.lfoMin (fmul u.lfoRange sweep)) else u.tempVowel
    let f0 := fmul ftwelve (p.num.pow2 (fsub ffour (fmul ffour t)))
    let invf0 := fdiv fone f0
    let moved := fadd u.phase (fdiv f0 (fdiv u.srate ftwo))
    let phase := if flt fone moved then fsub moved ftwo else moved
    selectEntry t = .ok k →
    (p.synthMode = true → ∀ sl, getFormant u.tf phase (fmul (p.widthScale sl) invf0) = .ok (formant sl)) →
    (p.synthMode = false → ∀ sl, formant sl = fone) →
    let amp := fun sl => fadd (u.aval.get sl) (fmul p.atten (fsub (ampTarget p sl k) (u.aval.get sl)))
    let freq := fun sl => fadd (u.fval.get sl) (fmul p.atten (fsub (freqTarget p sl k) (u.fval.get sl)))
    let term := fun sl => fmul (fmul (fmul (fmul (amp sl) (fdiv f0 (freq sl))) x) (formant sl))
      (getCarrier (fmul (freq sl) invf0) phase)
    let out := (List.finRange p.slotCount).foldl (fun sum sl => fadd sum (term sl)) fzero
    processRegs p x u = .ok
      ({ u with
          lphase := if fle fone lphase then fsub lphase fone else lphase
          tempVowel := t, coeffOffset := k, phase := phase
          aval := Vector.ofFn amp, fval := Vector.ofFn freq
          envs := (dyn u.dyn u.envs out).2 }, (dyn u.dyn u.envs out).1)

/-- Depth 0 pins the working vowel (R186): in a state with legal vowel registers (`VowelLegal`) and the LFO off or its
depth 0, PROCESS leaves `TEMPVOWEL` equal to `VOWEL`, unless it faults and changes no register. -/
def Obligations.DepthZeroPinsTheWorkingVowel : Prop :=
  ∀ (s : State) (u : UnitRegs) (x : F64), s.unit = some u → VowelLegal u → u.hasLfo = false ∨ u.lfoDepth = 0#64 →
    ∃ t u', exec (.process x) s = .next t ∧ t.unit = some u' ∧ u'.vowel = u.vowel ∧
      ((u'.tempVowel = u.vowel ∧ ∃ y, Answered s t 0 y) ∨ (u' = u ∧ ∃ c, c ≠ 0 ∧ c ≤ 7 ∧ Answered s t c 0#64))

/-! ## The dynamics processor -/

/-- DYNCFG accepts every other finite value and writes the one register selected: the whole next state (R95, R210). -/
def Obligations.DynCfgWritesOneRegister : Prop :=
  ∀ (s : State) (u : UnitRegs) (sel : BitVec 8) (x : F64), s.unit = some u → sel.toNat ≤ 10 → isFinite x = true →
    (sel = 0#8 → flt fzero x = true) → (sel = 10#8 → x = 0#64 ∨ x = 0x8000000000000000#64 ∨ x = fone) →
    ∃ d, exec (.dynCfg sel x) s = .next
        { s with responses := responseWord 0 0#64 :: s.responses, unit := some { u with dyn := d } } ∧
      (sel = 0#8 → d = { u.dyn with thr := x }) ∧ (sel = 1#8 → d = { u.dyn with rat := x }) ∧
      (sel = 2#8 → d = { u.dyn with trim := x }) ∧ (sel = 3#8 → d = { u.dyn with att := x }) ∧
      (sel = 4#8 → d = { u.dyn with rel := x }) ∧ (sel = 5#8 → d = { u.dyn with lthr := x }) ∧
      (sel = 6#8 → d = { u.dyn with xthr := x }) ∧ (sel = 7#8 → d = { u.dyn with gatt := x }) ∧
      (sel = 8#8 → d = { u.dyn with xrat := x }) ∧ (sel = 9#8 → d = { u.dyn with dry := x }) ∧
      (sel = 10#8 → d = { u.dyn with mode := decide (x = fone) })

/-- DYNPROC on a finite sample: the whole next state; and `Dyn`, for every sample, written out as R209 has it (R209,
R211). -/
def Obligations.DynProcCompletes : Prop :=
  (∀ (s : State) (u : UnitRegs) (x : F64), s.unit = some u → isFinite x = true →
    exec (.dynProc x) s = .next
      { s with
        responses := responseWord 0 (dyn u.dyn u.envs x).1 :: s.responses
        unit := some { u with envs := (dyn u.dyn u.envs x).2 } }) ∧
  (∀ (c : DynRegs) (e : Envelopes) (x : F64),
    let i := fabs x
    let env := if flt e.env i then fadd e.env (fmul c.att (fsub i e.env)) else fmul e.env (fsub fone c.rel)
    let g := if flt c.thr env then fdiv c.trim (fadd fone (fmul c.rat (fsub (fdiv env c.thr) fone))) else c.trim
    let env2 := if flt env i then i else fmul e.env2 (fsub fone c.rel)
    let g2 := if flt fzero c.lthr = true ∧ flt c.lthr (fmul g env2) = true then fdiv c.lthr env2 else g
    let genv := if flt c.xthr env then fadd e.genv (fmul c.gatt (fsub fone e.genv)) else fmul e.genv c.xrat
    let flushed := fun v : F64 => if flt (fabs v) (0x3DDB7CDFD9D7BDBB#64) then 0#64 else v
    (c.mode = false → dyn c e x =
      (fmul x (fadd g c.dry), { env := flushed env, env2 := flushed e.env2, genv := flushed e.genv })) ∧
    (c.mode = true → dyn c e x =
      (fmul x (fadd (fmul g2 genv) c.dry), { env := flushed env, env2 := flushed env2, genv := flushed genv })))

/-- `Dyn(-x)` has the envelopes of `Dyn(x)` and the negated output (R213 (d)). -/
def Obligations.DynIsOdd : Prop :=
  ∀ (c : DynRegs) (e : Envelopes) (x : F64), (dyn c e (fneg x)).2 = (dyn c e x).2 ∧
    (isNaN (dyn c e x).1 = false → (dyn c e (fneg x)).1 = fneg (dyn c e x).1)

/-- With a zero input the envelope decays by `1 - REL` and is then flushed (R213 (b)), and a sample of zero gives a
zero in both modes for a finite gain (R213 (c)). -/
def Obligations.SilenceDecays : Prop :=
  ∀ (c : DynRegs) (e : Envelopes) (x : F64), isZero x = true →
    (fle fzero e.env = true → (dyn c e x).2.env = flush (fmul e.env (fsub fone c.rel))) ∧
    (c.mode = false → isFinite (fadd (stageG c (stageE c (fabs x) e.env)) c.dry) = true →
      isZero (dyn c e x).1 = true) ∧
    (c.mode = true →
      let env := stageE c (fabs x) e.env
      isFinite (fadd (fmul (stageL c (stageG c env) (stageE2 c (fabs x) env e.env2)) (stageX c env e.genv)) c.dry) = true →
      isZero (dyn c e x).1 = true)

/-- In the ranges of R271 the envelopes stay finite and non-negative, the gate envelope in `[0, 1]`, and each is `+0` or
at least `1e-10` (R35, R201, R204, R206, R208), so the statement applies to the next sample. `ENV` does not pass the larger
of the old `ENV` and `abs(x)` for `ATT` below 1. For an `ATT` of exactly 1 the two roundings of R201's formula can carry it
one word past that (log 18), and past the greatest finite word only from a sample of that magnitude. -/
def Obligations.EnvelopesStayInRange : Prop :=
  ∀ (c : DynRegs) (e : Envelopes) (x : F64), DynSafe c → isFinite x = true → isNonNegative e.env = true →
    isNonNegative e.env2 = true → inUnit e.genv = true →
    let env := (dyn c e x).2.env
    fle fzero env = true ∧
    (flt c.att fone = true → fle env (fmax e.env (fabs x)) = true) ∧
    fbits env ≤ fbits (fmax e.env (fabs x)) + 1 ∧
    (flt c.att fone = true ∨ fabs x ≠ 0x7FEFFFFFFFFFFFFF#64 → isNonNegative env = true) ∧
    isNonNegative (dyn c e x).2.env2 = true ∧ inUnit (dyn c e x).2.genv = true ∧
    Flushed env ∧ Flushed (dyn c e x).2.env2 ∧ Flushed (dyn c e x).2.genv

/-! ## Which command writes what -/

/-- The `w` marks of R42: every register and table word that a command's column does not mark is unchanged by it, and
the step leaves the host's later input alone. -/
def Obligations.EachCommandWritesOnlyItsRegisters : Prop :=
  ∀ (i : Instr) (s t : State) (u u' : UnitRegs), s.unit = some u → exec i s = .next t → t.unit = some u' →
    t.input = s.input ∧
    ((∃ v sr, i = .construct v sr) ∨ ∀ a : Nat, t.tableWord a = s.tableWord a) ∧
    match i with
    | .construct _ _ => True
    | .setVowel _ =>
      u' = { u with
             vowel := u'.vowel, tempVowel := u'.tempVowel, lfoRange := u'.lfoRange, lfoMin := u'.lfoMin
             lfoMax := u'.lfoMax, coeffOffset := u'.coeffOffset }
    | .getVowel => u' = u
    | .setLfo _ _ =>
      u' = { u with
             tempVowel := u'.tempVowel, hasLfo := u'.hasLfo, lfoDepth := u'.lfoDepth, lfoRange := u'.lfoRange
             lfoMin := u'.lfoMin, lfoMax := u'.lfoMax, coeffOffset := u'.coeffOffset, lrate := u'.lrate }
    | .process _ =>
      u' = { u with
             tempVowel := u'.tempVowel, phase := u'.phase, coeffOffset := u'.coeffOffset, lphase := u'.lphase
             aval := u'.aval, fval := u'.fval, envs := u'.envs } ∧
      (u.hasLfo = false → u'.tempVowel = u.tempVowel)
    | .dynCfg _ _ => u' = { u with dyn := u'.dyn }
    | .dynProc _ => u' = { u with envs := u'.envs }

/-! ## Invariants that every step keeps -/

/-- The table is what `buildTable` wrote, the envelopes are flushed and the dynamics registers are values DYNCFG
accepts (R36, R38 (b), R68). -/
def Obligations.StepKeepsStorageLegal : Prop :=
  ∀ s t : State, s.holds StorageLegal → step s = .next t → t.holds StorageLegal

/-- The vowel registers stay legal (R23, R24, R26, R27, R30, R38 (c) and (e), R184). -/
def Obligations.StepKeepsVowelLegal : Prop :=
  ∀ s t : State, s.holds VowelLegal → step s = .next t → t.holds VowelLegal

/-- The carrier phase stays in `(-1, 1]` on every unit with a sample rate of at least 192 (R28, R38 (a), R185, R265). -/
def Obligations.StepKeepsCarrierLegal : Prop :=
  ∀ s t : State, s.holds CarrierLegal → step s = .next t → t.holds CarrierLegal

/-- The LFO phase stays in `[0, 1)` and the working vowel between its bounds on every unit whose sample rate exceeds
every LFO rate (R31, R38 (a) and (c), R145, R266). -/
def Obligations.StepKeepsSweepLegal : Prop :=
  ∀ s t : State, s.holds SweepLegal → step s = .next t → t.holds SweepLegal

/-- Every live frequency stays finite and above zero (R34, R154). -/
def Obligations.StepKeepsLiveFrequenciesPositive : Prop :=
  ∀ s t : State, s.holds LiveFrequenciesPositive → step s = .next t → t.holds LiveFrequenciesPositive

/-! ## Arithmetic -/

/-- A finite word's value is that of its fields (R7), and the four operations (R10). On finite operands the result is the exact one rounded to nearest, ties to even, or an
infinity from the overflow threshold up; values are counted in units of 2^-1074, and `oneUnits` of them are 1. With
a NaN, an infinity or a zero, the result is what IEEE 754 says; so is the sign of a zero sum or difference (log 16). -/
def Obligations.ArithmeticIsNearest : Prop :=
  (∀ x : F64, isFinite x = true →
    let exponent := (x.extractLsb' 52 11).toNat
    let fraction := (x.extractLsb' 0 52).toNat
    fsign x = x.getLsbD 63 ∧
    fval x = (if x.getLsbD 63 then -1 else 1) *
      (if exponent = 0 then fraction else (2 ^ 52 + fraction) * 2 ^ (exponent - 1) : Nat)) ∧
  (∀ x y : F64, isFinite x = true → isFinite y = true →
    CorrectlyRounded (fadd x y) (fval x + fval y) 1 ∧ CorrectlyRounded (fsub x y) (fval x - fval y) 1 ∧
    CorrectlyRounded (fmul x y) (fval x * fval y) oneUnits ∧
    (isZero y = false → CorrectlyRounded (fdiv x y) (fval x * oneUnits * (fval y).sign) (fval y).natAbs) ∧
    (fval x + fval y = 0 → fsign (fadd x y) = (fsign x && fsign y)) ∧
    (fval x - fval y = 0 → fsign (fsub x y) = (fsign x && !fsign y)) ∧
    (isZero x = true ∨ isZero y = true → fsign (fmul x y) = (fsign x != fsign y)) ∧
    (isZero y = false → isZero x = true → fsign (fdiv x y) = (fsign x != fsign y))) ∧
  (∀ x y : F64, isNaN x = true ∨ isNaN y = true →
    isNaN (fadd x y) = true ∧ isNaN (fsub x y) = true ∧ isNaN (fmul x y) = true ∧ isNaN (fdiv x y) = true) ∧
  (∀ x y : F64, isNaN x = false → isNaN y = false →
    let infinity := fun negative : Bool => if negative then 0xFFF0000000000000#64 else 0x7FF0000000000000#64
    let zero := fun negative : Bool => if negative then 0x8000000000000000#64 else 0#64
    let negative := fsign x != fsign y
    (isInf x = true → isInf y = true →
      (if negative then isNaN (fadd x y) = true ∧ fsub x y = x else fadd x y = x ∧ isNaN (fsub x y) = true) ∧
      fmul x y = infinity negative ∧ isNaN (fdiv x y) = true) ∧
    (isInf x = true → isFinite y = true →
      fadd x y = x ∧ fsub x y = x ∧ fdiv x y = infinity negative ∧
      (if isZero y then isNaN (fmul x y) = true else fmul x y = infinity negative)) ∧
    (isFinite x = true → isInf y = true →
      fadd x y = y ∧ fsub x y = fneg y ∧ fdiv x y = zero negative ∧
      (if isZero x then isNaN (fmul x y) = true else fmul x y = infinity negative)) ∧
    (isFinite x = true → isZero y = true →
      if isZero x then isNaN (fdiv x y) = true else fdiv x y = infinity negative))

/-- Widening is exact (R14): it keeps the sign and the value of every finite f32 (R7; 2^-149 is 2^925 units of 2^-1074)
and every infinity, so narrowing gives every f32 that is not a NaN back, bit for bit. -/
def Obligations.NarrowUndoesWiden : Prop :=
  (∀ a : F32,
    let exponent := (a.extractLsb' 23 8).toNat
    let fraction := (a.extractLsb' 0 23).toNat
    (exponent ≠ 255 → isFinite (widen a) = true ∧ fsign (widen a) = a.msb ∧
      fval (widen a) = (if a.msb then -1 else 1) *
        ((if exponent = 0 then fraction else (2 ^ 23 + fraction) * 2 ^ (exponent - 1)) * 2 ^ 925 : Nat)) ∧
    (exponent = 255 ∧ fraction = 0 →
      widen a = if a.msb then 0xFFF0000000000000#64 else 0x7FF0000000000000#64)) ∧
  (∀ a : F32, isNaN32 a = false → narrow (widen a) = a)

/-! ## The host's side of the port -/

/-- PROCESSBLK (R65, R100 (a)): the host issues `PROCESS buf[i]` for each element in order, up to the first fault, and
nothing else; the elements before it are replaced by the `DATA` of their responses in order, it and all later ones
are left as they were, and the fault is reported. -/
def Obligations.ProcessBlkStopsAtTheFirstFault : Prop :=
  ∀ (buf : List F64) (s : State),
    let r := processBlk buf s
    ∃ answers : List ResponseWord, r.unitState.responses = answers.reverse ++ s.responses ∧
      (r.cause = 0#8 → runCommands (buf.map .process) s = .next r.unitState ∧ answers.length = buf.length ∧
        (∀ a ∈ answers, responseCause a = 0#8) ∧ r.buffer = answers.map responseData) ∧
      (r.cause ≠ 0#8 → ∃ k, k < buf.length ∧ answers.length = k + 1 ∧
        runCommands ((buf.take (k + 1)).map .process) s = .next r.unitState ∧
        (∀ a ∈ answers.take k, responseCause a = 0#8) ∧
        r.buffer = (answers.take k).map responseData ++ buf.drop k ∧
        (answers.getLast?.map responseCause) = some r.cause)

/-- DYNCONFIGURE (R100 (b)): with values DYNCFG accepts, its eleven commands succeed and load every dynamics register,
and nothing else changes but the responses. -/
def Obligations.DynConfigureLoadsEveryRegister : Prop :=
  ∀ (s : State) (u : UnitRegs) (c : DynRegs), s.unit = some u → DynAccepted c →
    ∃ t, runCommands (dynConfigure c.thr c.rat c.trim c.att c.rel c.lthr c.xthr c.gatt c.xrat c.dry
        (if c.mode then fone else fzero)) s = .next t ∧
      t.unit = some { u with dyn := c } ∧ t.statusFault = s.statusFault ∧ t.input = s.input ∧
      t.responses.length = s.responses.length + 11

/-- Channels are independent (R246): a step of one leaves every other as it was, and is the step of that unit alone. -/
def Obligations.ChannelsAreIndependent : Prop :=
  ∀ (n : Nat) (channels : List State) (s : State), channels[n]? = some s →
    ∃ after t, stepChannel n channels = .next after ∧ step s = .next t ∧ after[n]? = some t ∧
      after.length = channels.length ∧ ∀ m, m ≠ n → after[m]? = channels[m]?
end

