-- ==== Sys2Proof/Laws/FloatFields.lean ====
section
/-! SUPPORT. Fields, signs and classes of binary64 words: each small fact once, so that no later proof unfolds a
word into its bits. -/

namespace Sys2Proof.Machine

open Sys2Proof.Config

theorem fbits_lt (x : F64) : fbits x < 2 ^ 63 := Nat.mod_lt _ (by decide)

theorem fbits_eq_setWidth (x : F64) : fbits x = (x.setWidth 63).toNat := by
  simp only [fbits, BitVec.toNat_setWidth]

theorem toNat_of_sign (x : F64) : x.toNat = (if fsign x then 2 ^ 63 else 0) + fbits x := by
  have h := x.isLt
  unfold fsign fbits
  rw [BitVec.msb_eq_decide]
  by_cases hs : 2 ^ (64 - 1) ≤ x.toNat
  · simp only [hs, decide_true, if_true]; omega
  · simp only [hs, decide_false, Bool.false_eq_true, if_false]; omega

theorem toNat_withSign (s : Bool) {b : Nat} (h : b < 2 ^ 63) :
    (withSign s b).toNat = (if s then 2 ^ 63 else 0) + b := by
  unfold withSign
  rw [BitVec.toNat_ofNat]
  cases s
  · simp only [Bool.false_eq_true, if_false]; omega
  · simp only [if_true]; omega

@[simp] theorem fbits_withSign (s : Bool) {b : Nat} (h : b < 2 ^ 63) : fbits (withSign s b) = b := by
  unfold fbits
  rw [toNat_withSign s h]
  cases s
  · simp only [Bool.false_eq_true, if_false]; omega
  · simp only [if_true]; omega

@[simp] theorem fsign_withSign (s : Bool) {b : Nat} (h : b < 2 ^ 63) : fsign (withSign s b) = s := by
  unfold fsign
  rw [BitVec.msb_eq_decide, toNat_withSign s h]
  cases s
  · simp only [Bool.false_eq_true, if_false, decide_eq_false_iff_not]; omega
  · simp only [if_true, decide_eq_true_eq]; omega

/-- A word is its sign and its magnitude bits. -/
@[simp] theorem withSign_eta (x : F64) : withSign (fsign x) (fbits x) = x := by
  apply BitVec.eq_of_toNat_eq
  rw [toNat_withSign _ (fbits_lt x), ← toNat_of_sign]

theorem f64_ext {x y : F64} (hs : fsign x = fsign y) (hb : fbits x = fbits y) : x = y := by
  rw [← withSign_eta x, ← withSign_eta y, hs, hb]

@[simp] theorem fsign_fneg (x : F64) : fsign (fneg x) = !fsign x := by
  have h : (0x8000000000000000#64).msb = true := by decide
  simp only [fsign, fneg, BitVec.msb_xor, h, Bool.xor_true]

@[simp] theorem fbits_fneg (x : F64) : fbits (fneg x) = fbits x := by
  rw [fbits_eq_setWidth, fbits_eq_setWidth, fneg, BitVec.setWidth_xor]
  have h : (0x8000000000000000#64).setWidth 63 = 0#63 := by decide
  rw [h, BitVec.xor_zero]

@[simp] theorem fsign_fabs (x : F64) : fsign (fabs x) = false := by
  have h : (0x7FFFFFFFFFFFFFFF#64).msb = false := by decide
  simp only [fsign, fabs, BitVec.msb_and, h, Bool.and_false]

@[simp] theorem fbits_fabs (x : F64) : fbits (fabs x) = fbits x := by
  rw [fbits_eq_setWidth, fbits_eq_setWidth, fabs, BitVec.setWidth_and]
  have h : (0x7FFFFFFFFFFFFFFF#64).setWidth 63 = BitVec.allOnes 63 := by decide
  rw [h, BitVec.and_allOnes]

@[simp] theorem fneg_fneg (x : F64) : fneg (fneg x) = x :=
  f64_ext (by simp) (by simp)

@[simp] theorem fneg_withSign (s : Bool) {b : Nat} (h : b < 2 ^ 63) : fneg (withSign s b) = withSign (!s) b :=
  f64_ext (by rw [fsign_fneg, fsign_withSign _ h, fsign_withSign _ h])
    (by rw [fbits_fneg, fbits_withSign _ h, fbits_withSign _ h])

@[simp] theorem fabs_fneg (x : F64) : fabs (fneg x) = fabs x := f64_ext (by simp) (by simp)

theorem infBits_lt : infBits < 2 ^ 63 := by decide

/-! ## Classes -/

@[simp] theorem isNaN_fneg (x : F64) : isNaN (fneg x) = isNaN x := by simp [isNaN]
@[simp] theorem isInf_fneg (x : F64) : isInf (fneg x) = isInf x := by simp [isInf]
@[simp] theorem isZero_fneg (x : F64) : isZero (fneg x) = isZero x := by simp [isZero]
@[simp] theorem isFinite_fneg (x : F64) : isFinite (fneg x) = isFinite x := by simp [isFinite]
@[simp] theorem isNaN_fabs (x : F64) : isNaN (fabs x) = isNaN x := by simp [isNaN]
@[simp] theorem isFinite_fabs (x : F64) : isFinite (fabs x) = isFinite x := by simp [isFinite]

theorem isNaN_iff (x : F64) : isNaN x = true ↔ infBits < fbits x := by simp [isNaN]
theorem isInf_iff (x : F64) : isInf x = true ↔ fbits x = infBits := by simp [isInf]
theorem isFinite_iff (x : F64) : isFinite x = true ↔ fbits x < infBits := by simp [isFinite]
theorem isZero_iff (x : F64) : isZero x = true ↔ fbits x = 0 := by simp [isZero]

theorem not_isNaN_of_isFinite {x : F64} (h : isFinite x = true) : isNaN x = false := by
  rw [isFinite_iff] at h
  simp only [isNaN, decide_eq_false_iff_not]; omega

theorem not_isInf_of_isFinite {x : F64} (h : isFinite x = true) : isInf x = false := by
  rw [isFinite_iff] at h
  simp only [isInf, decide_eq_false_iff_not]; omega

theorem isFinite_of_not {x : F64} (hn : isNaN x = false) (hi : isInf x = false) : isFinite x = true := by
  rw [isFinite_iff]
  simp only [isNaN, isInf, decide_eq_false_iff_not] at hn hi; omega

/-- A quiet NaN is a NaN, whatever its free bits are. -/
@[simp] theorem isNaN_quietNaN (k : BitVec 64) : isNaN (quietNaN k) = true := by
  rw [isNaN_iff, fbits_eq_setWidth, quietNaN, BitVec.setWidth_or]
  have h : (0x7FF8000000000000#64).setWidth 63 = 0x7FF8000000000000#63 := by decide
  rw [h, BitVec.toNat_or]
  have h2 : (0x7FF8000000000000#63).toNat ≤ ((k.setWidth 63).toNat ||| (0x7FF8000000000000#63).toNat) :=
    Nat.right_le_or
  have h3 : infBits < (0x7FF8000000000000#63).toNat := by decide
  omega

/-! ## Order: `ford` orders the words that are not NaNs -/

theorem ford_fneg (x : F64) : ford (fneg x) = -ford x := by
  unfold ford
  rw [fsign_fneg, fbits_fneg]
  cases fsign x <;> simp

theorem ford_fabs (x : F64) : ford (fabs x) = (fbits x : Int) := by simp [ford]

theorem flt_iff (x y : F64) : flt x y = true ↔ isNaN x = false ∧ isNaN y = false ∧ ford x < ford y := by
  simp [flt, and_assoc]

theorem fle_iff (x y : F64) : fle x y = true ↔ isNaN x = false ∧ isNaN y = false ∧ ford x ≤ ford y := by
  simp [fle, and_assoc]

theorem feq_iff (x y : F64) : feq x y = true ↔ isNaN x = false ∧ isNaN y = false ∧ ford x = ford y := by
  simp [feq, and_assoc]

theorem fle_of_flt {x y : F64} (h : flt x y = true) : fle x y = true := by
  rw [flt_iff] at h; rw [fle_iff]; exact ⟨h.1, h.2.1, h.2.2.le⟩

theorem fle_refl {x : F64} (h : isNaN x = false) : fle x x = true := by rw [fle_iff]; exact ⟨h, h, le_refl _⟩

theorem fle_trans {x y z : F64} (h1 : fle x y = true) (h2 : fle y z = true) : fle x z = true := by
  rw [fle_iff] at *; exact ⟨h1.1, h2.2.1, h1.2.2.trans h2.2.2⟩

theorem flt_of_flt_of_fle {x y z : F64} (h1 : flt x y = true) (h2 : fle y z = true) : flt x z = true := by
  rw [flt_iff] at *; rw [fle_iff] at h2; exact ⟨h1.1, h2.2.1, lt_of_lt_of_le h1.2.2 h2.2.2⟩

theorem flt_of_fle_of_flt {x y z : F64} (h1 : fle x y = true) (h2 : flt y z = true) : flt x z = true := by
  rw [flt_iff] at *; rw [fle_iff] at h1; exact ⟨h1.1, h2.2.1, lt_of_le_of_lt h1.2.2 h2.2.2⟩

theorem not_flt_of_fle {x y : F64} (h : fle x y = true) : flt y x = false := by
  rw [fle_iff] at h
  simp only [flt, h.1, h.2.1, Bool.not_false, Bool.true_and, decide_eq_false_iff_not]; omega

theorem fle_of_not_flt {x y : F64} (hx : isNaN x = false) (hy : isNaN y = false) (h : flt y x = false) :
    fle x y = true := by
  rw [fle_iff]
  simp only [flt, hx, hy, Bool.not_false, Bool.true_and, decide_eq_false_iff_not] at h
  exact ⟨hx, hy, by omega⟩

theorem isNaN_left_of_fle {x y : F64} (h : fle x y = true) : isNaN x = false := (fle_iff x y).1 h |>.1
theorem isNaN_right_of_fle {x y : F64} (h : fle x y = true) : isNaN y = false := (fle_iff x y).1 h |>.2.1

/-- A word between two finite words is finite. -/
theorem isFinite_of_between {lo x hi : F64} (hlo : isFinite lo = true) (hhi : isFinite hi = true)
    (h1 : fle lo x = true) (h2 : fle x hi = true) : isFinite x = true := by
  rw [fle_iff] at h1 h2
  rw [isFinite_iff] at *
  have a := h1.2.2
  have b := h2.2.2
  unfold ford at a b
  cases hl : fsign lo <;> cases hx : fsign x <;> cases hh : fsign hi <;>
    simp only [hl, hx, hh, if_true, Bool.false_eq_true, if_false] at a b <;> omega

/-! ## `min` and `max` (R12) -/

/-- `min(a, b)` is one of its operands, and at most each when neither is a NaN. -/
theorem fmin_eq_or (a b : F64) : fmin a b = a ∨ fmin a b = b := by unfold fmin; split <;> simp

theorem fmax_eq_or (a b : F64) : fmax a b = a ∨ fmax a b = b := by unfold fmax; split <;> simp

/-- `min(a, b)` is never above its first operand, a NaN second operand included. -/
theorem fmin_le_left {a b : F64} (ha : isNaN a = false) : fle (fmin a b) a = true := by
  unfold fmin
  split
  · rename_i h; exact fle_of_flt h
  · exact fle_refl ha

theorem fmin_le_right {a b : F64} (ha : isNaN a = false) (hb : isNaN b = false) : fle (fmin a b) b = true := by
  unfold fmin
  split
  · exact fle_refl hb
  · rename_i h; exact fle_of_not_flt ha hb (by simpa using h)

/-- `max(a, b)` is never below its first operand, a NaN second operand included. -/
theorem le_fmax_left {a b : F64} (ha : isNaN a = false) : fle a (fmax a b) = true := by
  unfold fmax
  split
  · rename_i h; exact fle_of_flt h
  · exact fle_refl ha

theorem le_fmax_right {a b : F64} (ha : isNaN a = false) (hb : isNaN b = false) : fle b (fmax a b) = true := by
  unfold fmax
  split
  · exact fle_refl hb
  · rename_i h; exact fle_of_not_flt hb ha (by simpa using h)

theorem le_fmin {x a b : F64} (ha : fle x a = true) (hb : fle x b = true) : fle x (fmin a b) = true := by
  rcases fmin_eq_or a b with h | h <;> rw [h] <;> assumption

theorem fmax_le {x a b : F64} (ha : fle a x = true) (hb : fle b x = true) : fle (fmax a b) x = true := by
  rcases fmax_eq_or a b with h | h <;> rw [h] <;> assumption

end Sys2Proof.Machine
end

