-- ==== Sys2Proof/Laws/FloatRound.lean ====
section
/-! SUPPORT. The one rounding: exact on representable magnitudes, monotone, never past a representable bound,
and within half a unit in the last place. -/

namespace Sys2Proof.Machine

open Sys2Proof.Config

/-! ## Magnitudes -/

theorem magOfBits_succ (p b : Nat) : magOfBits p (b + 1) = magOfBits p b + 2 ^ (b / 2 ^ p - 1) := by
  have hp : 0 < 2 ^ p := Nat.two_pow_pos p
  set P := 2 ^ p with hP
  have hb : b = P * (b / P) + b % P := (Nat.div_add_mod b P).symm
  have hr : b % P < P := Nat.mod_lt _ hp
  unfold magOfBits
  rw [← hP]
  generalize b / P = e at *
  generalize b % P = f at *
  by_cases hlast : f + 1 = P
  · have h1 : (b + 1) / P = e + 1 := by
      rw [hb, add_assoc, hlast, Nat.mul_add_div hp, Nat.div_self hp]
    have h2 : (b + 1) % P = 0 := by
      rw [hb, add_assoc, hlast, Nat.mul_add_mod, Nat.mod_self]
    rw [h1, h2]
    simp only [Nat.add_eq_zero_iff, one_ne_zero, and_false, if_false, Nat.add_sub_cancel, add_zero]
    by_cases h0 : e = 0
    · rw [h0, Nat.mul_zero, Nat.zero_add] at hb
      rw [h0]
      simp only [if_true, pow_zero, mul_one, Nat.zero_sub]; omega
    · obtain ⟨e', rfl⟩ : ∃ e', e = e' + 1 := ⟨e - 1, by omega⟩
      have : f = P - 1 := by omega
      simp only [Nat.add_eq_zero_iff, one_ne_zero, and_false, if_false, Nat.add_sub_cancel, this, pow_succ]
      have h3 : P + (P - 1) = 2 * P - 1 := by omega
      rw [h3, Nat.sub_mul, Nat.one_mul]
      have h4 : 2 ^ e' ≤ 2 * P * 2 ^ e' := Nat.le_mul_of_pos_left _ (by omega)
      have h5 : 2 * P * 2 ^ e' = P * (2 ^ e' * 2) := by ring
      omega
  · have h1 : (b + 1) / P = e := by
      rw [hb, add_assoc, Nat.mul_add_div hp, Nat.div_eq_of_lt (by omega), add_zero]
    have h2 : (b + 1) % P = f + 1 := by
      rw [hb, add_assoc, Nat.mul_add_mod, Nat.mod_eq_of_lt (by omega)]
    rw [h1, h2]
    by_cases h0 : e = 0
    · rw [h0]; simp
    · simp only [h0, if_false]; ring

theorem magOfBits_strictMono (p : Nat) : StrictMono (magOfBits p) :=
  strictMono_nat_of_lt_succ fun b => by
    rw [magOfBits_succ]; exact Nat.lt_add_of_pos_right (Nat.two_pow_pos _)

theorem magOfBits_le_iff {p a b : Nat} : magOfBits p a ≤ magOfBits p b ↔ a ≤ b :=
  (magOfBits_strictMono p).le_iff_le

theorem magOfBits_lt_iff {p a b : Nat} : magOfBits p a < magOfBits p b ↔ a < b :=
  (magOfBits_strictMono p).lt_iff_lt

@[simp] theorem magOfBits_zero (p : Nat) : magOfBits p 0 = 0 := by simp [magOfBits]

theorem magOfBits_eq_zero {p b : Nat} : magOfBits p b = 0 ↔ b = 0 := by
  constructor
  · intro h
    by_contra hb
    have := (magOfBits_strictMono p) (Nat.pos_of_ne_zero hb)
    simp [h] at this
  · rintro rfl; simp

/-- The bits `k * 2^p + m` stand for `m * 2^k`. -/
theorem magOfBits_scaled (p k m : Nat) (hm : m ≤ 2 ^ (p + 1)) (h : k = 0 ∨ 2 ^ p ≤ m) :
    magOfBits p (k * 2 ^ p + m) = m * 2 ^ k := by
  have hp : 0 < 2 ^ p := Nat.two_pow_pos p
  have h2 : 2 ^ (p + 1) = 2 * 2 ^ p := by ring
  set P := 2 ^ p with hP
  unfold magOfBits
  rw [← hP]
  rcases Nat.lt_or_ge m P with hlt | hge
  · obtain rfl : k = 0 := by omega
    have : (0 * P + m) / P = 0 := by rw [Nat.zero_mul, Nat.zero_add]; exact Nat.div_eq_of_lt hlt
    rw [this]; simp
  · rcases Nat.lt_or_ge m (2 * P) with hlt2 | hge2
    · obtain ⟨f, rfl⟩ : ∃ f, m = P + f := ⟨m - P, by omega⟩
      have hf : f < P := by omega
      have e1 : k * P + (P + f) = P * (k + 1) + f := by ring
      have d1 : (P * (k + 1) + f) / P = k + 1 := by
        rw [Nat.mul_add_div hp, Nat.div_eq_of_lt hf, add_zero]
      have m1 : (P * (k + 1) + f) % P = f := by rw [Nat.mul_add_mod, Nat.mod_eq_of_lt hf]
      rw [e1, d1, m1]; simp
    · obtain rfl : m = 2 * P := by omega
      have e1 : k * P + 2 * P = P * (k + 2) := by ring
      have d1 : P * (k + 2) / P = k + 2 := Nat.mul_div_cancel_left _ hp
      have m1 : P * (k + 2) % P = 0 := Nat.mul_mod_right _ _
      rw [e1, d1, m1]
      simp only [Nat.add_eq_zero_iff, OfNat.ofNat_ne_zero, and_false, if_false, add_zero]
      have : k + 2 - 1 = k + 1 := by omega
      rw [this, pow_succ]; ring

/-! ## Rounding to an integer -/

theorem roundHalfEven_mem (n d : Nat) : roundHalfEven n d = n / d ∨ roundHalfEven n d = n / d + 1 := by
  unfold roundHalfEven; split <;> simp

/-- The result is within half of the divisor. -/
theorem roundHalfEven_near (n : Nat) {d : Nat} (hd : 0 < d) :
    2 * n ≤ 2 * (d * roundHalfEven n d) + d ∧ 2 * (d * roundHalfEven n d) ≤ 2 * n + d := by
  have h := Nat.div_add_mod n d
  have hr := Nat.mod_lt n hd
  unfold roundHalfEven
  split
  · rw [Nat.mul_add, Nat.mul_one]; omega
  · omega

theorem roundHalfEven_mul_right (n d : Nat) {c : Nat} (hc : 0 < c) :
    roundHalfEven (n * c) (d * c) = roundHalfEven n d := by
  unfold roundHalfEven
  rw [Nat.mul_div_mul_right _ _ hc, Nat.mul_mod_mul_right]
  have h1 : (d * c < 2 * (n % d * c)) ↔ (d < 2 * (n % d)) := by
    rw [← mul_assoc]; exact Nat.mul_lt_mul_right hc
  have h2 : (2 * (n % d * c) = d * c) ↔ (2 * (n % d) = d) := by
    rw [← mul_assoc]; exact Nat.mul_left_inj hc.ne'
  simp only [h1, h2]

theorem roundHalfEven_mono {n m : Nat} (d : Nat) (h : n ≤ m) : roundHalfEven n d ≤ roundHalfEven m d := by
  rcases Nat.eq_zero_or_pos d with rfl | hd
  · unfold roundHalfEven
    simp only [Nat.div_zero, Nat.mod_zero]
    split <;> split <;> omega
  have hq := Nat.div_le_div_right (c := d) h
  rcases Nat.lt_or_ge (n / d) (m / d) with hlt | hge
  · have h1 := roundHalfEven_mem n d
    have h2 := roundHalfEven_mem m d
    omega
  · have he : n / d = m / d := le_antisymm hq hge
    have h1 := Nat.div_add_mod n d
    have h2 := Nat.div_add_mod m d
    rw [he] at h1
    unfold roundHalfEven
    rw [he]
    split <;> split <;> omega

/-! ## Rounding to a float -/

/-- The scale of a rounding. -/
def roundScale (p n d : Nat) : Nat := Nat.log2 (n / d) - p

/-- The kept integer of a rounding. -/
def roundKept (p n d : Nat) : Nat := roundHalfEven n (d * 2 ^ roundScale p n d)

/-- The bits of a rounding before the overflow to an infinity. -/
def roundRaw (p n d : Nat) : Nat := roundScale p n d * 2 ^ p + roundKept p n d

theorem roundBits_eq (p inf n d : Nat) : roundBits p inf n d = min (roundRaw p n d) inf := rfl

theorem lt_two_pow_log2_succ (q : Nat) : q < 2 ^ (q.log2 + 1) := Nat.lt_log2_self

/-- The kept integer has at most `p + 1` bits, and exactly that many where the scale is not 0. -/
theorem roundKept_bounds (p n d : Nat) :
    roundKept p n d ≤ 2 ^ (p + 1) ∧ (roundScale p n d = 0 ∨ 2 ^ p ≤ roundKept p n d) ∧
      (roundScale p n d = 0 ∨ d * 2 ^ (p + roundScale p n d) ≤ n) := by
  set k := roundScale p n d with hk
  have hq := lt_two_pow_log2_succ (n / d)
  have hdiv : n / (d * 2 ^ k) = n / d / 2 ^ k := (Nat.div_div_eq_div_mul n d (2 ^ k)).symm
  have hmem := roundHalfEven_mem n (d * 2 ^ k)
  have hkept : roundKept p n d = roundHalfEven n (d * 2 ^ k) := rfl
  rw [hdiv] at hmem
  have hkp : k = Nat.log2 (n / d) - p := hk
  by_cases hle : Nat.log2 (n / d) ≤ p
  · have hk0 : k = 0 := by omega
    have hlt : n / d < 2 ^ (p + 1) := lt_of_lt_of_le hq (Nat.pow_le_pow_right (by omega) (by omega))
    rw [hk0, pow_zero, Nat.div_one] at hmem
    rw [hk0, pow_zero] at hkept
    refine ⟨?_, Or.inl hk0, Or.inl hk0⟩
    rw [hkept, show d * 1 = d * 2 ^ 0 by rw [pow_zero]]
    rw [pow_zero]
    omega
  · have hsum : p + k = Nat.log2 (n / d) := by omega
    have hne : n / d ≠ 0 := by
      intro h0; rw [h0] at hle; simp at hle
    have hlow : 2 ^ (p + k) ≤ n / d := by rw [hsum]; exact Nat.log2_self_le hne
    have hup : n / d / 2 ^ k < 2 ^ (p + 1) := by
      rw [Nat.div_lt_iff_lt_mul (Nat.two_pow_pos k), ← pow_add]
      exact lt_of_lt_of_le hq (Nat.pow_le_pow_right (by omega) (by omega))
    have hlow' : 2 ^ p ≤ n / d / 2 ^ k := by
      rw [Nat.le_div_iff_mul_le (Nat.two_pow_pos k), ← pow_add]; exact hlow
    refine ⟨by rw [hkept]; omega, Or.inr (by rw [hkept]; omega), Or.inr ?_⟩
    calc d * 2 ^ (p + k) ≤ d * (n / d) := Nat.mul_le_mul_left d hlow
      _ ≤ n := Nat.mul_div_le n d

/-- What the rounded bits stand for. -/
theorem magOfBits_roundRaw (p n d : Nat) :
    magOfBits p (roundRaw p n d) = roundKept p n d * 2 ^ roundScale p n d :=
  magOfBits_scaled p _ _ (roundKept_bounds p n d).1 (roundKept_bounds p n d).2.1

/-- The rounding error is at most half a unit in the last place, `2 ^ roundScale`. -/
theorem roundRaw_near (p n d : Nat) (hd : 0 < d) :
    2 * n ≤ 2 * (d * magOfBits p (roundRaw p n d)) + d * 2 ^ roundScale p n d ∧
    2 * (d * magOfBits p (roundRaw p n d)) ≤ 2 * n + d * 2 ^ roundScale p n d := by
  have h := roundHalfEven_near n (Nat.mul_pos hd (Nat.two_pow_pos (roundScale p n d)))
  rw [magOfBits_roundRaw p n d]
  have e : d * (roundKept p n d * 2 ^ roundScale p n d) = d * 2 ^ roundScale p n d * roundKept p n d := by ring
  rw [e]; exact h

/-- A representable magnitude not above the value is not above the rounded value. -/
theorem le_roundRaw {p n d b : Nat} (hd : 0 < d) (h : magOfBits p b * d ≤ n) : b ≤ roundRaw p n d := by
  by_contra hlt
  have hB : roundRaw p n d + 1 ≤ b := by omega
  have h1 : magOfBits p (roundRaw p n d + 1) ≤ magOfBits p b := magOfBits_le_iff.2 hB
  rw [magOfBits_succ] at h1
  have hnear := (roundRaw_near p n d hd).1
  have hb := roundKept_bounds p n d
  set k := roundScale p n d with hk
  have hulp : 2 ^ k ≤ 2 ^ (roundRaw p n d / 2 ^ p - 1) := by
    apply Nat.pow_le_pow_right (by omega)
    rcases hb.2.1 with h0 | hge
    · omega
    · have : k * 2 ^ p + 2 ^ p ≤ roundRaw p n d := by
        have : roundRaw p n d = k * 2 ^ p + roundKept p n d := rfl
        omega
      have : k + 1 ≤ roundRaw p n d / 2 ^ p := by
        rw [Nat.le_div_iff_mul_le (Nat.two_pow_pos p)]; linarith
      omega
  have hpos : 0 < 2 ^ k := Nat.two_pow_pos k
  have h2 : (magOfBits p (roundRaw p n d) + 2 ^ k) * d ≤ n :=
    le_trans (Nat.mul_le_mul_right d (by omega)) h
  have h3 : 0 < d * 2 ^ k := Nat.mul_pos hd hpos
  nlinarith

/-- The rounded value is not above a representable magnitude that the value is not above. -/
theorem roundRaw_le {p n d b : Nat} (hd : 0 < d) (h : n ≤ magOfBits p b * d) : roundRaw p n d ≤ b := by
  by_contra hlt
  obtain ⟨c, hc⟩ : ∃ c, roundRaw p n d = c + 1 := ⟨roundRaw p n d - 1, by omega⟩
  have hbc : magOfBits p b ≤ magOfBits p c := magOfBits_le_iff.2 (by omega)
  have hsucc := magOfBits_succ p c
  rw [← hc] at hsucc
  have hn : n ≤ magOfBits p c * d := le_trans h (Nat.mul_le_mul_right d hbc)
  have hnear := (roundRaw_near p n d hd).2
  have hb := roundKept_bounds p n d
  have hval := magOfBits_roundRaw p n d
  set k := roundScale p n d with hk
  have hraw : roundRaw p n d = k * 2 ^ p + roundKept p n d := rfl
  have hpos : 0 < 2 ^ k := Nat.two_pow_pos k
  by_cases hlow : k = 0 ∨ 2 ^ p < roundKept p n d
  · have hulp : 2 ^ k ≤ 2 ^ (c / 2 ^ p - 1) := by
      apply Nat.pow_le_pow_right (by omega)
      rcases hlow with h0 | hge
      · omega
      · have : k + 1 ≤ c / 2 ^ p := by
          rw [Nat.le_div_iff_mul_le (Nat.two_pow_pos p)]
          have : (k + 1) * 2 ^ p = k * 2 ^ p + 2 ^ p := by ring
          omega
        omega
    have h3 : 0 < d * 2 ^ k := Nat.mul_pos hd hpos
    have h4 : (magOfBits p c + 2 ^ k) * d ≤ magOfBits p (roundRaw p n d) * d :=
      Nat.mul_le_mul_right d (by omega)
    nlinarith
  · have hk0 : k ≠ 0 := fun h0 => hlow (Or.inl h0)
    have hm : roundKept p n d = 2 ^ p := by
      have h1 := hb.2.1.resolve_left hk0
      have h2 : ¬ 2 ^ p < roundKept p n d := fun h2 => hlow (Or.inr h2)
      omega
    have hge := hb.2.2.resolve_left hk0
    rw [hm, ← pow_add] at hval
    have hlt2 : magOfBits p c < magOfBits p (roundRaw p n d) := magOfBits_lt_iff.2 (by omega)
    rw [hval] at hlt2
    have : magOfBits p c * d < 2 ^ (p + k) * d := Nat.mul_lt_mul_of_pos_right hlt2 hd
    have : d * 2 ^ (p + k) = 2 ^ (p + k) * d := Nat.mul_comm _ _
    omega

/-- Rounding a representable magnitude gives it back. -/
theorem roundRaw_exact (p b : Nat) {d : Nat} (hd : 0 < d) : roundRaw p (magOfBits p b * d) d = b :=
  le_antisymm (roundRaw_le hd le_rfl) (le_roundRaw hd le_rfl)

theorem roundScale_mul_right (p n d : Nat) {c : Nat} (hc : 0 < c) :
    roundScale p (n * c) (d * c) = roundScale p n d := by
  unfold roundScale; rw [Nat.mul_div_mul_right _ _ hc]

theorem roundRaw_mul_right (p n d : Nat) {c : Nat} (hc : 0 < c) : roundRaw p (n * c) (d * c) = roundRaw p n d := by
  unfold roundRaw roundKept
  rw [roundScale_mul_right p n d hc]
  have : d * c * 2 ^ roundScale p n d = d * 2 ^ roundScale p n d * c := by ring
  rw [this, roundHalfEven_mul_right _ _ hc]

theorem log2_mono {a b : Nat} (h : a ≤ b) : a.log2 ≤ b.log2 := by
  rcases Nat.eq_zero_or_pos a with rfl | ha
  · simp
  · exact (Nat.le_log2 (by omega)).2 (le_trans (Nat.log2_self_le ha.ne') h)

theorem roundRaw_mono_num {p n m d : Nat} (h : n ≤ m) : roundRaw p n d ≤ roundRaw p m d := by
  have hs : roundScale p n d ≤ roundScale p m d :=
    Nat.sub_le_sub_right (log2_mono (Nat.div_le_div_right h)) p
  have hn := roundKept_bounds p n d
  have hm := roundKept_bounds p m d
  unfold roundRaw
  rcases Nat.lt_or_ge (roundScale p n d) (roundScale p m d) with hlt | hge
  · have h1 := hm.2.1.resolve_left (by omega)
    have h2 : 2 ^ (p + 1) = 2 * 2 ^ p := by ring
    have h3 : (roundScale p n d + 1) * 2 ^ p ≤ roundScale p m d * 2 ^ p := Nat.mul_le_mul_right _ hlt
    have h4 : (roundScale p n d + 1) * 2 ^ p = roundScale p n d * 2 ^ p + 2 ^ p := by ring
    omega
  · have he : roundScale p n d = roundScale p m d := le_antisymm hs hge
    unfold roundKept
    rw [he]
    exact Nat.add_le_add_left (roundHalfEven_mono _ h) _

/-- Rounding is monotone in the exact value. -/
theorem roundRaw_mono {p n d n' d' : Nat} (hd : 0 < d) (hd' : 0 < d') (h : n * d' ≤ n' * d) :
    roundRaw p n d ≤ roundRaw p n' d' := by
  rw [← roundRaw_mul_right p n d hd', ← roundRaw_mul_right p n' d' hd, Nat.mul_comm d' d]
  exact roundRaw_mono_num h

@[simp] theorem roundRaw_zero (p d : Nat) : roundRaw p 0 d = 0 := by
  simp [roundRaw, roundKept, roundScale, roundHalfEven]

/-! ## Rounding to a binary64 word -/

theorem roundBits_le_inf (p inf n d : Nat) : roundBits p inf n d ≤ inf := min_le_right _ _

theorem roundBits_lt (n d : Nat) : roundBits 52 infBits n d < 2 ^ 63 :=
  lt_of_le_of_lt (roundBits_le_inf _ _ _ _) infBits_lt

@[simp] theorem fbits_ofUnits (s : Bool) (n d : Nat) : fbits (ofUnits s n d) = roundBits 52 infBits n d :=
  fbits_withSign s (roundBits_lt n d)

@[simp] theorem fsign_ofUnits (s : Bool) (n d : Nat) : fsign (ofUnits s n d) = s :=
  fsign_withSign s (roundBits_lt n d)

@[simp] theorem isNaN_ofUnits (s : Bool) (n d : Nat) : isNaN (ofUnits s n d) = false := by
  have := roundBits_le_inf 52 infBits n d
  simp only [isNaN, fbits_ofUnits, decide_eq_false_iff_not]; omega

@[simp] theorem fneg_ofUnits (s : Bool) (n d : Nat) : fneg (ofUnits s n d) = ofUnits (!s) n d :=
  fneg_withSign s (roundBits_lt n d)

/-- Rounding the value of a finite word gives its magnitude bits back. -/
theorem ofUnits_fmag {x : F64} (h : isFinite x = true) {d : Nat} (hd : 0 < d) :
    ofUnits (fsign x) (fmag x * d) d = x := by
  apply f64_ext
  · simp
  · rw [fbits_ofUnits, roundBits_eq, fmag, roundRaw_exact _ _ hd]
    rw [isFinite_iff] at h; omega

/-! ## Values and order -/

theorem fmag_lt_iff {x y : F64} : fmag x < fmag y ↔ fbits x < fbits y := magOfBits_lt_iff
theorem fmag_le_iff {x y : F64} : fmag x ≤ fmag y ↔ fbits x ≤ fbits y := magOfBits_le_iff

theorem fmag_eq_zero {x : F64} : fmag x = 0 ↔ fbits x = 0 := magOfBits_eq_zero

@[simp] theorem fmag_fneg (x : F64) : fmag (fneg x) = fmag x := by simp [fmag]
@[simp] theorem fmag_fabs (x : F64) : fmag (fabs x) = fmag x := by simp [fmag]

theorem fval_fneg (x : F64) : fval (fneg x) = -fval x := by
  unfold fval; rw [fsign_fneg, fmag_fneg]; cases fsign x <;> simp

theorem fval_fabs (x : F64) : fval (fabs x) = (fmag x : Int) := by simp [fval]

/-- `ford` and the exact value order words alike. -/
theorem ford_le_iff {x y : F64} : ford x ≤ ford y ↔ fval x ≤ fval y := by
  have h1 := @fmag_le_iff x y
  have h2 := @fmag_le_iff y x
  have h3 := @fmag_eq_zero x
  have h4 := @fmag_eq_zero y
  unfold ford fval
  cases fsign x <;> cases fsign y <;> simp only [if_true, Bool.false_eq_true, if_false] <;> omega

theorem ford_lt_iff {x y : F64} : ford x < ford y ↔ fval x < fval y := by
  have := @ford_le_iff y x; omega

theorem ford_eq_iff {x y : F64} : ford x = ford y ↔ fval x = fval y := by
  have h1 := @ford_le_iff y x
  have h2 := @ford_le_iff x y
  omega

theorem fle_iff_fval {x y : F64} (hx : isNaN x = false) (hy : isNaN y = false) :
    fle x y = true ↔ fval x ≤ fval y := by
  rw [fle_iff, ford_le_iff]; simp [hx, hy]

theorem flt_iff_fval {x y : F64} (hx : isNaN x = false) (hy : isNaN y = false) :
    flt x y = true ↔ fval x < fval y := by
  rw [flt_iff, ford_lt_iff]; simp [hx, hy]

/-- A rounded value is not above a finite word that the exact value is not above. -/
theorem ofUnits_le {s : Bool} {n d : Nat} {w : F64} (hd : 0 < d) (hw : isFinite w = true)
    (h : (if s then -(n : Int) else n) ≤ fval w * d) : fle (ofUnits s n d) w = true := by
  rw [fle_iff]
  refine ⟨isNaN_ofUnits s n d, not_isNaN_of_isFinite hw, ?_⟩
  rw [isFinite_iff] at hw
  unfold ford
  rw [fsign_ofUnits, fbits_ofUnits, roundBits_eq]
  unfold fval at h
  cases s <;> cases hs : fsign w <;>
    simp only [hs, if_true, Bool.false_eq_true, if_false] at h ⊢
  · have h' : n ≤ magOfBits 52 (fbits w) * d := by unfold fmag at h; exact_mod_cast h
    have := roundRaw_le hd h'
    omega
  · have hz : n = 0 ∧ fmag w = 0 := by
      have h1 : (0 : Int) ≤ (fmag w : Int) * d := by positivity
      have h2 : (n : Int) = 0 := by rw [Int.neg_mul] at h; omega
      refine ⟨by exact_mod_cast h2, ?_⟩
      by_contra h0
      have : (0 : Int) < (fmag w : Int) * d := by
        have : 0 < fmag w := Nat.pos_of_ne_zero h0
        positivity
      rw [Int.neg_mul] at h; omega
    rw [hz.1, roundRaw_zero, fmag_eq_zero.1 hz.2]; simp
  · omega
  · have h' : magOfBits 52 (fbits w) * d ≤ n := by
      unfold fmag at h; rw [Int.neg_mul] at h
      have : (magOfBits 52 (fbits w) : Int) * d ≤ n := by omega
      exact_mod_cast this
    have := le_roundRaw hd h'
    omega

/-- A finite word that the exact value is not below is not above the rounded value. -/
theorem le_ofUnits {s : Bool} {n d : Nat} {w : F64} (hd : 0 < d) (hw : isFinite w = true)
    (h : fval w * d ≤ (if s then -(n : Int) else n)) : fle w (ofUnits s n d) = true := by
  have h1 : fle (ofUnits (!s) n d) (fneg w) = true := by
    apply ofUnits_le hd (by simpa using hw)
    rw [fval_fneg, Int.neg_mul]
    cases s <;> simp only [Bool.not_true, Bool.not_false, if_true, Bool.false_eq_true, if_false] at h ⊢ <;> omega
  rw [← fneg_ofUnits, fle_iff, ford_fneg, ford_fneg, isNaN_fneg, isNaN_fneg] at h1
  rw [fle_iff]
  exact ⟨h1.2.1, h1.1, by omega⟩

end Sys2Proof.Machine
end

