-- ==== Sys2Proof/Laws/FloatArith.lean ====
section
/-! SUPPORT. What each binary64 operation can give on finite operands, said once: no NaN, never past a finite
bound of the exact result, and the exact result where that is a binary64. Later proofs cite these and never
unfold an operation. -/

namespace Sys2Proof.Machine

open Sys2Proof.Config

theorem oneUnits_pos : 0 < oneUnits := Nat.two_pow_pos 1074

/-! ## Signed values -/

theorem signed_natAbs (z : Int) : (if decide (z < 0) then -(z.natAbs : Int) else (z.natAbs : Int)) = z := by
  by_cases h : z < 0
  · simp only [h, decide_true, if_true]; omega
  · simp only [h, decide_false, Bool.false_eq_true, if_false]; omega

theorem signed_mul (s t : Bool) (a b : Nat) :
    (if (s != t) then -((a * b : Nat) : Int) else ((a * b : Nat) : Int)) =
      (if s then -(a : Int) else a) * (if t then -(b : Int) else b) := by
  cases s <;> cases t <;> simp

theorem fval_eq_signed (x : F64) : fval x = if fsign x then -(fmag x : Int) else fmag x := rfl

@[simp] theorem fval_withSign_zero (s : Bool) : fval (withSign s 0) = 0 := by
  unfold fval fmag; rw [fbits_withSign s (by decide)]; simp

@[simp] theorem isFinite_withSign_zero (s : Bool) : isFinite (withSign s 0) = true := by
  rw [isFinite_iff, fbits_withSign s (by decide)]; decide

/-- A word with the value of a finite non-zero word is that word. -/
theorem ofUnits_exact {s : Bool} {n d : Nat} {w : F64} (hd : 0 < d) (hw : isFinite w = true) (h0 : fval w ≠ 0)
    (h : (if s then -(n : Int) else n) = fval w * d) : ofUnits s n d = w := by
  rw [fval_eq_signed] at h h0
  have hm : 0 < fmag w := by
    rcases Nat.eq_zero_or_pos (fmag w) with h1 | h1
    · rw [h1] at h0; exact absurd (by simp) h0
    · exact h1
  have hp : (0 : Int) < (fmag w : Int) * d := by positivity
  have hs : s = fsign w ∧ n = fmag w * d := by
    cases s <;> cases hw' : fsign w <;>
      simp only [hw', if_true, Bool.false_eq_true, if_false, Int.neg_mul] at h
    · exact ⟨rfl, by exact_mod_cast h⟩
    · omega
    · omega
    · refine ⟨rfl, ?_⟩
      have : (n : Int) = (fmag w : Int) * d := by omega
      exact_mod_cast this
  rw [hs.1, hs.2, ofUnits_fmag hw hd]

/-! ## Which magnitudes are binary64 -/

/-- An integer below 2^53 scaled by a power of two is the magnitude of some finite bits. -/
theorem representable {m e : Nat} (hm : m < 2 ^ 53) (he : e ≤ 2045) :
    ∃ b, b < infBits ∧ magOfBits 52 b = m * 2 ^ e := by
  have hinf : infBits = 2047 * 2 ^ 52 := rfl
  have h53 : (2 : Nat) ^ 53 = 2 * 2 ^ 52 := by norm_num
  rcases Nat.eq_zero_or_pos m with rfl | hpos
  · exact ⟨0, by rw [hinf]; norm_num, by simp⟩
  have hL : m.log2 < 53 := (Nat.log2_lt hpos.ne').2 hm
  have hlow : 2 ^ m.log2 ≤ m := Nat.log2_self_le hpos.ne'
  have hup : m < 2 ^ (m.log2 + 1) := Nat.lt_log2_self
  generalize m.log2 = L at *
  by_cases h : e + L ≤ 52
  · have hM : m * 2 ^ e < 2 ^ 53 := by
      calc m * 2 ^ e < 2 ^ (L + 1) * 2 ^ e := Nat.mul_lt_mul_of_pos_right hup (Nat.two_pow_pos e)
        _ = 2 ^ (L + 1 + e) := (pow_add 2 _ _).symm
        _ ≤ 2 ^ 53 := Nat.pow_le_pow_right (by norm_num) (by omega)
    refine ⟨m * 2 ^ e, by omega, ?_⟩
    have := magOfBits_scaled 52 0 (m * 2 ^ e) hM.le (Or.inl rfl)
    simpa using this
  · have hM : m * 2 ^ (52 - L) < 2 ^ 53 := by
      calc m * 2 ^ (52 - L) < 2 ^ (L + 1) * 2 ^ (52 - L) := Nat.mul_lt_mul_of_pos_right hup (Nat.two_pow_pos _)
        _ = 2 ^ (L + 1 + (52 - L)) := (pow_add 2 _ _).symm
        _ = 2 ^ 53 := by congr 1; omega
    have hM' : 2 ^ 52 ≤ m * 2 ^ (52 - L) := by
      calc 2 ^ 52 = 2 ^ (L + (52 - L)) := by congr 1; omega
        _ = 2 ^ L * 2 ^ (52 - L) := pow_add 2 _ _
        _ ≤ m * 2 ^ (52 - L) := Nat.mul_le_mul_right _ hlow
    refine ⟨(e + L - 52) * 2 ^ 52 + m * 2 ^ (52 - L), ?_, ?_⟩
    · have : (e + L - 52) * 2 ^ 52 ≤ 2045 * 2 ^ 52 := Nat.mul_le_mul_right _ (by omega)
      omega
    · rw [magOfBits_scaled 52 _ _ hM.le (Or.inr hM'), mul_assoc, ← pow_add]
      congr 2; omega

/-- Rounding such a magnitude is exact. -/
theorem ofUnits_dyadic (s : Bool) {m e : Nat} (hm : m < 2 ^ 53) (he : e ≤ 2045) :
    isFinite (ofUnits s (m * 2 ^ e) 1) = true ∧ fmag (ofUnits s (m * 2 ^ e) 1) = m * 2 ^ e := by
  obtain ⟨b, hb, hv⟩ := representable hm he
  have hr : fbits (ofUnits s (m * 2 ^ e) 1) = b := by
    have := roundRaw_exact 52 b one_pos
    rw [fbits_ofUnits, roundBits_eq, ← hv, ← Nat.mul_one (magOfBits 52 b), this]
    omega
  exact ⟨by rw [isFinite_iff, hr]; exact hb, by rw [fmag, hr, hv]⟩

/-- Every count below 2^53 converts exactly (R11). -/
theorem natToF64_exact {m : Nat} (hm : m < 2 ^ 53) :
    isFinite (natToF64 m) = true ∧ fval (natToF64 m) = m * oneUnits := by
  obtain ⟨h1, h2⟩ := ofUnits_dyadic false (e := 1074) hm (by norm_num)
  have hu : oneUnits = 2 ^ 1074 := rfl
  rw [← hu] at h1 h2
  refine ⟨h1, ?_⟩
  rw [fval_eq_signed, natToF64, fsign_ofUnits, h2]
  simp only [Bool.false_eq_true, if_false]
  exact Nat.cast_mul _ _

/-! ## Addition and subtraction -/

theorem fadd_of_finite {x y : F64} (hx : isFinite x = true) (hy : isFinite y = true) :
    fadd x y = if fval x + fval y = 0 then withSign (fsign x && fsign y) 0
      else ofUnits (decide (fval x + fval y < 0)) (fval x + fval y).natAbs 1 := by
  unfold fadd
  simp only [not_isNaN_of_isFinite hx, not_isNaN_of_isFinite hy, not_isInf_of_isFinite hx,
    not_isInf_of_isFinite hy, Bool.or_self, Bool.false_eq_true, if_false]

theorem isNaN_fadd {x y : F64} (hx : isFinite x = true) (hy : isFinite y = true) :
    isNaN (fadd x y) = false := by
  rw [fadd_of_finite hx hy]
  split
  · exact not_isNaN_of_isFinite (isFinite_withSign_zero _)
  · simp

theorem fadd_le {x y w : F64} (hx : isFinite x = true) (hy : isFinite y = true) (hw : isFinite w = true)
    (h : fval x + fval y ≤ fval w) : fle (fadd x y) w = true := by
  rw [fadd_of_finite hx hy]
  split
  · rename_i h0
    rw [fle_iff_fval (not_isNaN_of_isFinite (isFinite_withSign_zero _)) (not_isNaN_of_isFinite hw),
      fval_withSign_zero]
    omega
  · refine ofUnits_le one_pos hw ?_
    rw [signed_natAbs]; simpa using h

theorem le_fadd {x y w : F64} (hx : isFinite x = true) (hy : isFinite y = true) (hw : isFinite w = true)
    (h : fval w ≤ fval x + fval y) : fle w (fadd x y) = true := by
  rw [fadd_of_finite hx hy]
  split
  · rename_i h0
    rw [fle_iff_fval (not_isNaN_of_isFinite hw) (not_isNaN_of_isFinite (isFinite_withSign_zero _)),
      fval_withSign_zero]
    omega
  · refine le_ofUnits one_pos hw ?_
    rw [signed_natAbs]; simpa using h

/-- A sum that is a binary64 other than zero is exact. -/
theorem fadd_exact {x y w : F64} (hx : isFinite x = true) (hy : isFinite y = true) (hw : isFinite w = true)
    (h0 : fval w ≠ 0) (h : fval x + fval y = fval w) : fadd x y = w := by
  rw [fadd_of_finite hx hy, if_neg (by omega)]
  refine ofUnits_exact one_pos hw h0 ?_
  rw [signed_natAbs]; simpa using h

/-- An exact zero sum is `+0` unless both operands are negative. -/
theorem fadd_zero_sum {x y : F64} (hx : isFinite x = true) (hy : isFinite y = true)
    (h : fval x + fval y = 0) : fadd x y = withSign (fsign x && fsign y) 0 := by
  rw [fadd_of_finite hx hy, if_pos h]

theorem isNaN_fsub {x y : F64} (hx : isFinite x = true) (hy : isFinite y = true) :
    isNaN (fsub x y) = false := isNaN_fadd hx (by simpa using hy)

theorem fsub_le {x y w : F64} (hx : isFinite x = true) (hy : isFinite y = true) (hw : isFinite w = true)
    (h : fval x - fval y ≤ fval w) : fle (fsub x y) w = true :=
  fadd_le hx (by simpa using hy) hw (by rw [fval_fneg]; omega)

theorem le_fsub {x y w : F64} (hx : isFinite x = true) (hy : isFinite y = true) (hw : isFinite w = true)
    (h : fval w ≤ fval x - fval y) : fle w (fsub x y) = true :=
  le_fadd hx (by simpa using hy) hw (by rw [fval_fneg]; omega)

theorem fsub_exact {x y w : F64} (hx : isFinite x = true) (hy : isFinite y = true) (hw : isFinite w = true)
    (h0 : fval w ≠ 0) (h : fval x - fval y = fval w) : fsub x y = w :=
  fadd_exact hx (by simpa using hy) hw h0 (by rw [fval_fneg]; omega)

/-- `x - x` is `+0`. -/
theorem fsub_self {x : F64} (hx : isFinite x = true) : fsub x x = fzero := by
  have h := fadd_zero_sum hx (y := fneg x) (by simpa using hx) (by rw [fval_fneg]; omega)
  rw [fsub, h, fsign_fneg]
  cases fsign x <;> rfl

/-! ## Multiplication -/

theorem fmul_of_finite {x y : F64} (hx : isFinite x = true) (hy : isFinite y = true) :
    fmul x y = ofUnits (fsign x != fsign y) (fmag x * fmag y) oneUnits := by
  unfold fmul
  simp only [not_isNaN_of_isFinite hx, not_isNaN_of_isFinite hy, not_isInf_of_isFinite hx,
    not_isInf_of_isFinite hy, Bool.or_self, Bool.false_eq_true, if_false]

theorem isNaN_fmul {x y : F64} (hx : isFinite x = true) (hy : isFinite y = true) :
    isNaN (fmul x y) = false := by rw [fmul_of_finite hx hy]; simp

theorem fmul_le {x y w : F64} (hx : isFinite x = true) (hy : isFinite y = true) (hw : isFinite w = true)
    (h : fval x * fval y ≤ fval w * oneUnits) : fle (fmul x y) w = true := by
  rw [fmul_of_finite hx hy]
  refine ofUnits_le oneUnits_pos hw ?_
  rw [signed_mul]; exact h

theorem le_fmul {x y w : F64} (hx : isFinite x = true) (hy : isFinite y = true) (hw : isFinite w = true)
    (h : fval w * oneUnits ≤ fval x * fval y) : fle w (fmul x y) = true := by
  rw [fmul_of_finite hx hy]
  refine le_ofUnits oneUnits_pos hw ?_
  rw [signed_mul]; exact h

/-- A product that is a binary64 other than zero is exact. -/
theorem fmul_exact {x y w : F64} (hx : isFinite x = true) (hy : isFinite y = true) (hw : isFinite w = true)
    (h0 : fval w ≠ 0) (h : fval x * fval y = fval w * oneUnits) : fmul x y = w := by
  rw [fmul_of_finite hx hy]
  refine ofUnits_exact oneUnits_pos hw h0 ?_
  rw [signed_mul]; exact h

/-- A product with a zero factor is a zero whose sign is the exclusive or of the signs. -/
theorem fmul_zero_factor {x y : F64} (hx : isFinite x = true) (hy : isFinite y = true)
    (h : fmag x = 0 ∨ fmag y = 0) : fmul x y = withSign (fsign x != fsign y) 0 := by
  rw [fmul_of_finite hx hy]
  have : fmag x * fmag y = 0 := by rcases h with h | h <;> rw [h] <;> simp
  rw [this]; unfold ofUnits; rw [roundBits_eq, roundRaw_zero, Nat.zero_min]

theorem fmul_comm_of_finite {x y : F64} (hx : isFinite x = true) (hy : isFinite y = true) :
    fmul x y = fmul y x := by
  rw [fmul_of_finite hx hy, fmul_of_finite hy hx, Nat.mul_comm]
  cases fsign x <;> cases fsign y <;> rfl

/-! ## Division -/

theorem fdiv_of_finite {x y : F64} (hx : isFinite x = true) (hy : isFinite y = true) (h0 : isZero y = false) :
    fdiv x y = ofUnits (fsign x != fsign y) (fmag x * oneUnits) (fmag y) := by
  unfold fdiv
  simp only [not_isNaN_of_isFinite hx, not_isNaN_of_isFinite hy, not_isInf_of_isFinite hx,
    not_isInf_of_isFinite hy, h0, Bool.or_self, Bool.false_eq_true, if_false]

theorem fmag_pos_of_not_isZero {y : F64} (h0 : isZero y = false) : 0 < fmag y := by
  rcases Nat.eq_zero_or_pos (fmag y) with h | h
  · rw [fmag_eq_zero] at h; simp [isZero, h] at h0
  · exact h

theorem isNaN_fdiv {x y : F64} (hx : isFinite x = true) (hy : isFinite y = true) (h0 : isZero y = false) :
    isNaN (fdiv x y) = false := by rw [fdiv_of_finite hx hy h0]; simp

/-- The quotient of a finite word by a positive one is not above a finite word that the exact quotient is not
above. -/
theorem fdiv_le {x y w : F64} (hx : isFinite x = true) (hy : isFinite y = true) (hpos : 0 < fval y)
    (hw : isFinite w = true) (h : fval x * oneUnits ≤ fval w * fval y) : fle (fdiv x y) w = true := by
  have hs : fsign y = false := by
    by_contra hc
    simp only [Bool.not_eq_false] at hc
    rw [fval_eq_signed, hc] at hpos; simp only [if_true] at hpos; omega
  have hv : fval y = fmag y := by rw [fval_eq_signed, hs]; rfl
  have h0 : isZero y = false := by
    cases hz : isZero y with
    | false => rfl
    | true => rw [isZero_iff, ← fmag_eq_zero] at hz; omega
  rw [fdiv_of_finite hx hy h0]
  refine ofUnits_le (fmag_pos_of_not_isZero h0) hw ?_
  rw [← hv, hs]
  rw [fval_eq_signed x] at h
  refine le_trans (le_of_eq ?_) h
  generalize oneUnits = U
  cases fsign x <;> simp

theorem le_fdiv {x y w : F64} (hx : isFinite x = true) (hy : isFinite y = true) (hpos : 0 < fval y)
    (hw : isFinite w = true) (h : fval w * fval y ≤ fval x * oneUnits) : fle w (fdiv x y) = true := by
  have hs : fsign y = false := by
    by_contra hc
    simp only [Bool.not_eq_false] at hc
    rw [fval_eq_signed, hc] at hpos; simp only [if_true] at hpos; omega
  have hv : fval y = fmag y := by rw [fval_eq_signed, hs]; rfl
  have h0 : isZero y = false := by
    cases hz : isZero y with
    | false => rfl
    | true => rw [isZero_iff, ← fmag_eq_zero] at hz; omega
  rw [fdiv_of_finite hx hy h0]
  refine le_ofUnits (fmag_pos_of_not_isZero h0) hw ?_
  rw [← hv, hs]
  rw [fval_eq_signed x] at h
  refine le_trans h (le_of_eq ?_)
  generalize oneUnits = U
  cases fsign x <;> simp

/-! ## Literals -/

theorem isFinite_fzero : isFinite fzero = true := by decide
theorem isFinite_fone : isFinite fone = true := by decide
theorem isFinite_ftwo : isFinite ftwo = true := by decide
theorem isFinite_ffour : isFinite ffour = true := by decide
theorem isFinite_fhalf : isFinite fhalf = true := by decide
@[simp] theorem fval_fzero : fval fzero = 0 := by decide
theorem fval_fone : fval fone = oneUnits := by decide +kernel
theorem fval_ftwo : fval ftwo = 2 * oneUnits := by decide +kernel
theorem fval_ffour : fval ffour = 4 * oneUnits := by decide +kernel
theorem fval_feight : fval feight = 8 * oneUnits := by decide +kernel
theorem fval_fhalf : 2 * fval fhalf = oneUnits := by decide +kernel

/-! ## The operand clamp (R15) -/

theorem inUnit_iff (x : F64) : inUnit x = true ↔ fle fzero x = true ∧ fle x fone = true := by
  simp [inUnit]

/-- The result of `clamp01` is in `[0, 1]` for every operand, a NaN included: `max(0, x)` keeps its first operand
where the comparison is false. -/
theorem inUnit_clamp01 (x : F64) : inUnit (clamp01 x) = true := by
  have hz : isNaN fzero = false := not_isNaN_of_isFinite isFinite_fzero
  have ho : isNaN fone = false := not_isNaN_of_isFinite isFinite_fone
  rw [inUnit_iff]
  exact ⟨le_fmin (by decide) (le_fmax_left hz), fmin_le_left ho⟩

theorem inUnit_controlOperand (a : F32) : inUnit (controlOperand a) = true := inUnit_clamp01 _

theorem isFinite_of_inUnit {x : F64} (h : inUnit x = true) : isFinite x = true := by
  rw [inUnit_iff] at h
  exact isFinite_of_between isFinite_fzero isFinite_fone h.1 h.2

theorem fval_of_inUnit {x : F64} (h : inUnit x = true) : 0 ≤ fval x ∧ fval x ≤ oneUnits := by
  have hf := not_isNaN_of_isFinite (isFinite_of_inUnit h)
  rw [inUnit_iff, fle_iff_fval (not_isNaN_of_isFinite isFinite_fzero) hf,
    fle_iff_fval hf (not_isNaN_of_isFinite isFinite_fone), fval_fzero, fval_fone] at h
  exact h

end Sys2Proof.Machine
end

