-- ==== Sys2Proof/Laws/State.lean ====
section
/-! SUPPORT. One lemma per field per update, so that no later proof unfolds a record update. -/

namespace Sys2Proof.Machine

open Sys2Proof.Config

variable {S : Nat}

/-! ## The machine's state -/

@[simp] theorem respond_unit (c : Nat) (d : BitVec 64) (s : State) : (respond c d s).unit = s.unit := rfl
@[simp] theorem respond_statusFault (c : Nat) (d : BitVec 64) (s : State) : (respond c d s).statusFault = s.statusFault := rfl
@[simp] theorem respond_input (c : Nat) (d : BitVec 64) (s : State) : (respond c d s).input = s.input := rfl
@[simp] theorem respond_responses (c : Nat) (d : BitVec 64) (s : State) : (respond c d s).responses = responseWord c d :: s.responses := rfl

@[simp] theorem raise_unit (c : Cause) (s : State) : (raise c s).unit = s.unit := rfl
@[simp] theorem raise_statusFault (c : Cause) (s : State) : (raise c s).statusFault = setFaultBit s.statusFault c := rfl
@[simp] theorem raise_input (c : Cause) (s : State) : (raise c s).input = s.input := rfl
@[simp] theorem raise_responses (c : Cause) (s : State) : (raise c s).responses = responseWord c.code 0#64 :: s.responses := rfl

@[simp] theorem hardwareReset_unit  (s : State) : (hardwareReset s).unit = none := rfl
@[simp] theorem hardwareReset_statusFault  (s : State) : (hardwareReset s).statusFault = 0#8 := rfl
@[simp] theorem hardwareReset_input  (s : State) : (hardwareReset s).input = s.input := rfl
@[simp] theorem hardwareReset_responses  (s : State) : (hardwareReset s).responses = s.responses := rfl

@[simp] theorem withFetchWord_unit (s : State) (nbits w : Nat) :
    (s.withFetchWord nbits w).unit = s.unit := rfl
@[simp] theorem withFetchWord_statusFault (s : State) (nbits w : Nat) :
    (s.withFetchWord nbits w).statusFault = s.statusFault := rfl
@[simp] theorem withFetchWord_input (s : State) (nbits w : Nat) :
    (s.withFetchWord nbits w).input = .command (tableWord nbits w) :: s.input := rfl
@[simp] theorem withFetchWord_responses (s : State) (nbits w : Nat) :
    (s.withFetchWord nbits w).responses = s.responses := rfl

@[simp] theorem reset_unit : State.reset.unit = none := rfl
@[simp] theorem reset_statusFault : State.reset.statusFault = 0#8 := rfl
@[simp] theorem reset_input : State.reset.input = [] := rfl
@[simp] theorem reset_responses : State.reset.responses = [] := rfl

/-! ## The registers -/

@[simp] theorem lfoSetRate_vowel (hz : F64) (u : Regs S) : (lfoSetRate hz u).vowel = u.vowel := rfl
@[simp] theorem lfoSetRate_tempVowel (hz : F64) (u : Regs S) : (lfoSetRate hz u).tempVowel = u.tempVowel := rfl
@[simp] theorem lfoSetRate_hasLfo (hz : F64) (u : Regs S) : (lfoSetRate hz u).hasLfo = u.hasLfo := rfl
@[simp] theorem lfoSetRate_lfoDepth (hz : F64) (u : Regs S) : (lfoSetRate hz u).lfoDepth = u.lfoDepth := rfl
@[simp] theorem lfoSetRate_lfoRange (hz : F64) (u : Regs S) : (lfoSetRate hz u).lfoRange = u.lfoRange := rfl
@[simp] theorem lfoSetRate_lfoMin (hz : F64) (u : Regs S) : (lfoSetRate hz u).lfoMin = u.lfoMin := rfl
@[simp] theorem lfoSetRate_lfoMax (hz : F64) (u : Regs S) : (lfoSetRate hz u).lfoMax = u.lfoMax := rfl
@[simp] theorem lfoSetRate_phase (hz : F64) (u : Regs S) : (lfoSetRate hz u).phase = u.phase := rfl
@[simp] theorem lfoSetRate_srate (hz : F64) (u : Regs S) : (lfoSetRate hz u).srate = u.srate := rfl
@[simp] theorem lfoSetRate_coeffOffset (hz : F64) (u : Regs S) : (lfoSetRate hz u).coeffOffset = u.coeffOffset := rfl
@[simp] theorem lfoSetRate_lphase (hz : F64) (u : Regs S) : (lfoSetRate hz u).lphase = u.lphase := rfl
@[simp] theorem lfoSetRate_lrate (hz : F64) (u : Regs S) : (lfoSetRate hz u).lrate = hz := rfl
@[simp] theorem lfoSetRate_aval (hz : F64) (u : Regs S) : (lfoSetRate hz u).aval = u.aval := rfl
@[simp] theorem lfoSetRate_fval (hz : F64) (u : Regs S) : (lfoSetRate hz u).fval = u.fval := rfl
@[simp] theorem lfoSetRate_envs (hz : F64) (u : Regs S) : (lfoSetRate hz u).envs = u.envs := rfl
@[simp] theorem lfoSetRate_dyn (hz : F64) (u : Regs S) : (lfoSetRate hz u).dyn = u.dyn := rfl
@[simp] theorem lfoSetRate_tf (hz : F64) (u : Regs S) : (lfoSetRate hz u).tf = u.tf := rfl

theorem lfoPeek_fields (p : Params) (u : Regs S) :
    ((lfoPeek p u).2).vowel = u.vowel ∧
    ((lfoPeek p u).2).tempVowel = u.tempVowel ∧
    ((lfoPeek p u).2).hasLfo = u.hasLfo ∧
    ((lfoPeek p u).2).lfoDepth = u.lfoDepth ∧
    ((lfoPeek p u).2).lfoRange = u.lfoRange ∧
    ((lfoPeek p u).2).lfoMin = u.lfoMin ∧
    ((lfoPeek p u).2).lfoMax = u.lfoMax ∧
    ((lfoPeek p u).2).phase = u.phase ∧
    ((lfoPeek p u).2).srate = u.srate ∧
    ((lfoPeek p u).2).coeffOffset = u.coeffOffset ∧
    ((lfoPeek p u).2).lphase = lfoNextPhase u.lphase u.lrate u.srate ∧
    ((lfoPeek p u).2).lrate = u.lrate ∧
    ((lfoPeek p u).2).aval = u.aval ∧
    ((lfoPeek p u).2).fval = u.fval ∧
    ((lfoPeek p u).2).envs = u.envs ∧
    ((lfoPeek p u).2).dyn = u.dyn ∧
    ((lfoPeek p u).2).tf = u.tf := by
  refine ⟨?_, ?_, ?_, ?_, ?_, ?_, ?_, ?_, ?_, ?_, ?_, ?_, ?_, ?_, ?_, ?_, ?_⟩ <;> rw [lfoPeek]

@[simp] theorem lfoPeek_vowel (p : Params) (u : Regs S) :
    ((lfoPeek p u).2).vowel = u.vowel := (lfoPeek_fields p u).1
@[simp] theorem lfoPeek_tempVowel (p : Params) (u : Regs S) :
    ((lfoPeek p u).2).tempVowel = u.tempVowel := (lfoPeek_fields p u).2.1
@[simp] theorem lfoPeek_hasLfo (p : Params) (u : Regs S) :
    ((lfoPeek p u).2).hasLfo = u.hasLfo := (lfoPeek_fields p u).2.2.1
@[simp] theorem lfoPeek_lfoDepth (p : Params) (u : Regs S) :
    ((lfoPeek p u).2).lfoDepth = u.lfoDepth := (lfoPeek_fields p u).2.2.2.1
@[simp] theorem lfoPeek_lfoRange (p : Params) (u : Regs S) :
    ((lfoPeek p u).2).lfoRange = u.lfoRange := (lfoPeek_fields p u).2.2.2.2.1
@[simp] theorem lfoPeek_lfoMin (p : Params) (u : Regs S) :
    ((lfoPeek p u).2).lfoMin = u.lfoMin := (lfoPeek_fields p u).2.2.2.2.2.1
@[simp] theorem lfoPeek_lfoMax (p : Params) (u : Regs S) :
    ((lfoPeek p u).2).lfoMax = u.lfoMax := (lfoPeek_fields p u).2.2.2.2.2.2.1
@[simp] theorem lfoPeek_phase (p : Params) (u : Regs S) :
    ((lfoPeek p u).2).phase = u.phase := (lfoPeek_fields p u).2.2.2.2.2.2.2.1
@[simp] theorem lfoPeek_srate (p : Params) (u : Regs S) :
    ((lfoPeek p u).2).srate = u.srate := (lfoPeek_fields p u).2.2.2.2.2.2.2.2.1
@[simp] theorem lfoPeek_coeffOffset (p : Params) (u : Regs S) :
    ((lfoPeek p u).2).coeffOffset = u.coeffOffset := (lfoPeek_fields p u).2.2.2.2.2.2.2.2.2.1
@[simp] theorem lfoPeek_lphase (p : Params) (u : Regs S) :
    ((lfoPeek p u).2).lphase = lfoNextPhase u.lphase u.lrate u.srate := (lfoPeek_fields p u).2.2.2.2.2.2.2.2.2.2.1
@[simp] theorem lfoPeek_lrate (p : Params) (u : Regs S) :
    ((lfoPeek p u).2).lrate = u.lrate := (lfoPeek_fields p u).2.2.2.2.2.2.2.2.2.2.2.1
@[simp] theorem lfoPeek_aval (p : Params) (u : Regs S) :
    ((lfoPeek p u).2).aval = u.aval := (lfoPeek_fields p u).2.2.2.2.2.2.2.2.2.2.2.2.1
@[simp] theorem lfoPeek_fval (p : Params) (u : Regs S) :
    ((lfoPeek p u).2).fval = u.fval := (lfoPeek_fields p u).2.2.2.2.2.2.2.2.2.2.2.2.2.1
@[simp] theorem lfoPeek_envs (p : Params) (u : Regs S) :
    ((lfoPeek p u).2).envs = u.envs := (lfoPeek_fields p u).2.2.2.2.2.2.2.2.2.2.2.2.2.2.1
@[simp] theorem lfoPeek_dyn (p : Params) (u : Regs S) :
    ((lfoPeek p u).2).dyn = u.dyn := (lfoPeek_fields p u).2.2.2.2.2.2.2.2.2.2.2.2.2.2.2.1
@[simp] theorem lfoPeek_tf (p : Params) (u : Regs S) :
    ((lfoPeek p u).2).tf = u.tf := (lfoPeek_fields p u).2.2.2.2.2.2.2.2.2.2.2.2.2.2.2.2

@[simp] theorem lfoPeek_value (p : Params) (u : Regs S) : (lfoPeek p u).1 = p.lfoWave u.lphase := rfl

theorem setLfoRate_fields (p : Params) (rp : F32) (u : Regs S) :
    (setLfoRate p rp u).vowel = u.vowel ∧
    (setLfoRate p rp u).tempVowel = u.tempVowel ∧
    (setLfoRate p rp u).hasLfo = lfoEnables rp ∧
    (setLfoRate p rp u).lfoDepth = u.lfoDepth ∧
    (setLfoRate p rp u).lfoRange = u.lfoRange ∧
    (setLfoRate p rp u).lfoMin = u.lfoMin ∧
    (setLfoRate p rp u).lfoMax = u.lfoMax ∧
    (setLfoRate p rp u).phase = u.phase ∧
    (setLfoRate p rp u).srate = u.srate ∧
    (setLfoRate p rp u).coeffOffset = u.coeffOffset ∧
    (setLfoRate p rp u).lphase = u.lphase ∧
    (setLfoRate p rp u).lrate = rateMap p (controlOperand rp) ∧
    (setLfoRate p rp u).aval = u.aval ∧
    (setLfoRate p rp u).fval = u.fval ∧
    (setLfoRate p rp u).envs = u.envs ∧
    (setLfoRate p rp u).dyn = u.dyn ∧
    (setLfoRate p rp u).tf = u.tf := by
  refine ⟨?_, ?_, ?_, ?_, ?_, ?_, ?_, ?_, ?_, ?_, ?_, ?_, ?_, ?_, ?_, ?_, ?_⟩ <;> rw [setLfoRate, lfoSetRate]

@[simp] theorem setLfoRate_vowel (p : Params) (rp : F32) (u : Regs S) :
    (setLfoRate p rp u).vowel = u.vowel := (setLfoRate_fields p rp u).1
@[simp] theorem setLfoRate_tempVowel (p : Params) (rp : F32) (u : Regs S) :
    (setLfoRate p rp u).tempVowel = u.tempVowel := (setLfoRate_fields p rp u).2.1
@[simp] theorem setLfoRate_hasLfo (p : Params) (rp : F32) (u : Regs S) :
    (setLfoRate p rp u).hasLfo = lfoEnables rp := (setLfoRate_fields p rp u).2.2.1
@[simp] theorem setLfoRate_lfoDepth (p : Params) (rp : F32) (u : Regs S) :
    (setLfoRate p rp u).lfoDepth = u.lfoDepth := (setLfoRate_fields p rp u).2.2.2.1
@[simp] theorem setLfoRate_lfoRange (p : Params) (rp : F32) (u : Regs S) :
    (setLfoRate p rp u).lfoRange = u.lfoRange := (setLfoRate_fields p rp u).2.2.2.2.1
@[simp] theorem setLfoRate_lfoMin (p : Params) (rp : F32) (u : Regs S) :
    (setLfoRate p rp u).lfoMin = u.lfoMin := (setLfoRate_fields p rp u).2.2.2.2.2.1
@[simp] theorem setLfoRate_lfoMax (p : Params) (rp : F32) (u : Regs S) :
    (setLfoRate p rp u).lfoMax = u.lfoMax := (setLfoRate_fields p rp u).2.2.2.2.2.2.1
@[simp] theorem setLfoRate_phase (p : Params) (rp : F32) (u : Regs S) :
    (setLfoRate p rp u).phase = u.phase := (setLfoRate_fields p rp u).2.2.2.2.2.2.2.1
@[simp] theorem setLfoRate_srate (p : Params) (rp : F32) (u : Regs S) :
    (setLfoRate p rp u).srate = u.srate := (setLfoRate_fields p rp u).2.2.2.2.2.2.2.2.1
@[simp] theorem setLfoRate_coeffOffset (p : Params) (rp : F32) (u : Regs S) :
    (setLfoRate p rp u).coeffOffset = u.coeffOffset := (setLfoRate_fields p rp u).2.2.2.2.2.2.2.2.2.1
@[simp] theorem setLfoRate_lphase (p : Params) (rp : F32) (u : Regs S) :
    (setLfoRate p rp u).lphase = u.lphase := (setLfoRate_fields p rp u).2.2.2.2.2.2.2.2.2.2.1
@[simp] theorem setLfoRate_lrate (p : Params) (rp : F32) (u : Regs S) :
    (setLfoRate p rp u).lrate = rateMap p (controlOperand rp) := (setLfoRate_fields p rp u).2.2.2.2.2.2.2.2.2.2.2.1
@[simp] theorem setLfoRate_aval (p : Params) (rp : F32) (u : Regs S) :
    (setLfoRate p rp u).aval = u.aval := (setLfoRate_fields p rp u).2.2.2.2.2.2.2.2.2.2.2.2.1
@[simp] theorem setLfoRate_fval (p : Params) (rp : F32) (u : Regs S) :
    (setLfoRate p rp u).fval = u.fval := (setLfoRate_fields p rp u).2.2.2.2.2.2.2.2.2.2.2.2.2.1
@[simp] theorem setLfoRate_envs (p : Params) (rp : F32) (u : Regs S) :
    (setLfoRate p rp u).envs = u.envs := (setLfoRate_fields p rp u).2.2.2.2.2.2.2.2.2.2.2.2.2.2.1
@[simp] theorem setLfoRate_dyn (p : Params) (rp : F32) (u : Regs S) :
    (setLfoRate p rp u).dyn = u.dyn := (setLfoRate_fields p rp u).2.2.2.2.2.2.2.2.2.2.2.2.2.2.2.1
@[simp] theorem setLfoRate_tf (p : Params) (rp : F32) (u : Regs S) :
    (setLfoRate p rp u).tf = u.tf := (setLfoRate_fields p rp u).2.2.2.2.2.2.2.2.2.2.2.2.2.2.2.2

theorem cacheLfo_fields (u : Regs S) :
    (cacheLfo u).vowel = u.vowel ∧
    (cacheLfo u).tempVowel = u.tempVowel ∧
    (cacheLfo u).hasLfo = u.hasLfo ∧
    (cacheLfo u).lfoDepth = u.lfoDepth ∧
    (cacheLfo u).lfoRange = fmul u.vowel (if u.hasLfo then u.lfoDepth else fzero) ∧
    (cacheLfo u).lfoMin = fmax fzero (fsub u.vowel (fdiv (fmul u.vowel (if u.hasLfo then u.lfoDepth else fzero)) ftwo)) ∧
    (cacheLfo u).lfoMax = fmin fone (fadd u.vowel (fdiv (fmul u.vowel (if u.hasLfo then u.lfoDepth else fzero)) ftwo)) ∧
    (cacheLfo u).phase = u.phase ∧
    (cacheLfo u).srate = u.srate ∧
    (cacheLfo u).coeffOffset = u.coeffOffset ∧
    (cacheLfo u).lphase = u.lphase ∧
    (cacheLfo u).lrate = u.lrate ∧
    (cacheLfo u).aval = u.aval ∧
    (cacheLfo u).fval = u.fval ∧
    (cacheLfo u).envs = u.envs ∧
    (cacheLfo u).dyn = u.dyn ∧
    (cacheLfo u).tf = u.tf := by
  refine ⟨?_, ?_, ?_, ?_, ?_, ?_, ?_, ?_, ?_, ?_, ?_, ?_, ?_, ?_, ?_, ?_, ?_⟩ <;> rw [cacheLfo]

@[simp] theorem cacheLfo_vowel (u : Regs S) :
    (cacheLfo u).vowel = u.vowel := (cacheLfo_fields u).1
@[simp] theorem cacheLfo_tempVowel (u : Regs S) :
    (cacheLfo u).tempVowel = u.tempVowel := (cacheLfo_fields u).2.1
@[simp] theorem cacheLfo_hasLfo (u : Regs S) :
    (cacheLfo u).hasLfo = u.hasLfo := (cacheLfo_fields u).2.2.1
@[simp] theorem cacheLfo_lfoDepth (u : Regs S) :
    (cacheLfo u).lfoDepth = u.lfoDepth := (cacheLfo_fields u).2.2.2.1
@[simp] theorem cacheLfo_lfoRange (u : Regs S) :
    (cacheLfo u).lfoRange = fmul u.vowel (if u.hasLfo then u.lfoDepth else fzero) := (cacheLfo_fields u).2.2.2.2.1
@[simp] theorem cacheLfo_lfoMin (u : Regs S) :
    (cacheLfo u).lfoMin = fmax fzero (fsub u.vowel (fdiv (fmul u.vowel (if u.hasLfo then u.lfoDepth else fzero)) ftwo)) := (cacheLfo_fields u).2.2.2.2.2.1
@[simp] theorem cacheLfo_lfoMax (u : Regs S) :
    (cacheLfo u).lfoMax = fmin fone (fadd u.vowel (fdiv (fmul u.vowel (if u.hasLfo then u.lfoDepth else fzero)) ftwo)) := (cacheLfo_fields u).2.2.2.2.2.2.1
@[simp] theorem cacheLfo_phase (u : Regs S) :
    (cacheLfo u).phase = u.phase := (cacheLfo_fields u).2.2.2.2.2.2.2.1
@[simp] theorem cacheLfo_srate (u : Regs S) :
    (cacheLfo u).srate = u.srate := (cacheLfo_fields u).2.2.2.2.2.2.2.2.1
@[simp] theorem cacheLfo_coeffOffset (u : Regs S) :
    (cacheLfo u).coeffOffset = u.coeffOffset := (cacheLfo_fields u).2.2.2.2.2.2.2.2.2.1
@[simp] theorem cacheLfo_lphase (u : Regs S) :
    (cacheLfo u).lphase = u.lphase := (cacheLfo_fields u).2.2.2.2.2.2.2.2.2.2.1
@[simp] theorem cacheLfo_lrate (u : Regs S) :
    (cacheLfo u).lrate = u.lrate := (cacheLfo_fields u).2.2.2.2.2.2.2.2.2.2.2.1
@[simp] theorem cacheLfo_aval (u : Regs S) :
    (cacheLfo u).aval = u.aval := (cacheLfo_fields u).2.2.2.2.2.2.2.2.2.2.2.2.1
@[simp] theorem cacheLfo_fval (u : Regs S) :
    (cacheLfo u).fval = u.fval := (cacheLfo_fields u).2.2.2.2.2.2.2.2.2.2.2.2.2.1
@[simp] theorem cacheLfo_envs (u : Regs S) :
    (cacheLfo u).envs = u.envs := (cacheLfo_fields u).2.2.2.2.2.2.2.2.2.2.2.2.2.2.1
@[simp] theorem cacheLfo_dyn (u : Regs S) :
    (cacheLfo u).dyn = u.dyn := (cacheLfo_fields u).2.2.2.2.2.2.2.2.2.2.2.2.2.2.2.1
@[simp] theorem cacheLfo_tf (u : Regs S) :
    (cacheLfo u).tf = u.tf := (cacheLfo_fields u).2.2.2.2.2.2.2.2.2.2.2.2.2.2.2.2

/-- The cached bounds depend on the vowel, the depth and the enable alone, so caching them twice changes nothing. -/
theorem cacheLfo_idem (u : Regs S) : cacheLfo (cacheLfo u) = cacheLfo u := by
  rw [cacheLfo, cacheLfo]

@[simp] theorem retrack_vowel (u : Regs S) : (retrack u).vowel = u.vowel := rfl
@[simp] theorem retrack_tempVowel (u : Regs S) :
    (retrack u).tempVowel = if u.hasLfo then fmin u.lfoMax (fmax u.lfoMin u.tempVowel) else u.vowel := rfl
@[simp] theorem retrack_hasLfo (u : Regs S) : (retrack u).hasLfo = u.hasLfo := rfl
@[simp] theorem retrack_lfoDepth (u : Regs S) : (retrack u).lfoDepth = u.lfoDepth := rfl
@[simp] theorem retrack_lfoRange (u : Regs S) : (retrack u).lfoRange = u.lfoRange := rfl
@[simp] theorem retrack_lfoMin (u : Regs S) : (retrack u).lfoMin = u.lfoMin := rfl
@[simp] theorem retrack_lfoMax (u : Regs S) : (retrack u).lfoMax = u.lfoMax := rfl
@[simp] theorem retrack_phase (u : Regs S) : (retrack u).phase = u.phase := rfl
@[simp] theorem retrack_srate (u : Regs S) : (retrack u).srate = u.srate := rfl
@[simp] theorem retrack_coeffOffset (u : Regs S) : (retrack u).coeffOffset = u.coeffOffset := rfl
@[simp] theorem retrack_lphase (u : Regs S) : (retrack u).lphase = u.lphase := rfl
@[simp] theorem retrack_lrate (u : Regs S) : (retrack u).lrate = u.lrate := rfl
@[simp] theorem retrack_aval (u : Regs S) : (retrack u).aval = u.aval := rfl
@[simp] theorem retrack_fval (u : Regs S) : (retrack u).fval = u.fval := rfl
@[simp] theorem retrack_envs (u : Regs S) : (retrack u).envs = u.envs := rfl
@[simp] theorem retrack_dyn (u : Regs S) : (retrack u).dyn = u.dyn := rfl
@[simp] theorem retrack_tf (u : Regs S) : (retrack u).tf = u.tf := rfl

theorem processPhase_fields (f0 : F64) (u : Regs S) :
    (processPhase f0 u).vowel = u.vowel ∧
    (processPhase f0 u).tempVowel = u.tempVowel ∧
    (processPhase f0 u).hasLfo = u.hasLfo ∧
    (processPhase f0 u).lfoDepth = u.lfoDepth ∧
    (processPhase f0 u).lfoRange = u.lfoRange ∧
    (processPhase f0 u).lfoMin = u.lfoMin ∧
    (processPhase f0 u).lfoMax = u.lfoMax ∧
    (processPhase f0 u).phase = nextPhase f0 u.srate u.phase ∧
    (processPhase f0 u).srate = u.srate ∧
    (processPhase f0 u).coeffOffset = u.coeffOffset ∧
    (processPhase f0 u).lphase = u.lphase ∧
    (processPhase f0 u).lrate = u.lrate ∧
    (processPhase f0 u).aval = u.aval ∧
    (processPhase f0 u).fval = u.fval ∧
    (processPhase f0 u).envs = u.envs ∧
    (processPhase f0 u).dyn = u.dyn ∧
    (processPhase f0 u).tf = u.tf := by
  refine ⟨?_, ?_, ?_, ?_, ?_, ?_, ?_, ?_, ?_, ?_, ?_, ?_, ?_, ?_, ?_, ?_, ?_⟩ <;> rw [processPhase]

@[simp] theorem processPhase_vowel (f0 : F64) (u : Regs S) :
    (processPhase f0 u).vowel = u.vowel := (processPhase_fields f0 u).1
@[simp] theorem processPhase_tempVowel (f0 : F64) (u : Regs S) :
    (processPhase f0 u).tempVowel = u.tempVowel := (processPhase_fields f0 u).2.1
@[simp] theorem processPhase_hasLfo (f0 : F64) (u : Regs S) :
    (processPhase f0 u).hasLfo = u.hasLfo := (processPhase_fields f0 u).2.2.1
@[simp] theorem processPhase_lfoDepth (f0 : F64) (u : Regs S) :
    (processPhase f0 u).lfoDepth = u.lfoDepth := (processPhase_fields f0 u).2.2.2.1
@[simp] theorem processPhase_lfoRange (f0 : F64) (u : Regs S) :
    (processPhase f0 u).lfoRange = u.lfoRange := (processPhase_fields f0 u).2.2.2.2.1
@[simp] theorem processPhase_lfoMin (f0 : F64) (u : Regs S) :
    (processPhase f0 u).lfoMin = u.lfoMin := (processPhase_fields f0 u).2.2.2.2.2.1
@[simp] theorem processPhase_lfoMax (f0 : F64) (u : Regs S) :
    (processPhase f0 u).lfoMax = u.lfoMax := (processPhase_fields f0 u).2.2.2.2.2.2.1
@[simp] theorem processPhase_phase (f0 : F64) (u : Regs S) :
    (processPhase f0 u).phase = nextPhase f0 u.srate u.phase := (processPhase_fields f0 u).2.2.2.2.2.2.2.1
@[simp] theorem processPhase_srate (f0 : F64) (u : Regs S) :
    (processPhase f0 u).srate = u.srate := (processPhase_fields f0 u).2.2.2.2.2.2.2.2.1
@[simp] theorem processPhase_coeffOffset (f0 : F64) (u : Regs S) :
    (processPhase f0 u).coeffOffset = u.coeffOffset := (processPhase_fields f0 u).2.2.2.2.2.2.2.2.2.1
@[simp] theorem processPhase_lphase (f0 : F64) (u : Regs S) :
    (processPhase f0 u).lphase = u.lphase := (processPhase_fields f0 u).2.2.2.2.2.2.2.2.2.2.1
@[simp] theorem processPhase_lrate (f0 : F64) (u : Regs S) :
    (processPhase f0 u).lrate = u.lrate := (processPhase_fields f0 u).2.2.2.2.2.2.2.2.2.2.2.1
@[simp] theorem processPhase_aval (f0 : F64) (u : Regs S) :
    (processPhase f0 u).aval = u.aval := (processPhase_fields f0 u).2.2.2.2.2.2.2.2.2.2.2.2.1
@[simp] theorem processPhase_fval (f0 : F64) (u : Regs S) :
    (processPhase f0 u).fval = u.fval := (processPhase_fields f0 u).2.2.2.2.2.2.2.2.2.2.2.2.2.1
@[simp] theorem processPhase_envs (f0 : F64) (u : Regs S) :
    (processPhase f0 u).envs = u.envs := (processPhase_fields f0 u).2.2.2.2.2.2.2.2.2.2.2.2.2.2.1
@[simp] theorem processPhase_dyn (f0 : F64) (u : Regs S) :
    (processPhase f0 u).dyn = u.dyn := (processPhase_fields f0 u).2.2.2.2.2.2.2.2.2.2.2.2.2.2.2.1
@[simp] theorem processPhase_tf (f0 : F64) (u : Regs S) :
    (processPhase f0 u).tf = u.tf := (processPhase_fields f0 u).2.2.2.2.2.2.2.2.2.2.2.2.2.2.2.2

theorem smooth_fields (p : Params) (s : Fin p.slotCount) (u : Regs p.slotCount) :
    (smooth p s u).vowel = u.vowel ∧
    (smooth p s u).tempVowel = u.tempVowel ∧
    (smooth p s u).hasLfo = u.hasLfo ∧
    (smooth p s u).lfoDepth = u.lfoDepth ∧
    (smooth p s u).lfoRange = u.lfoRange ∧
    (smooth p s u).lfoMin = u.lfoMin ∧
    (smooth p s u).lfoMax = u.lfoMax ∧
    (smooth p s u).phase = u.phase ∧
    (smooth p s u).srate = u.srate ∧
    (smooth p s u).coeffOffset = u.coeffOffset ∧
    (smooth p s u).lphase = u.lphase ∧
    (smooth p s u).lrate = u.lrate ∧
    (smooth p s u).aval = (u.aval.set s.val (smoothed p (u.aval.get s) (ampTarget p s u.coeffOffset))) ∧
    (smooth p s u).fval = (u.fval.set s.val (smoothed p (u.fval.get s) (freqTarget p s u.coeffOffset))) ∧
    (smooth p s u).envs = u.envs ∧
    (smooth p s u).dyn = u.dyn ∧
    (smooth p s u).tf = u.tf := by
  refine ⟨?_, ?_, ?_, ?_, ?_, ?_, ?_, ?_, ?_, ?_, ?_, ?_, ?_, ?_, ?_, ?_, ?_⟩ <;> rw [smooth]

@[simp] theorem smooth_vowel (p : Params) (s : Fin p.slotCount) (u : Regs p.slotCount) :
    (smooth p s u).vowel = u.vowel := (smooth_fields p s u).1
@[simp] theorem smooth_tempVowel (p : Params) (s : Fin p.slotCount) (u : Regs p.slotCount) :
    (smooth p s u).tempVowel = u.tempVowel := (smooth_fields p s u).2.1
@[simp] theorem smooth_hasLfo (p : Params) (s : Fin p.slotCount) (u : Regs p.slotCount) :
    (smooth p s u).hasLfo = u.hasLfo := (smooth_fields p s u).2.2.1
@[simp] theorem smooth_lfoDepth (p : Params) (s : Fin p.slotCount) (u : Regs p.slotCount) :
    (smooth p s u).lfoDepth = u.lfoDepth := (smooth_fields p s u).2.2.2.1
@[simp] theorem smooth_lfoRange (p : Params) (s : Fin p.slotCount) (u : Regs p.slotCount) :
    (smooth p s u).lfoRange = u.lfoRange := (smooth_fields p s u).2.2.2.2.1
@[simp] theorem smooth_lfoMin (p : Params) (s : Fin p.slotCount) (u : Regs p.slotCount) :
    (smooth p s u).lfoMin = u.lfoMin := (smooth_fields p s u).2.2.2.2.2.1
@[simp] theorem smooth_lfoMax (p : Params) (s : Fin p.slotCount) (u : Regs p.slotCount) :
    (smooth p s u).lfoMax = u.lfoMax := (smooth_fields p s u).2.2.2.2.2.2.1
@[simp] theorem smooth_phase (p : Params) (s : Fin p.slotCount) (u : Regs p.slotCount) :
    (smooth p s u).phase = u.phase := (smooth_fields p s u).2.2.2.2.2.2.2.1
@[simp] theorem smooth_srate (p : Params) (s : Fin p.slotCount) (u : Regs p.slotCount) :
    (smooth p s u).srate = u.srate := (smooth_fields p s u).2.2.2.2.2.2.2.2.1
@[simp] theorem smooth_coeffOffset (p : Params) (s : Fin p.slotCount) (u : Regs p.slotCount) :
    (smooth p s u).coeffOffset = u.coeffOffset := (smooth_fields p s u).2.2.2.2.2.2.2.2.2.1
@[simp] theorem smooth_lphase (p : Params) (s : Fin p.slotCount) (u : Regs p.slotCount) :
    (smooth p s u).lphase = u.lphase := (smooth_fields p s u).2.2.2.2.2.2.2.2.2.2.1
@[simp] theorem smooth_lrate (p : Params) (s : Fin p.slotCount) (u : Regs p.slotCount) :
    (smooth p s u).lrate = u.lrate := (smooth_fields p s u).2.2.2.2.2.2.2.2.2.2.2.1
@[simp] theorem smooth_aval (p : Params) (s : Fin p.slotCount) (u : Regs p.slotCount) :
    (smooth p s u).aval = (u.aval.set s.val (smoothed p (u.aval.get s) (ampTarget p s u.coeffOffset))) := (smooth_fields p s u).2.2.2.2.2.2.2.2.2.2.2.2.1
@[simp] theorem smooth_fval (p : Params) (s : Fin p.slotCount) (u : Regs p.slotCount) :
    (smooth p s u).fval = (u.fval.set s.val (smoothed p (u.fval.get s) (freqTarget p s u.coeffOffset))) := (smooth_fields p s u).2.2.2.2.2.2.2.2.2.2.2.2.2.1
@[simp] theorem smooth_envs (p : Params) (s : Fin p.slotCount) (u : Regs p.slotCount) :
    (smooth p s u).envs = u.envs := (smooth_fields p s u).2.2.2.2.2.2.2.2.2.2.2.2.2.2.1
@[simp] theorem smooth_dyn (p : Params) (s : Fin p.slotCount) (u : Regs p.slotCount) :
    (smooth p s u).dyn = u.dyn := (smooth_fields p s u).2.2.2.2.2.2.2.2.2.2.2.2.2.2.2.1
@[simp] theorem smooth_tf (p : Params) (s : Fin p.slotCount) (u : Regs p.slotCount) :
    (smooth p s u).tf = u.tf := (smooth_fields p s u).2.2.2.2.2.2.2.2.2.2.2.2.2.2.2.2

theorem processDyn_fields (out : F64) (u : Regs S) :
    ((processDyn out u).1).vowel = u.vowel ∧
    ((processDyn out u).1).tempVowel = u.tempVowel ∧
    ((processDyn out u).1).hasLfo = u.hasLfo ∧
    ((processDyn out u).1).lfoDepth = u.lfoDepth ∧
    ((processDyn out u).1).lfoRange = u.lfoRange ∧
    ((processDyn out u).1).lfoMin = u.lfoMin ∧
    ((processDyn out u).1).lfoMax = u.lfoMax ∧
    ((processDyn out u).1).phase = u.phase ∧
    ((processDyn out u).1).srate = u.srate ∧
    ((processDyn out u).1).coeffOffset = u.coeffOffset ∧
    ((processDyn out u).1).lphase = u.lphase ∧
    ((processDyn out u).1).lrate = u.lrate ∧
    ((processDyn out u).1).aval = u.aval ∧
    ((processDyn out u).1).fval = u.fval ∧
    ((processDyn out u).1).envs = (dyn u.dyn u.envs out).2 ∧
    ((processDyn out u).1).dyn = u.dyn ∧
    ((processDyn out u).1).tf = u.tf := by
  refine ⟨?_, ?_, ?_, ?_, ?_, ?_, ?_, ?_, ?_, ?_, ?_, ?_, ?_, ?_, ?_, ?_, ?_⟩ <;> rw [processDyn]

@[simp] theorem processDyn_vowel (out : F64) (u : Regs S) :
    ((processDyn out u).1).vowel = u.vowel := (processDyn_fields out u).1
@[simp] theorem processDyn_tempVowel (out : F64) (u : Regs S) :
    ((processDyn out u).1).tempVowel = u.tempVowel := (processDyn_fields out u).2.1
@[simp] theorem processDyn_hasLfo (out : F64) (u : Regs S) :
    ((processDyn out u).1).hasLfo = u.hasLfo := (processDyn_fields out u).2.2.1
@[simp] theorem processDyn_lfoDepth (out : F64) (u : Regs S) :
    ((processDyn out u).1).lfoDepth = u.lfoDepth := (processDyn_fields out u).2.2.2.1
@[simp] theorem processDyn_lfoRange (out : F64) (u : Regs S) :
    ((processDyn out u).1).lfoRange = u.lfoRange := (processDyn_fields out u).2.2.2.2.1
@[simp] theorem processDyn_lfoMin (out : F64) (u : Regs S) :
    ((processDyn out u).1).lfoMin = u.lfoMin := (processDyn_fields out u).2.2.2.2.2.1
@[simp] theorem processDyn_lfoMax (out : F64) (u : Regs S) :
    ((processDyn out u).1).lfoMax = u.lfoMax := (processDyn_fields out u).2.2.2.2.2.2.1
@[simp] theorem processDyn_phase (out : F64) (u : Regs S) :
    ((processDyn out u).1).phase = u.phase := (processDyn_fields out u).2.2.2.2.2.2.2.1
@[simp] theorem processDyn_srate (out : F64) (u : Regs S) :
    ((processDyn out u).1).srate = u.srate := (processDyn_fields out u).2.2.2.2.2.2.2.2.1
@[simp] theorem processDyn_coeffOffset (out : F64) (u : Regs S) :
    ((processDyn out u).1).coeffOffset = u.coeffOffset := (processDyn_fields out u).2.2.2.2.2.2.2.2.2.1
@[simp] theorem processDyn_lphase (out : F64) (u : Regs S) :
    ((processDyn out u).1).lphase = u.lphase := (processDyn_fields out u).2.2.2.2.2.2.2.2.2.2.1
@[simp] theorem processDyn_lrate (out : F64) (u : Regs S) :
    ((processDyn out u).1).lrate = u.lrate := (processDyn_fields out u).2.2.2.2.2.2.2.2.2.2.2.1
@[simp] theorem processDyn_aval (out : F64) (u : Regs S) :
    ((processDyn out u).1).aval = u.aval := (processDyn_fields out u).2.2.2.2.2.2.2.2.2.2.2.2.1
@[simp] theorem processDyn_fval (out : F64) (u : Regs S) :
    ((processDyn out u).1).fval = u.fval := (processDyn_fields out u).2.2.2.2.2.2.2.2.2.2.2.2.2.1
@[simp] theorem processDyn_envs (out : F64) (u : Regs S) :
    ((processDyn out u).1).envs = (dyn u.dyn u.envs out).2 := (processDyn_fields out u).2.2.2.2.2.2.2.2.2.2.2.2.2.2.1
@[simp] theorem processDyn_dyn (out : F64) (u : Regs S) :
    ((processDyn out u).1).dyn = u.dyn := (processDyn_fields out u).2.2.2.2.2.2.2.2.2.2.2.2.2.2.2.1
@[simp] theorem processDyn_tf (out : F64) (u : Regs S) :
    ((processDyn out u).1).tf = u.tf := (processDyn_fields out u).2.2.2.2.2.2.2.2.2.2.2.2.2.2.2.2

@[simp] theorem processDyn_data (out : F64) (u : Regs S) : (processDyn out u).2 = (dyn u.dyn u.envs out).1 := rfl

/-! ### Step 1 of PROCESS writes `LPHASE` and, with the LFO on, `TEMPVOWEL` -/

@[simp] theorem processVowel_vowel (p : Params) (u : Regs S) : (processVowel p u).vowel = u.vowel := by
  unfold processVowel; split <;> rfl
@[simp] theorem processVowel_hasLfo (p : Params) (u : Regs S) : (processVowel p u).hasLfo = u.hasLfo := by
  unfold processVowel; split <;> rfl
@[simp] theorem processVowel_lfoDepth (p : Params) (u : Regs S) : (processVowel p u).lfoDepth = u.lfoDepth := by
  unfold processVowel; split <;> rfl
@[simp] theorem processVowel_lfoRange (p : Params) (u : Regs S) : (processVowel p u).lfoRange = u.lfoRange := by
  unfold processVowel; split <;> rfl
@[simp] theorem processVowel_lfoMin (p : Params) (u : Regs S) : (processVowel p u).lfoMin = u.lfoMin := by
  unfold processVowel; split <;> rfl
@[simp] theorem processVowel_lfoMax (p : Params) (u : Regs S) : (processVowel p u).lfoMax = u.lfoMax := by
  unfold processVowel; split <;> rfl
@[simp] theorem processVowel_phase (p : Params) (u : Regs S) : (processVowel p u).phase = u.phase := by
  unfold processVowel; split <;> rfl
@[simp] theorem processVowel_srate (p : Params) (u : Regs S) : (processVowel p u).srate = u.srate := by
  unfold processVowel; split <;> rfl
@[simp] theorem processVowel_coeffOffset (p : Params) (u : Regs S) : (processVowel p u).coeffOffset = u.coeffOffset := by
  unfold processVowel; split <;> rfl
@[simp] theorem processVowel_lphase (p : Params) (u : Regs S) : (processVowel p u).lphase = lfoNextPhase u.lphase u.lrate u.srate := by
  unfold processVowel; split <;> rfl
@[simp] theorem processVowel_lrate (p : Params) (u : Regs S) : (processVowel p u).lrate = u.lrate := by
  unfold processVowel; split <;> rfl
@[simp] theorem processVowel_aval (p : Params) (u : Regs S) : (processVowel p u).aval = u.aval := by
  unfold processVowel; split <;> rfl
@[simp] theorem processVowel_fval (p : Params) (u : Regs S) : (processVowel p u).fval = u.fval := by
  unfold processVowel; split <;> rfl
@[simp] theorem processVowel_envs (p : Params) (u : Regs S) : (processVowel p u).envs = u.envs := by
  unfold processVowel; split <;> rfl
@[simp] theorem processVowel_dyn (p : Params) (u : Regs S) : (processVowel p u).dyn = u.dyn := by
  unfold processVowel; split <;> rfl
@[simp] theorem processVowel_tf (p : Params) (u : Regs S) : (processVowel p u).tf = u.tf := by
  unfold processVowel; split <;> rfl
@[simp] theorem processVowel_tempVowel (p : Params) (u : Regs S) : (processVowel p u).tempVowel =
    if u.hasLfo then fmin u.lfoMax (fadd u.lfoMin (fmul u.lfoRange (unipolar (p.lfoWave u.lphase))))
    else u.tempVowel := by
  unfold processVowel; split <;> rfl

/-! ### A new unit -/

theorem constructed_fields (p : Params) (v sr : F64) (k : Fin entries) :
    (constructed p v sr k).vowel = v ∧
    (constructed p v sr k).tempVowel = v ∧
    (constructed p v sr k).hasLfo = false ∧
    (constructed p v sr k).lfoDepth = fzero ∧
    (constructed p v sr k).lfoRange = fmul v fzero ∧
    (constructed p v sr k).lfoMin = fmax fzero (fsub v (fdiv (fmul v fzero) ftwo)) ∧
    (constructed p v sr k).lfoMax = fmin fone (fadd v (fdiv (fmul v fzero) ftwo)) ∧
    (constructed p v sr k).phase = fzero ∧
    (constructed p v sr k).srate = sr ∧
    (constructed p v sr k).coeffOffset = k ∧
    (constructed p v sr k).lphase = fzero ∧
    (constructed p v sr k).lrate = p.minLfoRate ∧
    (constructed p v sr k).aval = (perSlot fun s => ampTarget p s k) ∧
    (constructed p v sr k).fval = (perSlot fun s => freqTarget p s k) ∧
    (constructed p v sr k).envs = { env := fzero, env2 := fzero, genv := fzero } ∧
    (constructed p v sr k).dyn = p.dynDefault ∧
    (constructed p v sr k).tf = buildTable p := by
  refine ⟨?_, ?_, ?_, ?_, ?_, ?_, ?_, ?_, ?_, ?_, ?_, ?_, ?_, ?_, ?_, ?_, ?_⟩ <;>
    simp only [constructed, cacheLfo, Bool.false_eq_true, if_false]

@[simp] theorem constructed_vowel (p : Params) (v sr : F64) (k : Fin entries) :
    (constructed p v sr k).vowel = v := (constructed_fields p v sr k).1
@[simp] theorem constructed_tempVowel (p : Params) (v sr : F64) (k : Fin entries) :
    (constructed p v sr k).tempVowel = v := (constructed_fields p v sr k).2.1
@[simp] theorem constructed_hasLfo (p : Params) (v sr : F64) (k : Fin entries) :
    (constructed p v sr k).hasLfo = false := (constructed_fields p v sr k).2.2.1
@[simp] theorem constructed_lfoDepth (p : Params) (v sr : F64) (k : Fin entries) :
    (constructed p v sr k).lfoDepth = fzero := (constructed_fields p v sr k).2.2.2.1
@[simp] theorem constructed_lfoRange (p : Params) (v sr : F64) (k : Fin entries) :
    (constructed p v sr k).lfoRange = fmul v fzero := (constructed_fields p v sr k).2.2.2.2.1
@[simp] theorem constructed_lfoMin (p : Params) (v sr : F64) (k : Fin entries) :
    (constructed p v sr k).lfoMin = fmax fzero (fsub v (fdiv (fmul v fzero) ftwo)) := (constructed_fields p v sr k).2.2.2.2.2.1
@[simp] theorem constructed_lfoMax (p : Params) (v sr : F64) (k : Fin entries) :
    (constructed p v sr k).lfoMax = fmin fone (fadd v (fdiv (fmul v fzero) ftwo)) := (constructed_fields p v sr k).2.2.2.2.2.2.1
@[simp] theorem constructed_phase (p : Params) (v sr : F64) (k : Fin entries) :
    (constructed p v sr k).phase = fzero := (constructed_fields p v sr k).2.2.2.2.2.2.2.1
@[simp] theorem constructed_srate (p : Params) (v sr : F64) (k : Fin entries) :
    (constructed p v sr k).srate = sr := (constructed_fields p v sr k).2.2.2.2.2.2.2.2.1
@[simp] theorem constructed_coeffOffset (p : Params) (v sr : F64) (k : Fin entries) :
    (constructed p v sr k).coeffOffset = k := (constructed_fields p v sr k).2.2.2.2.2.2.2.2.2.1
@[simp] theorem constructed_lphase (p : Params) (v sr : F64) (k : Fin entries) :
    (constructed p v sr k).lphase = fzero := (constructed_fields p v sr k).2.2.2.2.2.2.2.2.2.2.1
@[simp] theorem constructed_lrate (p : Params) (v sr : F64) (k : Fin entries) :
    (constructed p v sr k).lrate = p.minLfoRate := (constructed_fields p v sr k).2.2.2.2.2.2.2.2.2.2.2.1
@[simp] theorem constructed_aval (p : Params) (v sr : F64) (k : Fin entries) :
    (constructed p v sr k).aval = (perSlot fun s => ampTarget p s k) := (constructed_fields p v sr k).2.2.2.2.2.2.2.2.2.2.2.2.1
@[simp] theorem constructed_fval (p : Params) (v sr : F64) (k : Fin entries) :
    (constructed p v sr k).fval = (perSlot fun s => freqTarget p s k) := (constructed_fields p v sr k).2.2.2.2.2.2.2.2.2.2.2.2.2.1
@[simp] theorem constructed_envs (p : Params) (v sr : F64) (k : Fin entries) :
    (constructed p v sr k).envs = { env := fzero, env2 := fzero, genv := fzero } := (constructed_fields p v sr k).2.2.2.2.2.2.2.2.2.2.2.2.2.2.1
@[simp] theorem constructed_dyn (p : Params) (v sr : F64) (k : Fin entries) :
    (constructed p v sr k).dyn = p.dynDefault := (constructed_fields p v sr k).2.2.2.2.2.2.2.2.2.2.2.2.2.2.2.1
@[simp] theorem constructed_tf (p : Params) (v sr : F64) (k : Fin entries) :
    (constructed p v sr k).tf = buildTable p := (constructed_fields p v sr k).2.2.2.2.2.2.2.2.2.2.2.2.2.2.2.2

end Sys2Proof.Machine
end

