-- ==== Sys2Proof/Laws/Ops.lean ====
section
/-! SUPPORT. What each shared operation can do, said once: committing a command, the check for a constructed
unit, the table memory and its canonical form, and the selection of an entry. -/

namespace Sys2Proof.Machine

open Sys2Proof.Config

/-! ## Committing a command -/

/-- Committing answers a next state: the new registers with a `CAUSE` of 0, or the fault. -/
theorem commit_cases {r : Except Cause (UnitRegs × BitVec 64)} {s : State} {o : Host.Outcome State Fault Refusal}
    (h : commit r s = o) :
    (∃ u data, r = .ok (u, data) ∧ o = .next (respond 0 data { s with unit := some u })) ∨
    (∃ c, r = .error c ∧ o = .next (raise c s)) := by
  subst h
  cases r with
  | ok p => exact Or.inl ⟨p.1, p.2, rfl, rfl⟩
  | error c => exact Or.inr ⟨c, rfl, rfl⟩

/-- A command other than CONSTRUCT answers a next state: a fault, or new registers computed from the old. -/
theorem onConstructed_cases {run : UnitRegs → Except Cause (UnitRegs × BitVec 64)} {s : State}
    {o : Host.Outcome State Fault Refusal} (h : onConstructed s run = o) :
    (s.unit = none ∧ o = .next (raise .notConstructed s)) ∨
    (∃ u, s.unit = some u ∧
      ((∃ u' data, run u = .ok (u', data) ∧ o = .next (respond 0 data { s with unit := some u' })) ∨
       (∃ c, run u = .error c ∧ o = .next (raise c s)))) := by
  unfold onConstructed at h
  cases hu : s.unit with
  | none => rw [hu] at h; exact Or.inl ⟨rfl, h.symm⟩
  | some u => rw [hu] at h; exact Or.inr ⟨u, rfl, commit_cases h⟩

@[simp] theorem onConstructed_none {run : UnitRegs → Except Cause (UnitRegs × BitVec 64)} {s : State}
    (h : s.unit = none) : onConstructed s run = .next (raise .notConstructed s) := by
  unfold onConstructed; rw [h]

@[simp] theorem onConstructed_some {run : UnitRegs → Except Cause (UnitRegs × BitVec 64)} {s : State} {u : UnitRegs}
    (h : s.unit = some u) : onConstructed s run = commit (run u) s := by
  unfold onConstructed; rw [h]

/-! ## One value for each slot -/

@[simp] theorem perSlot_get {S : Nat} (f : Fin S → F64) (s : Fin S) : (perSlot f).get s = f s := by
  show (Vector.ofFn f)[s.val] = f s
  simp

/-- Writing the value of one slot leaves that of every other slot alone. -/
theorem get_set_slot {S : Nat} (v : Vector F64 S) (s t : Fin S) (x : F64) :
    (v.set s.val x).get t = if t = s then x else v.get t := by
  by_cases h : t = s
  · subst h
    rw [if_pos rfl]
    show (v.set t.val x)[t.val] = x
    simp
  · rw [if_neg h]
    have h' : s.val ≠ t.val := fun e => h (Fin.ext e.symm)
    show (v.set s.val x)[t.val] = v[t.val]
    exact Vector.getElem_set_ne _ _ h'

/-! ## Reading and writing the table memory -/

@[simp] theorem Table.read_nil (a : Nat) : Table.read [] a = tableDefault := rfl

/-- A write leaves every other word alone, and the word written reads as the value written. -/
theorem Table.read_write (m : Table) (lo : Option Nat) (h : Table.wfFrom lo m = true) (a : Nat) (v : F64) (b : Nat) :
    Table.read (Table.write m a v) b = if b = a then v else Table.read m b := by
  induction m generalizing lo with
  | nil =>
    unfold Table.write
    by_cases hv : v = tableDefault
    · simp [hv]
    · simp [hv, Table.read]
  | cons e rest ih =>
    obtain ⟨c, w⟩ := e
    unfold Table.wfFrom at h
    simp only [Bool.and_eq_true, decide_eq_true_eq] at h
    have hrest := ih _ h.2
    have above : ∀ (lo : Nat) (t : Table), Table.wfFrom (some lo) t = true → ∀ x, x ≤ lo →
        Table.read t x = tableDefault := by
      intro lo t
      induction t generalizing lo with
      | nil => intros; rfl
      | cons e t iht =>
        intro ht x hx
        obtain ⟨d, y⟩ := e
        unfold Table.wfFrom at ht
        simp only [Bool.and_eq_true, decide_eq_true_eq] at ht
        have h1 := ht.1.1.1
        unfold Table.read
        rw [if_neg (by omega)]
        exact iht d ht.2 x (by omega)
    unfold Table.write
    by_cases h1 : a < c
    · simp only [h1, if_true]
      by_cases hv : v = tableDefault
      · simp only [hv, if_true]
        by_cases hb : b = a
        · rw [if_pos hb]
          unfold Table.read
          rw [if_neg (by omega)]
          exact above c rest h.2 b (by omega)
        · rw [if_neg hb]
      · simp only [hv, if_false]
        by_cases hb : b = a
        · rw [if_pos hb]; unfold Table.read; rw [if_pos hb]
        · rw [if_neg hb]; conv_lhs => unfold Table.read
          rw [if_neg hb]
    · simp only [h1, if_false]
      by_cases h2 : a = c
      · subst h2
        simp only [if_true]
        by_cases hv : v = tableDefault
        · simp only [hv, if_true]
          by_cases hb : b = a
          · rw [if_pos hb, hb]; exact above a rest h.2 a le_rfl
          · rw [if_neg hb]; conv_rhs => unfold Table.read
            rw [if_neg hb]
        · simp only [hv, if_false, Table.read]
          by_cases hb : b = a <;> simp [hb]
      · simp only [h2, if_false, Table.read]
        rw [hrest]
        by_cases hb : b = c
        · have : b ≠ a := by omega
          simp [hb, Ne.symm h2]
        · simp [hb]

/-- A write inside the memory keeps the canonical form. -/
theorem Table.wfFrom_write (m : Table) (lo : Option Nat) (h : Table.wfFrom lo m = true) {a : Nat} (v : F64)
    (hlo : ∀ b, lo = some b → b < a) (ha : a < tableWords) : Table.wfFrom lo (Table.write m a v) = true := by
  have entry : ∀ (t : Table), Table.wfFrom (some a) t = true → v ≠ tableDefault →
      Table.wfFrom lo ((a, v) :: t) = true := by
    intro t ht hv
    unfold Table.wfFrom
    simp only [Bool.and_eq_true, decide_eq_true_eq]
    refine ⟨⟨⟨?_, ha⟩, hv⟩, ht⟩
    cases hl : lo with
    | none => rfl
    | some b => simpa using hlo b hl
  have raiseLo : ∀ (c : Nat) (w : F64) (t : Table) (l : Option Nat), Table.wfFrom l ((c, w) :: t) = true →
      ∀ l', (∀ b, l' = some b → b < c) → Table.wfFrom l' ((c, w) :: t) = true := by
    intro c w t l ht l' hl'
    unfold Table.wfFrom at ht ⊢
    simp only [Bool.and_eq_true, decide_eq_true_eq] at ht ⊢
    refine ⟨⟨⟨?_, ht.1.1.2⟩, ht.1.2⟩, ht.2⟩
    cases hl : l' with
    | none => rfl
    | some b => simpa using hl' b hl
  have lower : ∀ (t : Table) (c d : Nat), Table.wfFrom (some c) t = true → d ≤ c → Table.wfFrom (some d) t = true := by
    intro t c d ht hd
    cases t with
    | nil => rfl
    | cons e t =>
      refine raiseLo e.1 e.2 t _ ht _ ?_
      intro b hb
      unfold Table.wfFrom at ht
      simp only [Bool.and_eq_true, decide_eq_true_eq] at ht
      have := ht.1.1.1
      simp only [Option.some.injEq] at hb
      omega
  induction m generalizing lo with
  | nil =>
    unfold Table.write
    split
    · rfl
    · rename_i hv; exact entry [] rfl hv
  | cons e rest ih =>
    obtain ⟨c, w⟩ := e
    have h' := h
    unfold Table.wfFrom at h'
    simp only [Bool.and_eq_true, decide_eq_true_eq] at h'
    unfold Table.write
    split
    · rename_i hac
      split
      · exact h
      · rename_i hv
        refine entry _ (raiseLo c w rest _ h _ ?_) hv
        intro b hb
        simp only [Option.some.injEq] at hb
        omega
    · rename_i hac
      split
      · rename_i hc
        subst hc
        split
        · cases hl : lo with
          | none =>
            cases rest with
            | nil => rfl
            | cons e t => exact raiseLo e.1 e.2 t _ h'.2 _ (by intro b hb; cases hb)
          | some b => exact lower rest a b h'.2 (by have := hlo b hl; omega)
        · rename_i hv; exact entry rest h'.2 hv
      · rename_i hne
        have hrec := ih (some c) h'.2 (by intro b hb; simp only [Option.some.injEq] at hb; omega)
          (fun t ht hv => by
            unfold Table.wfFrom
            simp only [Bool.and_eq_true, decide_eq_true_eq]
            exact ⟨⟨⟨by omega, ha⟩, hv⟩, ht⟩)
        unfold Table.wfFrom
        simp only [Bool.and_eq_true, decide_eq_true_eq]
        exact ⟨⟨⟨h'.1.1.1, h'.1.1.2⟩, h'.1.2⟩, hrec⟩

/-- Every write inside the memory keeps the canonical form. -/
theorem Table.wf_write {m : Table} (h : Table.wf m = true) {a : Nat} (v : F64) (ha : a < tableWords) :
    Table.wf (Table.write m a v) = true :=
  Table.wfFrom_write m none h v (by intro b hb; cases hb) ha

/-- Reading the address just written. -/
theorem Table.read_write_same {m : Table} (h : Table.wf m = true) (a : Nat) (v : F64) :
    Table.read (Table.write m a v) a = v := by rw [Table.read_write m none h, if_pos rfl]

/-- Reading another address. -/
theorem Table.read_write_other {m : Table} (h : Table.wf m = true) {a b : Nat} (v : F64) (hab : b ≠ a) :
    Table.read (Table.write m a v) b = Table.read m b := by rw [Table.read_write m none h, if_neg hab]

/-- A table filled from a list of addresses inside the memory is canonical and holds, at each of them, the word
the builder gives. -/
theorem fill_spec (f : Nat → F64) (l : List Nat) (hl : ∀ a ∈ l, a < tableWords) :
    Table.wf (l.foldr (fun a m => Table.write m a (f a)) []) = true ∧
    ∀ a, Table.read (l.foldr (fun a m => Table.write m a (f a)) []) a = if a ∈ l then f a else tableDefault := by
  induction l with
  | nil => exact ⟨rfl, fun a => by simp⟩
  | cons b l ih =>
    have ih' := ih fun a ha => hl a (List.mem_cons_of_mem _ ha)
    have hb := hl b List.mem_cons_self
    refine ⟨Table.wf_write ih'.1 _ hb, fun a => ?_⟩
    rw [List.foldr_cons, Table.read_write _ none ih'.1, ih'.2 a]
    by_cases hab : a = b
    · simp [hab]
    · simp [hab]

/-- The built table is in canonical form (R122). -/
theorem wf_buildTable (p : Params) : Table.wf (buildTable p) = true :=
  (fill_spec (builtWord p) (List.range tableWords) fun a ha => by simpa using ha).1

/-- The built table holds the word of each address (R122). -/
theorem read_buildTable (p : Params) {a : Nat} (h : a < tableWords) :
    Table.read (buildTable p) a = builtWord p a := by
  have := (fill_spec (builtWord p) (List.range tableWords) fun a ha => by simpa using ha).2 a
  rw [buildTable, this, if_pos (by simpa using h)]

/-- A read of the table either stays inside the memory or raises `TableBounds` (R63). -/
theorem memRead_cases (m : Table) (a : Nat) :
    (a < tableWords ∧ memRead m a = .ok (m.read a)) ∨ (tableWords ≤ a ∧ memRead m a = .error .tableBounds) := by
  unfold memRead
  by_cases h : a < tableWords
  · exact Or.inl ⟨h, if_pos h⟩
  · exact Or.inr ⟨by omega, if_neg h⟩

/-! ## Counts -/

/-- `toNat` in its domain (R12): the whole units of one in the value. -/
theorem ftoNat_of_nonneg {x : F64} (hf : isFinite x = true) (h : 0 ≤ fval x) :
    ftoNat x = some (fval x / (oneUnits : Int)).toNat := by
  unfold ftoNat
  have hs : (!fsign x || isZero x) = true := by
    cases hx : fsign x with
    | false => simp
    | true =>
      rw [fval_eq_signed, hx] at h
      simp only [if_true] at h
      have : fmag x = 0 := by omega
      rw [fmag_eq_zero] at this
      simp [isZero, this]
  rw [hf, hs, Bool.true_and, if_pos rfl]
  congr 1
  have hv : fval x = fmag x := by
    rw [fval_eq_signed] at h ⊢
    cases hx : fsign x with
    | false => rfl
    | true => rw [hx] at h; simp only [if_true] at h ⊢; omega
  rw [hv]
  norm_cast

theorem fdiv_feight_fone : fdiv feight fone = feight := by decide +kernel

/-- A working vowel in `[0, 1]` selects an entry: `scale` caps the value at 8 (R151, R152). -/
theorem selectEntry_ok {t : F64} (h : inUnit t = true) : ∃ k, selectEntry t = .ok k := by
  have hpos : (0 : Int) < oneUnits := by exact_mod_cast oneUnits_pos
  have ht := isFinite_of_inUnit h
  have hv := fval_of_inUnit h
  have h8 : isFinite feight = true := by decide
  have hz : isFinite fzero = true := isFinite_fzero
  have lo : fle fzero (fmul t feight) = true := by
    refine le_fmul ht h8 hz ?_
    rw [fval_fzero, Int.zero_mul, fval_feight]
    exact Int.mul_nonneg hv.1 (by omega)
  have hi : fle (fmul t feight) feight = true := by
    refine fmul_le ht h8 h8 ?_
    rw [fval_feight, Int.mul_comm]
    exact Int.mul_le_mul_of_nonneg_left hv.2 (by omega)
  have hs : scale t fone feight = fmul t feight ∨ scale t fone feight = feight := by
    unfold scale
    rw [fdiv_feight_fone]
    exact (fmin_eq_or _ _).symm
  have bounds : fle fzero (scale t fone feight) = true ∧ fle (scale t fone feight) feight = true := by
    rcases hs with hs | hs <;> rw [hs]
    · exact ⟨lo, hi⟩
    · exact ⟨by decide, by decide⟩
  have hf := isFinite_of_between hz h8 bounds.1 bounds.2
  have hn := not_isNaN_of_isFinite hf
  rw [fle_iff_fval (not_isNaN_of_isFinite hz) hn, fval_fzero, fle_iff_fval hn (not_isNaN_of_isFinite h8),
    fval_feight] at bounds
  have hq : fval (scale t fone feight) / (oneUnits : Int) ≤ 8 := by
    have := Int.ediv_le_ediv hpos bounds.2
    rwa [Int.mul_ediv_cancel _ hpos.ne'] at this
  have hlt : (fval (scale t fone feight) / (oneUnits : Int)).toNat < entries := by
    show _ < 9
    omega
  refine ⟨⟨_, hlt⟩, ?_⟩
  unfold selectEntry toNatOrBounds
  rw [ftoNat_of_nonneg hf bounds.1]
  simp only [bind, Except.bind]
  rw [dif_pos hlt]

end Sys2Proof.Machine
end

