-- ==== Sys2Proof/Laws/Parameters.lean ====
section
/-! SUPPORT. The machine's configuration satisfies the constraints of `00_scope.md` R6 and R271 and has the named
properties of R13, whatever the free values are: `lawful_machineParams`. -/

namespace Sys2Proof.Machine

open Sys2Proof.Config

/-! ## The free values, kept legal -/

theorem isFinite_legalFinite (x : F64) : isFinite (legalFinite x) = true := by
  unfold legalFinite; split
  · assumption
  · decide

theorem isPositive_legalPositive (x : F64) : isPositive (legalPositive x) = true := by
  unfold legalPositive; split
  · assumption
  · decide

theorem isNonNegative_legalNonNegative (x : F64) : isNonNegative (legalNonNegative x) = true := by
  unfold legalNonNegative; split
  · assumption
  · decide

theorem legalBetween_bounds {lo hi : F64} (h : fle lo hi = true) (x : F64) :
    fle lo (legalBetween lo hi x) = true ∧ fle (legalBetween lo hi x) hi = true := by
  unfold legalBetween; split
  · rename_i hx; simpa using hx
  · exact ⟨h, fle_refl (isNaN_right_of_fle h)⟩

theorem inUnit_legalBetween (x : F64) : inUnit (legalBetween fzero fone x) = true := by
  rw [inUnit_iff]; exact legalBetween_bounds (by decide) x

theorem dynSafe_legalDyn (c : DynRegs) : DynSafe (legalDyn c) where
  thr := isPositive_legalPositive _
  rat := isNonNegative_legalNonNegative _
  trim := isNonNegative_legalNonNegative _
  attPositive := by
    unfold legalDyn; dsimp only; split
    · rename_i h; exact (Bool.and_eq_true _ _ ▸ h).1
    · decide
  attUnit := by
    unfold legalDyn; dsimp only; split
    · rename_i h; exact (Bool.and_eq_true _ _ ▸ h).2
    · decide
  rel := inUnit_legalBetween _
  lthr := isNonNegative_legalNonNegative _
  xthr := isNonNegative_legalNonNegative _
  gatt := inUnit_legalBetween _
  xrat := inUnit_legalBetween _
  dry := isNonNegative_legalNonNegative _

/-! ## `NUM` (R13) -/

theorem cosEven_machineNum : CosEven machineNum := by
  intro x
  unfold machineNum legalCos
  dsimp only
  rw [isFinite_fneg, fabs_fneg]

theorem cosRange_machineNum : CosRange machineNum := by
  intro x hx
  unfold machineNum legalCos
  dsimp only
  rw [if_pos hx]
  exact legalBetween_bounds (by decide) _

theorem sinRange_machineNum : SinRange machineNum := by
  intro x hx
  unfold machineNum legalSin
  dsimp only
  rw [if_pos hx]
  exact legalBetween_bounds (by decide) _

theorem fsign_of_fle_zero {x : F64} (hx : fle x fzero = true) (h0 : isZero x = false) : fsign x = true := by
  rw [fle_iff] at hx
  have h := hx.2.2
  have hb : fbits x ≠ 0 := by simpa [isZero] using h0
  unfold ford at h
  have hz : fsign fzero = false := by decide
  have hz2 : fbits fzero = 0 := by decide
  cases hs : fsign x with
  | true => rfl
  | false =>
    simp only [hs, hz, hz2, Bool.false_eq_true, if_false] at h
    omega

theorem legalExp_zero {f : F64 → F64} {x : F64} (h : isZero x = true) : legalExp f x = fone := by
  unfold legalExp; rw [if_pos h]

theorem expUnit_machineNum : ExpUnit machineNum := by
  refine ⟨legalExp_zero (f := freeExp) (x := fzero) (by decide), legalExp_zero (f := freeExp) (x := fneg fzero) (by decide), ?_⟩
  intro x hle
  unfold machineNum legalExp
  dsimp only
  split
  · exact ⟨by decide, by decide⟩
  · rename_i h0
    rw [((fle_iff x fzero).1 hle).1, fsign_of_fle_zero hle (by simpa using h0), Bool.not_false, Bool.true_and, if_pos rfl]
    exact legalBetween_bounds (by decide) _

theorem exponentF64_spec : ∀ k : Nat, k ≤ 2045 → isFinite (exponentF64 k) = true ∧
    fval (exponentF64 k) = ((k : Int) - 1022) * oneUnits := by
  intro k hk
  obtain ⟨h1, h2⟩ := ofUnits_dyadic (decide (k < 1022)) (m := ((k : Int) - 1022).natAbs) (e := 1074)
    (by have : (2 : Nat) ^ 53 = 9007199254740992 := by norm_num
        omega) (by norm_num)
  have hu : oneUnits = 2 ^ 1074 := rfl
  rw [← hu] at h1 h2
  refine ⟨h1, ?_⟩
  rw [fval_eq_signed, exponentF64, h2, fsign_ofUnits]
  generalize oneUnits = U
  push_cast
  by_cases hlt : k < 1022
  · simp only [hlt, decide_true, if_true]
    rw [abs_of_neg (by omega)]; ring
  · simp only [hlt, decide_false, Bool.false_eq_true, if_false]
    rw [abs_of_nonneg (by omega)]

theorem oneUnits_int_pos : (0 : Int) < oneUnits := by exact_mod_cast oneUnits_pos

/-! ### The order of the words, and the free monotone function -/

theorem fbits_le_infBits {x : F64} (h : isNaN x = false) : fbits x ≤ infBits := by
  simpa [isNaN] using h

theorem ford_bounds {x : F64} (h : isNaN x = false) : -(infBits : Int) ≤ ford x ∧ ford x ≤ infBits := by
  have := fbits_le_infBits h
  unfold ford
  split <;> omega

theorem ordinal_cast {x : F64} (h : isNaN x = false) : (ordinal x : Int) = ford x + infBits := by
  have := ford_bounds h
  unfold ordinal
  omega

theorem ordinal_le_of_fle {x y : F64} (h : fle x y = true) : ordinal x ≤ ordinal y := by
  rw [fle_iff] at h
  have hx := ordinal_cast h.1
  have hy := ordinal_cast h.2.1
  omega

theorem ordinal_lt {x : F64} (h : isNaN x = false) : ordinal x < 2 ^ 64 := by
  have h1 := ordinal_cast h
  have h2 := ford_bounds h
  have h3 : infBits = 2047 * 2 ^ 52 := rfl
  omega

/-- A place up to that of `+inf` is the place of its word. -/
theorem ofOrdinal_spec (z : Bool) {n : Nat} (h : n ≤ 2 * infBits) :
    isNaN (ofOrdinal z n) = false ∧ ford (ofOrdinal z n) = (n : Int) - infBits := by
  have hi : infBits < 2 ^ 63 := by decide
  have hNaN : ∀ (s : Bool) (b : Nat), b ≤ infBits → isNaN (withSign s b) = false := by
    intro s b hb
    unfold isNaN
    rw [fbits_withSign _ (by omega)]
    simpa using hb
  unfold ofOrdinal
  split
  · rename_i he
    refine ⟨hNaN _ _ (Nat.zero_le _), ?_⟩
    unfold ford
    rw [fbits_withSign _ (by omega)]
    subst he
    cases fsign (withSign z 0) <;> simp
  · split
    · rename_i h1 h2
      refine ⟨hNaN _ _ (by omega), ?_⟩
      unfold ford
      rw [fbits_withSign _ (by omega), fsign_withSign _ (by omega), if_pos rfl]
      omega
    · rename_i h1 h2
      refine ⟨hNaN _ _ (by omega), ?_⟩
      unfold ford
      rw [fbits_withSign _ (by omega), fsign_withSign _ (by omega), if_neg (by decide)]
      omega

theorem ofOrdinal_fle (z z' : Bool) {m n : Nat} (hmn : m ≤ n) (hn : n ≤ 2 * infBits) :
    fle (ofOrdinal z m) (ofOrdinal z' n) = true := by
  obtain ⟨m1, m2⟩ := ofOrdinal_spec z (hmn.trans hn)
  obtain ⟨n1, n2⟩ := ofOrdinal_spec z' hn
  rw [fle_iff]
  exact ⟨m1, n1, by omega⟩

/-- The free monotone function stays in its range. -/
theorem freeMonotone_bounds (free : Nat → Nat) (bits node lo hi k : Nat) (h : lo ≤ hi) :
    lo ≤ freeMonotone free bits node lo hi k ∧ freeMonotone free bits node lo hi k ≤ hi := by
  induction bits generalizing node lo hi with
  | zero =>
    have := Nat.mod_lt (free node) (show 0 < hi - lo + 1 by omega)
    unfold freeMonotone
    omega
  | succ n ih =>
    have := Nat.mod_lt (free node) (show 0 < hi - lo + 1 by omega)
    unfold freeMonotone
    dsimp only
    split
    · have := ih (2 * node) lo (lo + free node % (hi - lo + 1)) (by omega)
      omega
    · have := ih (2 * node + 1) (lo + free node % (hi - lo + 1)) hi (by omega)
      omega

/-- The free monotone function is monotone in the low bits of its operand. -/
theorem freeMonotone_mono (free : Nat → Nat) (bits node lo hi k k' : Nat) (h : lo ≤ hi)
    (hk : k % 2 ^ bits ≤ k' % 2 ^ bits) :
    freeMonotone free bits node lo hi k ≤ freeMonotone free bits node lo hi k' := by
  induction bits generalizing node lo hi with
  | zero => exact le_rfl
  | succ n ih =>
    have hm := Nat.mod_lt (free node) (show 0 < hi - lo + 1 by omega)
    have split_mod : ∀ j : Nat, j % 2 ^ (n + 1) = j % 2 ^ n + 2 ^ n * (j / 2 ^ n % 2) := fun j => by
      rw [Nat.pow_succ, Nat.mod_mul]
    rw [split_mod k, split_mod k'] at hk
    have hpos : 0 < 2 ^ n := Nat.two_pow_pos n
    have a := Nat.mod_lt k hpos
    have a' := Nat.mod_lt k' hpos
    unfold freeMonotone
    dsimp only
    by_cases c : k / 2 ^ n % 2 = 0 <;> by_cases c' : k' / 2 ^ n % 2 = 0
    · rw [if_pos c, if_pos c']
      exact ih _ _ _ (by omega) (by simpa [c, c'] using hk)
    · rw [if_pos c, if_neg c']
      exact (freeMonotone_bounds free n _ _ _ k (by omega)).2.trans (freeMonotone_bounds free n _ _ _ k' (by omega)).1
    · have e : k / 2 ^ n % 2 = 1 := by omega
      rw [e, c'] at hk
      omega
    · have e : k / 2 ^ n % 2 = 1 := by omega
      have e' : k' / 2 ^ n % 2 = 1 := by omega
      rw [if_neg c, if_neg c']
      exact ih _ _ _ (by omega) (by rw [e, e'] at hk; omega)

/-! ### The regions of `pow2` -/

theorem powerOrdinal_mono {m n : Int} (h : m ≤ n) : powerOrdinal m ≤ powerOrdinal n := by
  unfold powerOrdinal
  have : (m + 1023).toNat ≤ (n + 1023).toNat := by omega
  have := Nat.mul_le_mul_right (2 ^ 52) this
  omega

theorem powerOrdinal_le {n : Int} (h : n ≤ 1023) : powerOrdinal n ≤ 2 * infBits := by
  refine (powerOrdinal_mono h).trans ?_
  decide

theorem pow2Region_bounds (x : F64) : -1023 ≤ pow2Region x ∧ pow2Region x ≤ 1023 := by
  unfold pow2Region
  omega

theorem regionLow_le_regionHigh {r : Int} (h : r ≤ 1023) : regionLow r ≤ regionHigh r := by
  unfold regionLow regionHigh
  split <;> split
  · omega
  · exact Nat.zero_le _
  · exact powerOrdinal_le h
  · exact powerOrdinal_mono (by omega)

theorem regionHigh_le_regionLow {r q : Int} (h0 : -1023 ≤ r) (h : r < q) (h1 : q ≤ 1023) :
    regionHigh r ≤ regionLow q := by
  unfold regionLow regionHigh
  rw [if_neg (by omega), if_neg (by omega)]
  exact powerOrdinal_mono (by omega)

theorem regionHigh_le (r : Int) (h : r ≤ 1023) : regionHigh r ≤ 2 * infBits := by
  unfold regionHigh
  split
  · exact le_rfl
  · exact powerOrdinal_le (by omega)

theorem isIntegralExponent_iff (x : F64) : isIntegralExponent x = true ↔
    fval x % (oneUnits : Int) = 0 ∧ -1022 ≤ floorInt x ∧ floorInt x ≤ 1023 := by
  unfold isIntegralExponent
  simp only [Bool.and_eq_true, decide_eq_true_eq, and_assoc]

theorem pow2Region_of_integral {x : F64} (h : isIntegralExponent x = true) : pow2Region x = floorInt x := by
  rw [isIntegralExponent_iff] at h
  unfold pow2Region
  omega

/-- A power lies in its region. -/
theorem pow2Ordinal_bounds (f : Int → Nat → Nat) (x : F64) :
    regionLow (pow2Region x) ≤ pow2Ordinal f x ∧ pow2Ordinal f x ≤ regionHigh (pow2Region x) := by
  have hr := pow2Region_bounds x
  have hlh := regionLow_le_regionHigh hr.2
  unfold pow2Ordinal
  split
  · rename_i h
    have h' := (isIntegralExponent_iff x).1 h
    have hl : regionLow (pow2Region x) = powerOrdinal (floorInt x) := by
      rw [pow2Region_of_integral h]
      unfold regionLow
      rw [if_neg (by omega)]
    rw [← hl]
    exact ⟨le_rfl, hlh⟩
  · exact freeMonotone_bounds _ _ _ _ _ _ hlh

theorem fval_le_of_fle {x y : F64} (h : fle x y = true) : fval x ≤ fval y := by
  have h' := (fle_iff x y).1 h
  exact (fle_iff_fval h'.1 h'.2.1).1 h

theorem floorInt_mono {x y : F64} (h : fle x y = true) : floorInt x ≤ floorInt y :=
  Int.ediv_le_ediv oneUnits_int_pos (fval_le_of_fle h)

theorem pow2Ordinal_mono (f : Int → Nat → Nat) {x y : F64} (h : fle x y = true) :
    pow2Ordinal f x ≤ pow2Ordinal f y := by
  have hfl := floorInt_mono h
  have hv := fval_le_of_fle h
  have hx := pow2Ordinal_bounds f x
  have hy := pow2Ordinal_bounds f y
  have rx := pow2Region_bounds x
  have ry := pow2Region_bounds y
  have hle : pow2Region x ≤ pow2Region y := by unfold pow2Region; omega
  rcases lt_or_eq_of_le hle with hlt | heq
  · exact hx.2.trans ((regionHigh_le_regionLow rx.1 hlt ry.2).trans hy.1)
  · by_cases ix : isIntegralExponent x = true
    · have ix' := (isIntegralExponent_iff x).1 ix
      have hl : pow2Ordinal f x = regionLow (pow2Region x) := by
        unfold pow2Ordinal regionLow
        rw [if_pos ix, pow2Region_of_integral ix, if_neg (by omega)]
      rw [hl, heq]
      exact hy.1
    · by_cases iy : isIntegralExponent y = true
      · exfalso
        have iy' := (isIntegralExponent_iff y).1 iy
        rw [pow2Region_of_integral iy] at heq
        have hfx : floorInt x = floorInt y := by
          unfold pow2Region at heq
          omega
        have dx := Int.mul_ediv_add_emod (fval x) oneUnits
        have dy := Int.mul_ediv_add_emod (fval y) oneUnits
        have mx := Int.emod_nonneg (fval x) oneUnits_int_pos.ne'
        have hq : fval x / (oneUnits : Int) = fval y / (oneUnits : Int) := hfx
        rw [hq] at dx
        have hm : fval x % (oneUnits : Int) = 0 := by omega
        exact ix ((isIntegralExponent_iff x).2 ⟨hm, by omega, by omega⟩)
      · have h' := (fle_iff x y).1 h
        unfold pow2Ordinal
        rw [if_neg ix, if_neg iy, heq]
        refine freeMonotone_mono _ _ _ _ _ _ _ (regionLow_le_regionHigh ry.2) ?_
        rw [Nat.mod_eq_of_lt (ordinal_lt h'.1), Nat.mod_eq_of_lt (ordinal_lt h'.2.1)]
        exact ordinal_le_of_fle h

theorem pow2Mono_machineNum : Pow2Mono machineNum := by
  intro x y h
  have h' := (fle_iff x y).1 h
  unfold machineNum legalPow2
  dsimp only
  rw [h'.1, h'.2.1, if_neg (by decide), if_neg (by decide)]
  exact ofOrdinal_fle _ _ (pow2Ordinal_mono _ h)
    ((pow2Ordinal_bounds _ y).2.trans (regionHigh_le _ (pow2Region_bounds y).2))

theorem pow2Int_machineNum : Pow2Int machineNum := by
  intro k hk
  obtain ⟨hf, hv⟩ := exponentF64_spec k hk
  have hfloor : floorInt (exponentF64 k) = (k : Int) - 1022 := by
    unfold floorInt; rw [hv, Int.mul_ediv_cancel _ oneUnits_int_pos.ne']
  have hint : isIntegralExponent (exponentF64 k) = true := by
    rw [isIntegralExponent_iff, hfloor, hv, Int.mul_emod_left]
    omega
  unfold machineNum legalPow2 pow2Ordinal
  dsimp only
  rw [not_isNaN_of_isFinite hf, if_neg (by decide), if_pos hint, hfloor]
  unfold powerOrdinal ofOrdinal
  have e : ((k : Int) - 1022 + 1023).toNat = k + 1 := by omega
  rw [e, if_neg (by omega), if_neg (by omega), Nat.add_sub_cancel_left]
  rfl

/-- `P-pow2-int` and `P-pow2-mono` bound the powers the rules form (R13). -/
theorem pow2Range_of_mono {n : Numerics} (hi : Pow2Int n) (hm : Pow2Mono n) : Pow2Range n := by
  have e0 : exponentF64 1022 = fzero := by decide +kernel
  have e4 : exponentF64 1026 = ffour := by decide +kernel
  have p0 : n.pow2 fzero = fone := by rw [← e0, hi 1022 (by omega)]; decide
  have p4 : n.pow2 ffour = 0x4030000000000000#64 := by rw [← e4, hi 1026 (by omega)]; decide
  intro x h0 h4
  refine ⟨?_, ?_⟩
  · rw [← p0]; exact hm _ _ h0
  · rw [← p4]; exact hm _ _ h4

/-- `P-finite` follows from the other named properties. -/
theorem finiteInRange_of_bounds {n : Numerics} (hc : CosRange n) (hs : SinRange n) (he : ExpUnit n)
    (hp : Pow2Range n) : FiniteInRange n := by
  have hm : isFinite (fneg fone) = true := by decide
  refine ⟨fun x _ h => ?_, fun x h => ?_, fun x h => ?_, fun x h0 h4 => ?_⟩
  · exact isFinite_of_between isFinite_fzero isFinite_fone (he.2.2 x h).1 (he.2.2 x h).2
  · exact isFinite_of_between hm isFinite_fone (hc x h).1 (hc x h).2
  · exact isFinite_of_between hm isFinite_fone (hs x h).1 (hs x h).2
  · exact isFinite_of_between isFinite_fone (by decide) (hp x h0 h4).1 (hp x h0 h4).2

/-! ## The wave and the rates -/

theorem wave_machineParams (phi : F64) (h0 : fle fzero phi = true) (h1 : flt phi fone = true) :
    fle (fneg fone) (sineWave machineNum fpi phi) = true ∧ fle (sineWave machineNum fpi phi) fone = true := by
  refine sinRange_machineNum _ ?_
  have hphi := isFinite_of_between isFinite_fzero isFinite_fone h0 (fle_of_flt h1)
  have hn := not_isNaN_of_isFinite hphi
  rw [fle_iff_fval (not_isNaN_of_isFinite isFinite_fzero) hn, fval_fzero] at h0
  rw [flt_iff_fval hn (not_isNaN_of_isFinite isFinite_fone), fval_fone] at h1
  have hc : isFinite (fmul ftwo fpi) = true := by decide +kernel
  have hcpos : 0 ≤ fval (fmul ftwo fpi) := by decide +kernel
  refine isFinite_of_between isFinite_fzero hc ?_ ?_
  · refine le_fmul hc hphi isFinite_fzero ?_
    rw [fval_fzero, Int.zero_mul]; exact Int.mul_nonneg hcpos h0
  · exact fmul_le hc hphi hc (Int.mul_le_mul_of_nonneg_left h1.le hcpos)

theorem isPositive_machineMinRate : isPositive machineMinRate = true := isPositive_legalPositive _

theorem machineMaxRate_spec : isPositive machineMaxRate = true ∧ fle machineMinRate machineMaxRate = true := by
  unfold machineMaxRate
  split
  · rename_i h; simpa using h
  · refine ⟨isPositive_machineMinRate, fle_refl ?_⟩
    have h := isPositive_machineMinRate
    unfold isPositive at h
    rw [Bool.and_eq_true] at h
    exact not_isNaN_of_isFinite h.1

theorem machineParams_slotCount : machineParams.slotCount = 4 := by rw [machineParams]
theorem machineParams_num : machineParams.num = machineNum := by rw [machineParams]
theorem machineParams_lfoWave : machineParams.lfoWave = sineWave machineNum fpi := by rw [machineParams]
theorem machineParams_dynDefault : machineParams.dynDefault = legalDyn freeDynDefault := by rw [machineParams]

/-- The machine's configuration is a TFU's (R6, R13, R271), whatever the free values are. -/
theorem lawful_machineParams : LawfulParams machineParams where
  freq := fun _ => isPositive_legalPositive _
  amp := fun _ => isFinite_legalFinite _
  widthScale := fun _ => isNonNegative_legalNonNegative _
  attenPositive := by decide
  attenUnit := by decide
  minRate := isPositive_machineMinRate
  maxRate := machineMaxRate_spec.1
  rateOrder := machineMaxRate_spec.2
  wave := by rw [machineParams_lfoWave]; exact wave_machineParams
  cosEven := by rw [machineParams_num]; exact cosEven_machineNum
  cosRange := by rw [machineParams_num]; exact cosRange_machineNum
  sinRange := by rw [machineParams_num]; exact sinRange_machineNum
  expUnit := by rw [machineParams_num]; exact expUnit_machineNum
  pow2Int := by rw [machineParams_num]; exact pow2Int_machineNum
  pow2Mono := by rw [machineParams_num]; exact pow2Mono_machineNum
  finite := by
    rw [machineParams_num]
    exact finiteInRange_of_bounds cosRange_machineNum sinRange_machineNum expUnit_machineNum
      (pow2Range_of_mono pow2Int_machineNum pow2Mono_machineNum)
  slots := by rw [machineParams_slotCount]; decide
  dynDefault := by rw [machineParams_dynDefault]; exact dynSafe_legalDyn _

end Sys2Proof.Machine
end

