-- ==== Sys2Proof/Laws/PerInstr.lean ====
section
/-! SUPPORT. A statement about the syntax of every command, one lemma per constructor: the fields of its encoded
word are its opcode, its selector and its payload (R90, R91, R94). -/

namespace Sys2Proof

/-- The fields of a word put together from an opcode, a selector and a payload. -/
theorem fields_of_word (o sel : BitVec 8) (x : BitVec 64) :
    opcField (o ++ (sel ++ x)) = o ∧ selField (o ++ (sel ++ x)) = sel ∧ xField (o ++ (sel ++ x)) = x := by
  refine ⟨?_, ?_, ?_⟩
  · unfold opcField
    rw [BitVec.extractLsb'_append_eq_of_le (by decide)]
    simp
  · unfold selField
    rw [BitVec.extractLsb'_append_eq_of_add_le (by decide), BitVec.extractLsb'_append_eq_of_le (by decide)]
    simp
  · unfold xField
    rw [BitVec.extractLsb'_append_eq_of_add_le (by decide), BitVec.extractLsb'_append_eq_of_add_le (by decide)]
    simp

/-- The operand fields of a payload put together from two f32 operands. -/
theorem halves_of_payload (o sel : BitVec 8) (a b : BitVec 32) :
    aField (o ++ (sel ++ (a ++ b))) = a ∧ bField (o ++ (sel ++ (a ++ b))) = b := by
  refine ⟨?_, ?_⟩
  · unfold aField
    rw [BitVec.extractLsb'_append_eq_of_add_le (by decide), BitVec.extractLsb'_append_eq_of_add_le (by decide),
      BitVec.extractLsb'_append_eq_of_le (by decide)]
    simp
  · unfold bField
    rw [BitVec.extractLsb'_append_eq_of_add_le (by decide), BitVec.extractLsb'_append_eq_of_add_le (by decide),
      BitVec.extractLsb'_append_eq_of_add_le (by decide)]
    simp

/-- The encoded word has the command's opcode byte, selector byte and payload. -/
def Laws.WordFields.Statement (i : Instr) : Prop :=
  opcField (encode i) = i.opcode ∧ selField (encode i) = i.selector ∧ xField (encode i) = i.payload

theorem Laws.WordFields.construct (v0 sr : F32) : Laws.WordFields.Statement (.construct v0 sr) :=
  fields_of_word _ _ _
theorem Laws.WordFields.setVowel (v : F32) : Laws.WordFields.Statement (.setVowel v) := fields_of_word _ _ _
theorem Laws.WordFields.getVowel : Laws.WordFields.Statement .getVowel := fields_of_word _ _ _
theorem Laws.WordFields.setLfo (ratePercent depth : F32) : Laws.WordFields.Statement (.setLfo ratePercent depth) :=
  fields_of_word _ _ _
theorem Laws.WordFields.process (x : F64) : Laws.WordFields.Statement (.process x) := fields_of_word _ _ _
theorem Laws.WordFields.dynCfg (sel : BitVec 8) (x : F64) : Laws.WordFields.Statement (.dynCfg sel x) :=
  fields_of_word _ _ _
theorem Laws.WordFields.dynProc (x : F64) : Laws.WordFields.Statement (.dynProc x) := fields_of_word _ _ _

end Sys2Proof
end

