-- ==== Sys2Proof/Laws/Process.lean ====
section
/-! SUPPORT. When the table lookup and PROCESS give a value: the width clamp, a lookup before the last column, and the
slots of PROCESS one after another. -/

namespace Sys2Proof.Machine

open Sys2Proof.Config

theorem fval_fsixtyTwo : fval fsixtyTwo = 62 * oneUnits := by decide +kernel

/-- The clamped width is finite and in `[0, 62]` (R125), unless the width is a NaN. -/
theorem clampWidth_bounds {w : F64} (h : isNaN w = false) :
    isFinite (clampWidth w) = true ∧ 0 ≤ fval (clampWidth w) ∧ fval (clampWidth w) ≤ 62 * oneUnits := by
  have h62 : isFinite fsixtyTwo = true := by decide
  have n62 := not_isNaN_of_isFinite h62
  have nz := not_isNaN_of_isFinite isFinite_fzero
  have hpos : (0 : Int) < oneUnits := by exact_mod_cast oneUnits_pos
  unfold clampWidth
  split
  · exact ⟨isFinite_fzero, by rw [fval_fzero], by rw [fval_fzero]; omega⟩
  · rename_i hlo
    split
    · exact ⟨h62, by rw [fval_fsixtyTwo]; omega, by rw [fval_fsixtyTwo]⟩
    · rename_i hhi
      have lo : fle fzero w = true := fle_of_not_flt nz h (by simpa using hlo)
      have hi : fle w fsixtyTwo = true := fle_of_not_flt h n62 (by simpa using hhi)
      refine ⟨isFinite_of_between isFinite_fzero h62 lo hi, ?_, ?_⟩
      · rw [fle_iff_fval nz h, fval_fzero] at lo; exact lo
      · rw [fle_iff_fval h n62, fval_fsixtyTwo] at hi; exact hi

/-- The row of a clamped width: at most 62. -/
theorem ftoNat_clampWidth {w : F64} (h : isNaN w = false) : ∃ i, ftoNat (clampWidth w) = some i ∧ i ≤ 62 := by
  obtain ⟨hf, h0, h1⟩ := clampWidth_bounds h
  have hpos : (0 : Int) < oneUnits := by exact_mod_cast oneUnits_pos
  refine ⟨_, ftoNat_of_nonneg hf h0, ?_⟩
  have := Int.ediv_le_ediv hpos h1
  rw [Int.mul_ediv_cancel _ hpos.ne'] at this
  omega

/-- Before the last column the lookup gives a value for every width that is not a NaN. -/
theorem getFormant_before_last_column (tf : Table) {phase w : F64} {j : Nat}
    (hlo : fle (fneg fone) phase = true) (hhi : fle phase fone = true) (hj : ftoNat (rowCoordinate phase) = some j)
    (hlt : j < 256) (hw : isNaN w = false) : ∃ y, getFormant tf phase w = .ok y := by
  obtain ⟨i, hi, hi62⟩ := ftoNat_clampWidth hw
  have read : ∀ a, a < tableWords → memRead tf a = .ok (tf.read a) := fun a ha => by unfold memRead; rw [if_pos ha]
  have hsize : tableWords = 16448 := rfl
  have hrow : tableSize = 257 := rfl
  have hcell : cellAddress j i = j + 257 * i := rfl
  unfold getFormant toNatOrBounds
  rw [hlo, hhi, hj, hi]
  simp only [bind, Except.bind, Bool.and_self, if_true]
  rw [if_neg (by omega), read _ (by omega), read _ (by omega), read _ (by omega), read _ (by omega)]
  exact ⟨_, rfl⟩

/-- Step 5 gives a value when every slot has a formant: smoothing moves neither the phase nor the table. -/
theorem processSlots_ok (p : Params) (f0 x : F64) (u : Regs p.slotCount)
    (h : ∀ s, ∃ y, (if p.synthMode then getFormant u.tf u.phase (fmul (p.widthScale s) (fdiv fone f0)) else .ok fone) =
      .ok y) : ∃ r, processSlots p f0 x u = .ok r := by
  have fold : ∀ (l : List (Fin p.slotCount)) (acc : F64 × Regs p.slotCount), acc.2.tf = u.tf → acc.2.phase = u.phase →
      ∃ r, l.foldlM (processSlot p f0 (fdiv fone f0) x) acc = .ok r := by
    intro l
    induction l with
    | nil => intro acc _ _; exact ⟨acc, rfl⟩
    | cons s l ih =>
      intro acc htf hph
      obtain ⟨y, hy⟩ := h s
      have hs : slotFormant p (fdiv fone f0) s (smooth p s acc.2) = .ok y := by
        unfold slotFormant
        rw [smooth_tf, smooth_phase, htf, hph]
        exact hy
      have step : ∃ a, processSlot p f0 (fdiv fone f0) x acc s = .ok a ∧ a.2 = smooth p s acc.2 := by
        unfold processSlot
        dsimp only
        rw [hs]
        exact ⟨_, rfl, rfl⟩
      obtain ⟨a, ha, hreg⟩ := step
      rw [List.foldlM_cons, ha]
      exact ih a (by rw [hreg, smooth_tf, htf]) (by rw [hreg, smooth_phase, hph])
  exact fold _ _ rfl rfl

/-- PROCESS of a finite sample gives a value when the working vowel selects an entry and every slot has a formant. -/
theorem processRegs_ok (p : Params) {x : F64} (u : Regs p.slotCount) (hx : isFinite x = true) {k : Fin entries}
    (hk : selectEntry (processVowel p u).tempVowel = .ok k)
    (h : let f0 := carrierFreq p (processVowel p u).tempVowel
      ∀ s, ∃ y, (if p.synthMode then
          getFormant u.tf (nextPhase f0 u.srate u.phase) (fmul (p.widthScale s) (fdiv fone f0)) else .ok fone) =
        .ok y) : ∃ r, processRegs p x u = .ok r := by
  have hs : sampleRefused x = false := by
    unfold sampleRefused
    rw [not_isNaN_of_isFinite hx, not_isInf_of_isFinite hx, Bool.or_self]
  have hprep : processPrepare p u = .ok (carrierFreq p (processVowel p u).tempVowel,
      processPhase (carrierFreq p (processVowel p u).tempVowel) { processVowel p u with coeffOffset := k }) := by
    unfold processPrepare cacheCoeffOffset
    rw [hk]
    rfl
  obtain ⟨r, hr⟩ := processSlots_ok p (carrierFreq p (processVowel p u).tempVowel) x
    (processPhase (carrierFreq p (processVowel p u).tempVowel) { processVowel p u with coeffOffset := k })
    (by simpa using h)
  unfold processRegs
  rw [hs, hprep]
  simp only [bind, Except.bind, Bool.false_eq_true, if_false]
  rw [hr]
  exact ⟨_, rfl⟩

end Sys2Proof.Machine
end

