-- ==== Sys2Proof/Machine/Assembler.lean ====
section
/-! DEFINITION. The assembler syntax of `30_encoding.md` R99: one command per line, the mnemonic in upper case,
then its operands separated by commas; `;` starts a comment. A line is a list of characters. -/

namespace Sys2Proof.Machine

/-! ## Characters -/

/-- The value of a decimal digit. -/
def digitValue (c : Char) : Option Nat :=
  if 48 ≤ c.toNat ∧ c.toNat ≤ 57 then some (c.toNat - 48) else none

/-- The value of a hex digit, in either case. -/
def hexValue (c : Char) : Option Nat :=
  if 48 ≤ c.toNat ∧ c.toNat ≤ 57 then some (c.toNat - 48)
  else if 65 ≤ c.toNat ∧ c.toNat ≤ 70 then some (c.toNat - 55)
  else if 97 ≤ c.toNat ∧ c.toNat ≤ 102 then some (c.toNat - 87)
  else none

/-- A blank between the parts of a line: a space or a tab. -/
def isBlank (c : Char) : Bool := c = ' ' || c = '\t'

/-- Without the blanks at both ends. -/
def trimBlanks (cs : List Char) : List Char := ((cs.dropWhile isBlank).reverse.dropWhile isBlank).reverse

/-- The text before a comment (R99: from `;` to the end of the line). -/
def withoutComment (cs : List Char) : List Char := cs.takeWhile (fun c => c != ';')

/-- The parts between commas. -/
def splitCommas : List Char → List (List Char)
  | [] => [[]]
  | c :: rest =>
    if c = ',' then [] :: splitCommas rest
    else
      match splitCommas rest with
      | [] => [[c]]
      | part :: parts => (c :: part) :: parts

/-! ## Literals -/

/-- The number a list of digits in the given base stands for, `acc` before it; nothing where a character is no
digit. -/
def digitsValue (base : Nat) (digit : Char → Option Nat) (acc : Nat) : List Char → Option Nat
  | [] => some acc
  | c :: rest =>
    match digit c with
    | some d => digitsValue base digit (acc * base + d) rest
    | none => none

/-- A natural number in decimal: at least one digit. -/
def decimalNat (cs : List Char) : Option Nat :=
  if cs.isEmpty then none else digitsValue 10 digitValue 0 cs

/-- A decimal literal's magnitude `num / den`. -/
structure DecimalValue where
  negative : Bool
  num : Nat
  den : Nat
deriving DecidableEq, Repr

/-- `n * 10^e` for a mantissa of `scale` fractional digits and an exponent of the given sign. -/
def decimalOf (negative : Bool) (mantissa scale : Nat) (expNegative : Bool) (e : Nat) : DecimalValue :=
  if expNegative then { negative := negative, num := mantissa, den := 10 ^ (scale + e) }
  else { negative := negative, num := mantissa * 10 ^ e, den := 10 ^ scale }

/-- The part of a list before the first occurrence of a character, and the part after it where there is one. -/
def splitFirst (c : Char) : List Char → List Char × Option (List Char)
  | [] => ([], none)
  | d :: rest => if d = c then ([], some rest) else ((d :: (splitFirst c rest).1), (splitFirst c rest).2)

/-- The exponent of a decimal literal: no exponent is 0. -/
def decimalExponent : Option (List Char) → Option (Bool × Nat)
  | none => some (false, 0)
  | some ('-' :: cs) => (decimalNat cs).map fun e => (true, e)
  | some cs => (decimalNat cs).map fun e => (false, e)

/-- The digits of a mantissa and how many of them are fractional. -/
def decimalMantissa (cs : List Char) : Option (Nat × Nat) :=
  match splitFirst '.' cs with
  | (whole, none) => (decimalNat whole).map fun n => (n, 0)
  | (whole, some fraction) =>
    match decimalNat whole, decimalNat fraction with
    | some _, some _ => (decimalNat (whole ++ fraction)).map fun n => (n, fraction.length)
    | _, _ => none

/-- An unsigned decimal literal such as `0.5`, `44100` or `1e-3`. -/
def unsignedDecimal (negative : Bool) (cs : List Char) : Option DecimalValue :=
  let parts := splitFirst 'e' cs
  match decimalMantissa parts.1, decimalExponent parts.2 with
  | some m, some e => some (decimalOf negative m.1 m.2 e.1 e.2)
  | _, _ => none

/-- A decimal literal: an optional minus sign, then an unsigned one. -/
def decimalLiteral : List Char → Option DecimalValue
  | '-' :: cs => unsignedDecimal true cs
  | cs => unsignedDecimal false cs

/-- The hex digits after `bits:0x`. -/
def afterBits : List Char → Option (List Char)
  | 'b' :: 'i' :: 't' :: 's' :: ':' :: '0' :: 'x' :: digits => some digits
  | _ => none

/-- `bits:0x` and the given number of hex digits give the field's bits outright. -/
def bitsLiteral (digits : Nat) (cs : List Char) : Option Nat :=
  match afterBits cs with
  | some ds => if ds.length = digits then digitsValue 16 hexValue 0 ds else none
  | none => none

/-- An f64 operand: `bits:0x` with 16 hex digits, or a decimal literal converted with round to nearest, ties to
even. `bits:0x` is "the only way to write a NaN, an infinity or `-0`": a decimal that rounds to zero is `+0`,
and one that rounds to an infinity does not assemble (log 13). -/
def operandF64 (cs : List Char) : Option F64 :=
  match bitsLiteral 16 cs with
  | some n => some (BitVec.ofNat 64 n)
  | none =>
    match decimalLiteral cs with
    | some d =>
      let x := ofUnits d.negative (d.num * oneUnits) d.den
      if isInf x then none else if isZero x then some fzero else some x
    | none => none

/-- An f32 operand: `bits:0x` with 8 hex digits, or a decimal literal, as for `operandF64`. -/
def operandF32 (cs : List Char) : Option F32 :=
  match bitsLiteral 8 cs with
  | some n => some (BitVec.ofNat 32 n)
  | none =>
    match decimalLiteral cs with
    | some d =>
      let a := ofUnits32 d.negative (d.num * 2 ^ 149) d.den
      if fbits32 a = infBits32 then none else if fbits32 a = 0 then some 0#32 else some a
    | none => none

/-- DYNCFG's `reg`: a register name or a decimal number 0 to 255; numbers above 10 assemble and fault. -/
def operandReg (cs : List Char) : Option (BitVec 8) :=
  if cs = ['T', 'H', 'R'] then some 0#8
  else if cs = ['R', 'A', 'T'] then some 1#8
  else if cs = ['T', 'R', 'I', 'M'] then some 2#8
  else if cs = ['A', 'T', 'T'] then some 3#8
  else if cs = ['R', 'E', 'L'] then some 4#8
  else if cs = ['L', 'T', 'H', 'R'] then some 5#8
  else if cs = ['X', 'T', 'H', 'R'] then some 6#8
  else if cs = ['G', 'A', 'T', 'T'] then some 7#8
  else if cs = ['X', 'R', 'A', 'T'] then some 8#8
  else if cs = ['D', 'R', 'Y'] then some 9#8
  else if cs = ['M', 'O', 'D', 'E'] then some 10#8
  else
    match decimalNat cs with
    | some n => if n ≤ 255 then some (BitVec.ofNat 8 n) else none
    | none => none

/-! ## Lines -/

/-- The operands of a line: the parts between commas, without their blanks; none where the text is blank. -/
def operandTexts (cs : List Char) : List (List Char) :=
  if (trimBlanks cs).isEmpty then [] else (splitCommas cs).map trimBlanks

/-- The command a mnemonic and its operands stand for. -/
def assembleCommand (mnemonic : List Char) (operands : List (List Char)) : Option Instr :=
  if mnemonic = ['C', 'O', 'N', 'S', 'T', 'R', 'U', 'C', 'T'] then
    match operands with
    | [a, b] =>
      match operandF32 a, operandF32 b with
      | some v0, some sr => some (.construct v0 sr)
      | _, _ => none
    | _ => none
  else if mnemonic = ['S', 'E', 'T', 'V', 'O', 'W', 'E', 'L'] then
    match operands with
    | [a] => (operandF32 a).map .setVowel
    | _ => none
  else if mnemonic = ['G', 'E', 'T', 'V', 'O', 'W', 'E', 'L'] then
    match operands with
    | [] => some .getVowel
    | _ => none
  else if mnemonic = ['S', 'E', 'T', 'L', 'F', 'O'] then
    match operands with
    | [a, b] =>
      match operandF32 a, operandF32 b with
      | some ratePercent, some depth => some (.setLfo ratePercent depth)
      | _, _ => none
    | _ => none
  else if mnemonic = ['P', 'R', 'O', 'C', 'E', 'S', 'S'] then
    match operands with
    | [a] => (operandF64 a).map .process
    | _ => none
  else if mnemonic = ['D', 'Y', 'N', 'C', 'F', 'G'] then
    match operands with
    | [r, a] =>
      match operandReg r, operandF64 a with
      | some sel, some x => some (.dynCfg sel x)
      | _, _ => none
    | _ => none
  else if mnemonic = ['D', 'Y', 'N', 'P', 'R', 'O', 'C'] then
    match operands with
    | [a] => (operandF64 a).map .dynProc
    | _ => none
  else none

/-- One line of a command script: a blank line or a comment holds no command (`some none`); text that is no
command of R99 does not assemble (`none`). -/
def assembleLine (line : List Char) : Option (Option Instr) :=
  let text := trimBlanks (withoutComment line)
  if text.isEmpty then some none
  else
    match assembleCommand (text.takeWhile fun c => !isBlank c) (operandTexts (text.dropWhile fun c => !isBlank c)) with
    | some i => some (some i)
    | none => none

/-- A command script, line by line (R99). -/
def assembleScript : List (List Char) → Option (List Instr)
  | [] => some []
  | line :: rest =>
    match assembleLine line, assembleScript rest with
    | some (some i), some is => some (i :: is)
    | some none, some is => some is
    | _, _ => none

end Sys2Proof.Machine
end

