-- ==== Sys2Proof/Tests/Slice0.lean ====
section
/-! SUPPORT. The model's own tests: expected values come from the vectors of `95_test_vectors.md` and the worked
examples of the rules; then, for every statement with hypotheses, a named state and operands that meet them. -/

namespace Sys2Proof.Tests

open Sys2Proof Sys2Proof.Machine Sys2Proof.Config

-- one declaration at a time: many kernel evaluations at once would exhaust the sandbox's threads
set_option Elab.async false

/-! ## Well-formedness: the one check, DYNCFG's selector (R95, R96) -/

theorem test_selector_eleven_is_refused : Instr.WellFormed (.dynCfg 11#8 fone) = false := by decide
theorem test_selector_255_is_refused : Instr.WellFormed (.dynCfg 255#8 fone) = false := by decide
theorem test_selector_ten_is_accepted : Instr.WellFormed (.dynCfg 10#8 fone) = true := by decide

/-! ## Decoding: vectors V-E1 to V-E18 -/

theorem test_decode_construct : decode 0x01003F000000472C4400#80 = .ok (.construct 0x3F000000#32 0x472C4400#32) := by
  decide
theorem test_decode_setVowel : decode 0x02003E80000000000000#80 = .ok (.setVowel 0x3E800000#32) := by decide
theorem test_decode_getVowel : decode 0x03000000000000000000#80 = .ok .getVowel := by decide
theorem test_decode_setLfo : decode 0x04003F0000003F800000#80 = .ok (.setLfo 0x3F000000#32 0x3F800000#32) := by decide
theorem test_decode_process : decode 0x05003FF0000000000000#80 = .ok (.process 0x3FF0000000000000#64) := by decide
theorem test_decode_dynCfg : decode 0x060A3FF0000000000000#80 = .ok (.dynCfg 10#8 0x3FF0000000000000#64) := by decide
theorem test_decode_dynProc : decode 0x0700BFF0000000000000#80 = .ok (.dynProc 0xBFF0000000000000#64) := by decide
theorem test_illegal_opcodes : decode 0#80 = .error .illegalOpcode ∧
    decode 0x08000000000000000000#80 = .error .illegalOpcode ∧
    decode 0xFFFFFFFFFFFFFFFFFFFF#80 = .error .illegalOpcode := by decide
theorem test_illegal_encodings : decode 0x05013FF0000000000000#80 = .error .illegalEncoding ∧
    decode 0x02003E80000000000001#80 = .error .illegalEncoding ∧
    decode 0x03000000000000000001#80 = .error .illegalEncoding ∧
    decode 0x060B3FF0000000000000#80 = .error .illegalEncoding ∧
    decode 0x06FF0000000000000000#80 = .error .illegalEncoding ∧
    decode 0x01013F000000472C4400#80 = .error .illegalEncoding := by decide
theorem test_encode_setLfo : encode (.setLfo 0x3F000000#32 0x3F800000#32) = 0x04003F0000003F800000#80 := by decide
theorem test_command_bytes : commandBytes 0x01003F000000472C4400#80 =
    [0x01#8, 0x00#8, 0x3F#8, 0x00#8, 0x00#8, 0x00#8, 0x47#8, 0x2C#8, 0x44#8, 0x00#8] := by decide

/-- `CONSTRUCT 0.5, 44100` and `DYNCFG THR, 0.25` as R99 writes them, with a comment. -/
theorem test_assemble : assembleLine "CONSTRUCT 0.5, 44100 ; start".toList = assembleLine "CONSTRUCT bits:0x3F000000, bits:0x472C4400".toList := by
  decide +kernel

/-! ## Arithmetic: literals are the nearest binary64 (R11), and worked values -/

theorem test_literals : machineParams.pi = fpi ∧ machineParams.slotCount = 4 ∧ f085 = decimal 85 100 ∧ f015 = decimal 15 100 ∧ flushThreshold = decimal 1 (10 ^ 10) ∧
    divFloor = decimal 1 (10 ^ 9) ∧ machineParams.atten = decimal 5 10000 ∧ fthousand = natToF64 1000 := by
  decide +kernel
/-- 1 + 2^-53 is a tie and goes to the even 1; 1 + 3 * 2^-53 goes to 1 + 2^-51. -/
theorem test_add_ties_to_even : fadd fone 0x3CA0000000000000#64 = fone ∧
    fadd 0x3FF0000000000001#64 0x3CA0000000000000#64 = 0x3FF0000000000002#64 := by decide +kernel
theorem test_add_infinities : isNaN (fadd 0x7FF0000000000000#64 0xFFF0000000000000#64) = true ∧
    fadd 0x7FEFFFFFFFFFFFFF#64 0x7FEFFFFFFFFFFFFF#64 = 0x7FF0000000000000#64 := by
  refine ⟨?_, by decide +kernel⟩
  unfold fadd
  exact isNaN_quietNaN _
/-- Gradual underflow: half the least subnormal ties to zero, and half of three times it goes to twice it. -/
theorem test_mul_underflows_gradually : fmul 1#64 fhalf = 0#64 ∧ fmul 3#64 fhalf = 2#64 := by decide +kernel
theorem test_fmod_truncates : ffmod 0xC00C000000000000#64 ftwo = 0xBFF8000000000000#64 := by decide +kernel
theorem test_widen_narrow : widen 0x3DCCCCCD#32 = 0x3FB99999A0000000#64 ∧ narrow 0x3FB99999A0000000#64 = 0x3DCCCCCD#32 := by
  decide +kernel
/-- V-T1, V-T2, V-T4, V-T5a. -/
theorem test_fast_cos : fastCos fzero = fone ∧ fastCos 0x3FD0000000000000#64 = 0x3FE8400000000000#64 ∧
    fastCos 0x3FE8000000000000#64 = 0xBFE3C00000000000#64 ∧ fastCos ftwo = 0x4031000000000000#64 := by decide +kernel
/-- V-C3 and V-C4. -/
theorem test_smooth : smoothed machineParams (decimal 7 10) fone = 0x3FE667A0F9096BB9#64 ∧
    smoothed machineParams (natToF64 190) (natToF64 730) = 0x4067C8A3D70A3D71#64 := by decide +kernel
/-- V-C1. -/
theorem test_select_entry : [decimal 0 1, decimal 124 1000, decimal 125 1000, decimal 49 100, fhalf, decimal 875 1000,
    decimal 9999 10000, fone].map (fun t => (selectEntry t).toOption) =
    [some 0, some 0, some 1, some 3, some 4, some 7, some 7, some 8] := by decide +kernel
/-- V-K1, given `P-pow2-int`. -/
theorem test_carrier_frequency : carrierFreq machineParams fzero = natToF64 192 ∧
    carrierFreq machineParams 0x3FE8000000000000#64 = natToF64 24 := by decide +kernel
/-- V-K3 and V-K5. -/
theorem test_get_carrier : getCarrier 0x4004000000000000#64 0x3FD0000000000000#64 = 0xBFCF800000000000#64 ∧
    getCarrier (decimal 9 10) fone = 0xBFE999999999999A#64 := by decide +kernel
/-- V-L10: the wrap at exactly 1; and V-L5's increment. -/
theorem test_lfo_phase : lfoNextPhase 0x3FE8000000000000#64 (natToF64 12000) (natToF64 48000) = fzero ∧
    lfoNextPhase fzero 0x4014333333333333#64 (natToF64 48000) = 0x3F1B9469675B1157#64 := by decide +kernel
/-- R175's example: `48 / 22050`. -/
theorem test_carrier_phase : nextPhase (natToF64 48) (natToF64 44100) fzero = 0x3F61D53A957D7519#64 := by decide +kernel
/-- V-T19, V-T20: the two bounds of the lookup. -/
theorem test_lookup_bounds : (getFormant [] fone (natToF64 62)).toOption = none ∧
    (getFormant [] 0x3FF8000000000000#64 fone).toOption = none ∧
    (getFormant [(128, fhalf)] fzero fzero).toOption = some fhalf := by decide +kernel
theorem test_table_write_keeps_order : Table.write (Table.write [] 5 fone) 3 fhalf = [(3, fhalf), (5, fone)] ∧
    Table.write [(3, fhalf), (5, fone)] 3 fzero = [(5, fone)] := by decide

/-! ## Commands -/

/-- A unit after `CONSTRUCT 0.5, 44100` (V-S17). -/
def bootRegs : UnitRegs := constructed machineParams fhalf (widen 0x472C4400#32) 4

/-- That unit with nothing sent to it. -/
def bootState : State := { State.reset with unit := some bootRegs }

/-- Configuration D-A of `95_test_vectors.md`. -/
def configA : DynRegs :=
  { thr := 0x3FD0000000000000#64, rat := fone, trim := fone, att := fhalf, rel := fhalf, lthr := fzero
    xthr := fzero, gatt := fhalf, xrat := fhalf, dry := fzero, mode := false }

/-- The unit of `bootState` with given LFO registers. -/
def lfoRegs (vowel temp depth : F64) : UnitRegs :=
  cacheLfo { bootRegs with hasLfo := true, lfoDepth := depth, vowel := vowel, tempVowel := temp }

theorem test_construct_registers :
    (constructRegs machineParams 0x3F000000#32 0x472C4400#32).toOption.isSome = true ∧
    bootRegs.lfoMin = fhalf ∧ bootRegs.lfoMax = fhalf ∧ bootRegs.lfoRange = fzero := by
  refine ⟨?_, ?_, ?_, ?_⟩ <;> decide +kernel
/-- V-S2: SETVOWEL with the LFO on. -/
theorem test_setVowel_with_lfo :
    ((setVowelRegs 0x3E800000#32 (lfoRegs fhalf 0x3FE4000000000000#64 fhalf)).toOption.map fun r =>
      [r.1.vowel, r.1.tempVowel, r.1.lfoRange, r.1.lfoMin, r.1.lfoMax, natToF64 r.1.coeffOffset.val]) =
    some [0x3FD0000000000000#64, 0x3FD4000000000000#64, 0x3FC0000000000000#64, 0x3FC8000000000000#64,
      0x3FD4000000000000#64, ftwo] := by decide +kernel
/-- V-S3: from a base vowel of 0, `retrack` raises the working vowel. -/
theorem test_setVowel_from_zero :
    ((setVowelRegs 0x3F000000#32 (lfoRegs fzero fzero fone)).toOption.map fun r =>
      [r.1.tempVowel, r.1.lfoMin, r.1.lfoMax]) =
    some [0x3FD0000000000000#64, 0x3FD0000000000000#64, 0x3FE8000000000000#64] := by decide +kernel
/-- V-S7: GETVOWEL's data. -/
theorem test_getVowel : vowelData { bootRegs with vowel := 0x3FB99999A0000000#64 } = 0x3DCCCCCD00000000#64 := by
  decide +kernel
/-- V-S10: SETLFO 0.5, 1.0. -/
theorem test_setLfo :
    ((setLfoRegs (paramsT0 machineNum) 0x3F000000#32 0x3F800000#32 bootRegs).toOption.map fun r =>
      (r.1.hasLfo, [r.1.lrate, r.1.lfoDepth, r.1.lfoRange, r.1.lfoMin, r.1.lfoMax, r.1.tempVowel])) =
    some (true, [0x4014333333333333#64, fone, fhalf, 0x3FD0000000000000#64, 0x3FE8000000000000#64, fhalf]) := by
  decide +kernel
/-- V-S12: a new depth clamps the working vowel. -/
theorem test_setLfo_clamps :
    ((setLfoRegs (paramsT0 machineNum) 0x3E800000#32 0x3F000000#32 (lfoRegs fhalf (decimal 7 10) fone)).toOption.map
      fun r => [r.1.lrate, r.1.lfoMin, r.1.lfoMax, r.1.tempVowel]) =
    some [0x400499999999999A#64, 0x3FD8000000000000#64, 0x3FE4000000000000#64, 0x3FE4000000000000#64] := by
  decide +kernel
/-- P1, command 2: the phases after the first PROCESS. -/
theorem test_process_phases :
    ((processPrepare (paramsT0 machineNum) { bootRegs with lrate := decimal 1 10 }).toOption.map fun r =>
      [r.1, r.2.phase, r.2.lphase, natToF64 r.2.coeffOffset.val]) =
    some [natToF64 48, 0x3F61D53A957D7519#64, 0x3EC30593D2A7F45F#64, ffour] := by decide +kernel
/-- P1, command 2, slot 0: width, carrier and term, given the formant. -/
theorem test_process_term :
    getCarrier (fmul (natToF64 190) (fdiv fone (natToF64 48))) 0x3F61D53A957D7519#64 = 0x3FEFFD8F9759FC31#64 ∧
    slotTerm (natToF64 48) fone 0x4009B037C9C22EB9#64 0x3FEFFD8F9759FC31#64 0
      { bootRegs with aval := #v[decimal 7 10, fone, fone, fone], fval := #v[natToF64 190, fone, fone, fone] } =
      0x3FE22A6C8199D663#64 := by decide +kernel
/-- V-D1 and the second sample of V-D2. -/
theorem test_dyn_simple : dyn configA { env := fzero, env2 := fzero, genv := fzero } fone =
    (fhalf, { env := fhalf, env2 := fzero, genv := fzero }) ∧
    (dyn configA { env := fhalf, env2 := fzero, genv := fzero } fone).1 = 0x3FD5555555555555#64 := by decide +kernel
/-- V-D14.1 and V-D14.4: full mode. -/
theorem test_dyn_full :
    let b := { configA with lthr := 0x3FD0000000000000#64, xthr := 0x3FC0000000000000#64, mode := true }
    dyn b { env := fzero, env2 := fzero, genv := fzero } fone =
      (0x3FC0000000000000#64, { env := fhalf, env2 := fone, genv := fhalf }) ∧
    dyn b { env := 0x3FEC000000000000#64, env2 := fone, genv := 0x3FEC000000000000#64 } fzero =
      (fzero, { env := 0x3FDC000000000000#64, env2 := fhalf, genv := 0x3FEE000000000000#64 }) := by decide +kernel
/-- V-D9: exactly `1e-10` is kept, the word below it is flushed. -/
theorem test_flush : flush flushThreshold = flushThreshold ∧ flush 0x3DDB7CDFD9D7BDBA#64 = fzero := by decide +kernel
/-- V-D18, V-D19, V-D22, V-D23. -/
theorem test_dynCfg :
    ((dynCfgRegs 0#8 0x3FD0000000000000#64 bootRegs).toOption.map fun r => r.1.dyn.thr) = some 0x3FD0000000000000#64 ∧
    (dynCfgRegs 0#8 0x8000000000000000#64 bootRegs).toOption.isSome = false ∧
    (dynCfgRegs 10#8 fhalf bootRegs).toOption.isSome = false ∧
    ((dynCfgRegs 10#8 0x8000000000000000#64 bootRegs).toOption.map fun r => r.1.dyn.mode) = some false := by
  refine ⟨?_, ?_, ?_, ?_⟩ <;> decide +kernel
/-- V-F1: a command on an unconstructed unit, as the first step after reset. -/
theorem test_step_not_constructed : step (State.reset.withFetchWord 80 0x03000000000000000000) =
    .next { State.reset with statusFault := 0x08#8, responses := [0x030000000000000000#72] } := by rfl
/-- V-F2: the all-zero word. -/
theorem test_step_illegal_opcode : step (State.reset.withFetchWord 80 0) =
    .next { State.reset with statusFault := 0x02#8, responses := [0x010000000000000000#72] } := by rfl
theorem test_decode_table_word : decodeTableWord 80 0x0504030201000000 = none ∧
    decodeTableWord 80 0x05003FF0000000000000 = some (.process fone) := by decide

/-! ## Witnesses: for each statement, a state and operands that meet its hypotheses -/

/-- The unit of `bootState`, asked for its vowel. -/
def askedState : State := { bootState with input := [.command 0x03000000000000000000#80] }

/-- What GETVOWEL leaves of a state with that unit. -/
def answered (s : State) : State :=
  { s with unit := some bootRegs, responses := responseWord 0 (vowelData bootRegs) :: s.responses }

theorem exec_getVowel_boot : exec .getVowel bootState = .next (answered bootState) := by rfl

theorem step_asked : step askedState = .next (answered bootState) := by rfl

theorem wit_DecodeOfEncode : Instr.WellFormed (.dynCfg 10#8 fone) = true ∧ Instr.WellFormed .getVowel = true := by
  decide

theorem wit_EncodeOfDecode : decode 0x060A3FF0000000000000#80 = .ok (.dynCfg 10#8 fone) := by decide

/-- One word for each clause of the decode function, at the ends of the ranges of `OPC` and `SEL`. -/
theorem wit_DecodeRule :
    let opc := fun w : CommandWord => (w.extractLsb' 72 8).toNat
    let sel := fun w : CommandWord => w.extractLsb' 64 8
    opc 0x00003F000000472C4400#80 < 1 ∧ 7 < opc 0x08000000000000000000#80 ∧
    (opc 0x01013F000000472C4400#80 = 1 ∧ sel 0x01013F000000472C4400#80 ≠ 0#8) ∧
    (opc 0x060B0000000000000000#80 = 6 ∧ (sel 0x060B0000000000000000#80).toNat = 11) ∧
    (opc 0x02000000000000000001#80 = 2 ∧ (0x02000000000000000001#80 : CommandWord).extractLsb' 0 32 ≠ 0#32) ∧
    (opc 0x03008000000000000000#80 = 3 ∧ (0x03008000000000000000#80 : CommandWord).extractLsb' 0 64 ≠ 0#64) ∧
    (opc 0x01003F000000472C4400#80 = 1 ∧ sel 0x01003F000000472C4400#80 = 0#8) ∧
    (opc 0x02003E80000000000000#80 = 2 ∧ (0x02003E80000000000000#80 : CommandWord).extractLsb' 0 32 = 0#32) ∧
    (opc 0x03000000000000000000#80 = 3 ∧ (0x03000000000000000000#80 : CommandWord).extractLsb' 0 64 = 0#64) ∧
    (opc 0x04003F0000003F800000#80 = 4 ∧ sel 0x04003F0000003F800000#80 = 0#8) ∧
    (opc 0x05003FF0000000000000#80 = 5 ∧ sel 0x05003FF0000000000000#80 = 0#8) ∧
    (opc 0x060A3FF0000000000000#80 = 6 ∧ (sel 0x060A3FF0000000000000#80).toNat = 10) ∧
    (opc 0x07003FE0000000000000#80 = 7 ∧ sel 0x07003FE0000000000000#80 = 0#8) := by decide

theorem wit_StepRunsTheDecodedCommand :
    askedState.input = .command 0x03000000000000000000#80 :: [] ∧ decode 0x03000000000000000000#80 = .ok .getVowel ∧
    decode 0x060B7FF8000000000000#80 = .error .illegalEncoding ∧ decode 0x08000000000000000000#80 = .error .illegalOpcode :=
  ⟨rfl, by decide, by decide, by decide⟩

theorem wit_IdleAndHardwareReset :
    bootState.input = [] ∧ ({ bootState with input := [.hardwareReset] } : State).input = .hardwareReset :: [] :=
  ⟨rfl, rfl⟩

theorem wit_FaultsArePrecise : exec .getVowel bootState = .next (answered bootState) ∧ 0 ≤ 7 ∧ 7 ≤ 7 :=
  ⟨exec_getVowel_boot, by decide, by decide⟩

/-- A response written out from R93: cause 5 in bits 71 to 64, then `DATA`. -/
theorem test_response_word : responseWord 5 0x0123456789ABCDEF#64 = 0x050123456789ABCDEF#72 := by decide

theorem wit_FaultBitsAreSticky :
    step { askedState with statusFault := 0x20#8 } = .next (answered { bootState with statusFault := 0x20#8 }) ∧
    (∀ rest, ({ askedState with statusFault := 0x20#8 } : State).input ≠ .hardwareReset :: rest) ∧
    (0x20#8).getLsbD 5 = true ∧ FaultBitsLegal { askedState with statusFault := 0x20#8 } := by
  refine ⟨by rfl, ?_, by decide, by unfold FaultBitsLegal; decide⟩
  intro rest h
  simp [askedState] at h

theorem wit_FaultHistoryIsUnobservable : exec .getVowel bootState = .next (answered bootState) := exec_getVowel_boot

theorem wit_NotConstructedUntilConstruct :
    State.reset.constructed = false ∧ Instr.WellFormed (.dynCfg 10#8 fone) = true ∧
    (∀ v sr, Instr.dynCfg 10#8 fone ≠ .construct v sr) ∧
    exec (.construct 0x7FC00000#32 0#32) State.reset = .next (raise .operandNaN State.reset) :=
  ⟨rfl, by decide, (by intro v sr h; cases h), by rfl⟩

/-- A quiet, a signalling and a negative NaN of each width, and the least and the greatest fraction. -/
theorem wit_NaNControlOperandsAreRefused :
    let nan32 := fun a : F32 => a.extractLsb' 23 8 = 255#8 ∧ a.extractLsb' 0 23 ≠ 0#23
    let nan64 := fun x : F64 => x.extractLsb' 52 11 = 2047#11 ∧ x.extractLsb' 0 52 ≠ 0#52
    nan32 0x7FC00000#32 ∧ nan32 0x7F800001#32 ∧ nan32 0xFFFFFFFF#32 ∧ nan64 0x7FF8000000000000#64 ∧
    nan64 0x7FF0000000000001#64 ∧ nan64 0xFFFFFFFFFFFFFFFF#64 ∧ bootState.constructed = true ∧ (10#8).toNat ≤ 10 := by
  refine ⟨?_, ?_, ?_, ?_, ?_, ?_, rfl, ?_⟩ <;> decide

theorem wit_NonFiniteSamplesAreRefused : bootState.constructed = true ∧
    (0xFFF0000000000000#64 : F64).extractLsb' 52 11 = 2047#11 ∧
    (0x7FEFFFFFFFFFFFFF#64 : F64).extractLsb' 52 11 ≠ 2047#11 ∧
    exec (.process 0x7FF0000000000000#64) bootState = .next (raise .sampleNonFinite bootState) :=
  ⟨rfl, by decide, by decide, by rfl⟩

/-- A sample that PROCESS accepts: the answer exists, whatever it is. -/
theorem wit_NonFiniteSamples_accepted :
    ∃ t, exec (.dynProc fone) bootState = .next t := by
  rcases onConstructed_cases (run := dynProcRegs fone) (s := bootState) rfl with ⟨-, h⟩ | ⟨u, -, ⟨u', d, -, h⟩ | ⟨c, -, h⟩⟩
  · exact ⟨_, h⟩
  · exact ⟨_, h⟩
  · exact ⟨_, h⟩

theorem wit_MeaninglessConfigurationIsRefused :
    isNaN32 0x3F000000#32 = false ∧ (isNaN32 0x80000000#32 = false ∧ (0x80000000#32 : F32).msb = true) ∧
    isNaN32 0#32 = false ∧ isNaN32 0x7F800000#32 = false ∧ bootState.constructed = true ∧
    (isNaN 0x8000000000000000#64 = false ∧ (0x8000000000000000#64 : F64).msb = true) ∧
    isNaN 0xFFF0000000000000#64 = false ∧
    (isNaN ftwo = false ∧ ftwo ≠ 0#64 ∧ ftwo ≠ 0x8000000000000000#64 ∧ ftwo ≠ 0x3FF0000000000000#64) := by
  refine ⟨?_, ?_, ?_, ?_, rfl, ?_, ?_, ?_⟩ <;> decide

theorem wit_PriorityOfFaults :
    ({ State.reset with input := [.command 0x06007FF8000000000000#80] } : State).constructed = false ∧
    ({ bootState with input := [.command 0x06007FF8000000000000#80] } : State).constructed = true ∧
    ({ bootState with input := [.command 0x060B7FF8000000000000#80] } : State).input =
      [.command 0x060B7FF8000000000000#80] := ⟨rfl, rfl, rfl⟩

/-- The least and the greatest sample rate CONSTRUCT accepts. -/
theorem wit_StateAfterConstruct : isNaN32 0x3F000000#32 = false ∧
    (isNaN32 0x00000001#32 = false ∧ flt fzero (widen 0x00000001#32) = true ∧ isInf (widen 0x00000001#32) = false) ∧
    (isNaN32 0x7F7FFFFF#32 = false ∧ flt fzero (widen 0x7F7FFFFF#32) = true ∧ isInf (widen 0x7F7FFFFF#32) = false) := by
  decide +kernel

theorem wit_ReconstructionStartsFromScratch : isNaN32 0x3F000000#32 = false ∧ isNaN32 0x472C4400#32 = false ∧
    flt fzero (widen 0x472C4400#32) = true ∧ isInf (widen 0x472C4400#32) = false := by decide +kernel

theorem wit_TableWrapsContinuously : CosEven machineParams.num ∧ isFinite machineParams.pi = true ∧ 63 < 64 :=
  ⟨lawful_machineParams.cosEven, by decide, by decide⟩

theorem wit_TableWordsAreFinite : LawfulParams machineParams ∧ fle (fabs machineParams.pi) ffour = true ∧
    16447 < tableWords := ⟨lawful_machineParams, by decide, by decide⟩

/-- Both corners of the grid beside the one that is excluded. -/
theorem wit_LookupIsExactAtGridPoints : ∀ c ∈ [(256, 61), (255, 62), (0, 0)],
    let tf : Table := [(0, fhalf)]
    c.1 ≤ 256 ∧ c.2 ≤ 62 ∧ ¬ (c.1 = 256 ∧ c.2 = 62) ∧ isFinite (tf.read (c.1 + 257 * c.2)) = true ∧
    tf.read (c.1 + 257 * c.2) ≠ 0x8000000000000000#64 ∧ isFinite (tf.read (c.1 + 257 * (c.2 + 1))) = true ∧
    isFinite (fsub (tf.read (c.1 + 1 + 257 * c.2)) (tf.read (c.1 + 257 * c.2))) = true ∧
    isFinite (fsub (tf.read (c.1 + 1 + 257 * (c.2 + 1))) (tf.read (c.1 + 257 * (c.2 + 1)))) = true := by
  decide +kernel

/-- Each clause at its boundary: a phase just above 1 or a NaN, a NaN width, the end column with width 62, and the
end column with the width below it, or the column before it with width 62. -/
theorem wit_LookupBounds :
    let inside := fun p : F64 => fle (fneg fone) p = true ∧ fle p fone = true
    let atEnd := fun p : F64 => fle (0x3FEFFFFFFFFFFFFF#64) p = true
    ¬ inside 0x3FF0000000000001#64 ∧ ¬ inside 0x7FF8000000000000#64 ∧ inside (fneg fone) ∧
    (inside fone ∧ isNaN 0x7FF8000000000000#64 = true) ∧
    (inside 0x3FEFFFFFFFFFFFFF#64 ∧ isNaN fsixtyTwo = false ∧ atEnd 0x3FEFFFFFFFFFFFFF#64 ∧ fle fsixtyTwo fsixtyTwo = true) ∧
    (inside fone ∧ isNaN 0x404EFFFFFFFFFFFF#64 = false ∧ ¬ (atEnd fone ∧ fle fsixtyTwo 0x404EFFFFFFFFFFFF#64 = true)) ∧
    (inside 0x3FEFFFFFFFFFFFFE#64 ∧ ¬ atEnd 0x3FEFFFFFFFFFFFFE#64) := by decide +kernel

theorem wit_FastCosCorners : isNaN fone = false ∧ isNaN 0x7FF8000000000000#64 = true := by decide

theorem wit_LfoPhaseMovesOnlyInProcess : bootState.unit = some bootRegs ∧
    exec .getVowel bootState = .next (answered bootState) ∧ (answered bootState).unit = some bootRegs :=
  ⟨rfl, exec_getVowel_boot, rfl⟩

/-- The greatest phase and the greatest increment below 1, and both at 0. -/
theorem wit_LfoPhaseBound :
    (fle fzero 0x3FEFFFFFFFFFFFFF#64 = true ∧ flt 0x3FEFFFFFFFFFFFFF#64 fone = true ∧
      fle fzero (fdiv 0x3FEFFFFFFFFFFFFF#64 fone) = true ∧ flt (fdiv 0x3FEFFFFFFFFFFFFF#64 fone) fone = true) ∧
    (fle fzero fzero = true ∧ flt fzero fone = true ∧ fle fzero (fdiv fzero fone) = true ∧
      flt (fdiv fzero fone) fone = true) := by decide +kernel

theorem wit_LfoBounds : inUnit (lfoRegs fone fone fone).vowel = true ∧ inUnit (lfoRegs fone fone fone).lfoDepth = true ∧
    inUnit bootRegs.vowel = true ∧ bootRegs.vowel ≠ 0x8000000000000000#64 ∧ bootRegs.hasLfo = false ∧
    (lfoRegs fzero fzero fzero).lfoDepth = 0#64 ∧ (lfoRegs fzero fzero fzero).vowel ≠ 0x8000000000000000#64 := by
  refine ⟨?_, ?_, ?_, ?_, ?_, ?_, ?_⟩ <;> decide +kernel

theorem wit_EntrySelection : inUnit (lfoRegs fone fone fone).tempVowel = true ∧ inUnit bootRegs.tempVowel = true := by
  refine ⟨?_, ?_⟩ <;> decide +kernel

theorem wit_SmoothingStaysBetween : isFinite fzero = true ∧ isFinite fone = true ∧ isFinite (fsub fone fzero) = true ∧
    isFinite (fsub fzero fone) = true ∧ fle fzero fone = true ∧ fone ≠ 0x8000000000000000#64 := by decide +kernel

theorem wit_CarrierFrequencyRange : inUnit fzero = true ∧ inUnit fone = true := by decide

/-- The fastest carrier at the least sample rate, from both ends of the phase. -/
theorem wit_CarrierPhaseBound : fle ftwelve ftwelve = true ∧ fle ftwelve 0x4068000000000000#64 = true ∧
    isFinite 0x4068000000000000#64 = true ∧ fle 0x4068000000000000#64 0x4068000000000000#64 = true ∧
    PhaseLegal fone ∧ PhaseLegal 0xBFEFFFFFFFFFFFFF#64 := by
  unfold PhaseLegal; decide

theorem wit_HarmonicPhaseWraps : fle (fneg fone) (fneg fone) = true ∧ fle (fneg fone) fone = true ∧
    fle fone fone = true ∧ fle fzero fzero = true ∧ fle fzero 0x408F480000000000#64 = true ∧
    fle 0x408F480000000000#64 0x408F480000000000#64 = true := by decide

/-- The clauses of R12: the least and the greatest finite word, both zeros, both infinities and a NaN. -/
theorem wit_HarmonicPhaseWraps_exact :
    (isFinite 1#64 = true ∧ isFinite 0xFFEFFFFFFFFFFFFF#64 = true ∧ isZero 1#64 = false) ∧
    (0 ≤ fval 0x8000000000000000#64 ∧ fval 0x8000000000000001#64 < 0 ∧ isFinite 0x7FF0000000000000#64 = false) ∧
    isNaN 0x7FF0000000000001#64 = true ∧ isInf 0x7FF0000000000000#64 = true ∧ isInf 0xFFF0000000000000#64 = true ∧
    isNaN 0xFFF0000000000000#64 = false := by decide +kernel

/-- R12 by hand: `floor(-0.5) = -1`, `fmod(-5.5, 2) = -1.5`, and `fmod` of the greatest finite word by 3 is 2, since its
value is `(2^53 - 1) * 2^971` and `2^53 - 1` leaves 1, `2^971` leaves 2. -/
theorem test_exact_operations : ffloor 0xBFE0000000000000#64 = fneg fone ∧
    ffmod 0xC016000000000000#64 ftwo = 0xBFF8000000000000#64 ∧
    ffmod 0x7FEFFFFFFFFFFFFF#64 0x4008000000000000#64 = ftwo := by decide +kernel

theorem wit_GetVowelAnswersTheVowel : bootState.unit = some bootRegs := rfl

/-- The LFO off, and on with a depth of 1. -/
theorem wit_GetVowelAfterSetVowel : bootState.unit = some bootRegs ∧ bootRegs.hasLfo = false ∧
    inUnit (lfoRegs fhalf fhalf fone).lfoDepth = true ∧ isNaN32 0x80000000#32 = false ∧ isNaN32 0x3F800000#32 = false ∧
    isNaN32 0x3F7FFFFF#32 = false := by
  refine ⟨rfl, ?_, ?_, ?_, ?_, ?_⟩ <;> decide +kernel

theorem wit_SetVowelWithoutLfo : bootState.unit = some bootRegs ∧ bootRegs.hasLfo = false ∧ isNaN32 0x3E800000#32 = false := by
  refine ⟨rfl, ?_, ?_⟩ <;> decide +kernel

theorem wit_SetVowelWithLfo : ({ bootState with unit := some (lfoRegs fhalf fhalf fone) } : State).unit =
      some (lfoRegs fhalf fhalf fone) ∧
    (lfoRegs fhalf fhalf fone).hasLfo = true ∧ inUnit (lfoRegs fhalf fhalf fone).lfoDepth = true ∧
    isNaN32 0x3E800000#32 = false := by
  refine ⟨rfl, ?_, ?_, ?_⟩ <;> decide +kernel

theorem wit_SetLfoUnchanged : bootState.unit = some bootRegs ∧ isNaN32 0#32 = false ∧
    bootRegs.hasLfo = flt fzero (fmin fone (fmax fzero (widen 0#32))) ∧
    feq (fmin fone (fmax fzero (widen 0#32))) bootRegs.lfoDepth = true := by
  refine ⟨rfl, ?_, ?_, ?_⟩ <;> decide +kernel

/-- A new enabled state; and a new depth alone. -/
theorem wit_SetLfoChanged : bootState.unit = some bootRegs ∧ inUnit bootRegs.vowel = true ∧
    isNaN32 0x3F000000#32 = false ∧ bootRegs.hasLfo ≠ flt fzero (fmin fone (fmax fzero (widen 0x3F000000#32))) ∧
    feq (fmin fone (fmax fzero (widen 0x3F000000#32))) bootRegs.lfoDepth = false := by
  refine ⟨rfl, ?_, ?_, ?_, ?_⟩ <;> decide +kernel

theorem heldByF32_fhalf : HeldByF32 fhalf := ⟨0x3F000000#32, by decide, by decide +kernel⟩
theorem heldByF32_fzero : HeldByF32 fzero := ⟨0#32, by decide, by decide +kernel⟩

theorem vowelLegal_bootRegs : VowelLegal bootRegs where
  vowel := by unfold bootRegs; rw [constructed_vowel]; exact heldByF32_fhalf
  depth := by unfold bootRegs; rw [constructed_lfoDepth]; exact heldByF32_fzero
  bounds := by unfold bootRegs; rw [constructed, cacheLfo_idem]
  working := by decide +kernel
  upper := by unfold bootRegs; rw [constructed_hasLfo]; intro h; cases h
  tracks := by unfold bootRegs; rw [constructed_tempVowel, constructed_vowel]; intro _; rfl
  offset := by unfold bootRegs; rw [constructed_tempVowel, constructed_coeffOffset]; decide +kernel

/-- The LFO on with a depth of 0. -/
theorem vowelLegal_depthZero : VowelLegal (lfoRegs fhalf fhalf fzero) where
  vowel := by unfold lfoRegs; rw [cacheLfo_vowel]; exact heldByF32_fhalf
  depth := by unfold lfoRegs; rw [cacheLfo_lfoDepth]; exact heldByF32_fzero
  bounds := by unfold lfoRegs; rw [cacheLfo_idem]
  working := by decide +kernel
  upper := by intro _; decide +kernel
  tracks := by unfold lfoRegs; rw [cacheLfo_hasLfo]; intro h; cases h
  offset := by
    unfold lfoRegs bootRegs; rw [cacheLfo_tempVowel, cacheLfo_coeffOffset, constructed_coeffOffset]; decide +kernel

theorem wit_LfoOffTracksTheVowel : bootState.unit = some bootRegs ∧ VowelLegal bootRegs ∧ isNaN32 0#32 = false :=
  ⟨rfl, vowelLegal_bootRegs, by decide⟩

theorem wit_ProcessCompletes : bootState.unit = some bootRegs ∧ isFinite fone = true ∧
    inUnit bootRegs.tempVowel = true ∧ bootRegs.hasLfo = false ∧
    (let f0 := fmul ftwelve (machineParams.num.pow2 (fsub ffour (fmul ffour bootRegs.tempVowel)))
     let moved := fadd bootRegs.phase (fdiv f0 (fdiv bootRegs.srate ftwo))
     let phase := if flt fone moved then fsub moved ftwo else moved
     fle (fneg fone) phase = true ∧ fle phase fone = true ∧ flt phase (0x3FEFFFFFFFFFFFFF#64) = true) := by
  refine ⟨rfl, ?_, ?_, ?_, ?_⟩ <;> decide +kernel

/-- The machine's configuration with every width scale replaced. -/
def widthParams (w : F64) : Params := { machineParams with widthScale := fun _ => w }

theorem widthParams_lfoWave (w : F64) : (widthParams w).lfoWave = machineParams.lfoWave := by rw [widthParams]

theorem lawful_widthParams {w : F64} (h : isNonNegative w = true) : LawfulParams (widthParams w) where
  freq := lawful_machineParams.freq
  amp := lawful_machineParams.amp
  widthScale := fun _ => h
  attenPositive := lawful_machineParams.attenPositive
  attenUnit := lawful_machineParams.attenUnit
  minRate := lawful_machineParams.minRate
  maxRate := lawful_machineParams.maxRate
  rateOrder := lawful_machineParams.rateOrder
  wave := by rw [widthParams_lfoWave]; exact lawful_machineParams.wave
  cosEven := lawful_machineParams.cosEven
  cosRange := lawful_machineParams.cosRange
  sinRange := lawful_machineParams.sinRange
  expUnit := lawful_machineParams.expUnit
  pow2Int := lawful_machineParams.pow2Int
  pow2Mono := lawful_machineParams.pow2Mono
  finite := lawful_machineParams.finite
  slots := lawful_machineParams.slots
  dynDefault := lawful_machineParams.dynDefault

/-- A unit at vowel 1, whose next phase is exactly +1 at a sample rate of 24, and 23 at a sample rate of 1. -/
def edgeRegs (srate : F64) : UnitRegs := { bootRegs with vowel := fone, tempVowel := fone, srate := srate }

/-- Each clause: a width scale of exactly 744 (R264), the value below it, and a phase outside. -/
theorem wit_ProcessAtTheTableBound :
    (isNonNegative (natToF64 744) = true ∧ isNonNegative 0x40873FFFFFFFFFFF#64 = true) ∧
    (widthParams fone).synthMode = true ∧ inUnit (edgeRegs fone).tempVowel = true ∧ (edgeRegs fone).hasLfo = false ∧
    (let f0 := fmul ftwelve (machineParams.num.pow2 (fsub ffour (fmul ffour fone)))
     nextPhase f0 (natToF64 24) (edgeRegs fone).phase = fone ∧ nextPhase f0 fone (edgeRegs fone).phase = natToF64 22 ∧
     fle fsixtyTwo (fmul (natToF64 744) (fdiv fone f0)) = true ∧
     flt (fmul 0x40873FFFFFFFFFFF#64 (fdiv fone f0)) fsixtyTwo = true) := by
  refine ⟨?_, ?_, ?_, ?_, ?_⟩ <;> decide +kernel

/-- Whether a result is the given fault. -/
def errorIs {α : Type} (r : Except Cause α) (c : Cause) : Bool :=
  match r with
  | .ok _ => false
  | .error d => decide (d = c)

theorem eq_error_of_errorIs {α : Type} {r : Except Cause α} {c : Cause} (h : errorIs r c = true) : r = .error c := by
  cases r with
  | ok a => simp [errorIs] at h
  | error d => simp only [errorIs, decide_eq_true_eq] at h; rw [h]

theorem wit_ProcessAtTheTableBound_commit : processRegs machineParams fone (edgeRegs fone) = .error .tableBounds :=
  eq_error_of_errorIs (by decide +kernel)

/-- Five slots with table-based shaping off, and the machine's four with shaping on, over a table of zeros. -/
def fiveSlots : Params :=
  { slotCount := 5, amp := fun _ => fone, freq := fun _ => fone, widthScale := fun _ => fone, minLfoRate := fone
    maxLfoRate := fone, dynDefault := configA, num := machineNum, lfoWave := fun _ => fzero, synthMode := false }

def fiveRegs : Regs fiveSlots.slotCount :=
  { vowel := fhalf, tempVowel := fhalf, hasLfo := false, lfoDepth := fzero, lfoRange := fzero, lfoMin := fhalf
    lfoMax := fhalf, phase := fzero, srate := natToF64 8000, coeffOffset := 4, lphase := fzero, lrate := fone
    aval := perSlot fun _ => fone, fval := perSlot fun _ => fone
    envs := { env := fzero, env2 := fzero, genv := fzero }, dyn := configA, tf := [] }

theorem wit_ProcessForEverySlotCount :
    (isFinite fone = true ∧ fiveRegs.hasLfo = false ∧ selectEntry fiveRegs.tempVowel = .ok 4 ∧
      fiveSlots.synthMode = false) ∧
    ((widthParams fone).synthMode = true ∧ bootRegs.hasLfo = false ∧ selectEntry bootRegs.tempVowel = .ok 4 ∧
      getFormant [] (nextPhase (carrierFreq machineParams fhalf) bootRegs.srate bootRegs.phase)
        (fmul fone (fdiv fone (carrierFreq machineParams fhalf))) = .ok fzero) := by
  refine ⟨⟨?_, ?_, ?_, ?_⟩, ?_, ?_, ?_, ?_⟩ <;> decide +kernel

/-- R64 by hand: entry 8 of slot 3 is word `8 + 9*3 = 35` of both memories, entry 1 of slot 2 word 19. -/
theorem test_coefficient_addresses :
    let p : Params := { fiveSlots with amp := fun a => BitVec.ofNat 64 a.val, freq := fun a => BitVec.ofNat 64 (a.val + 100) }
    ampTarget p ⟨3, by decide⟩ 8 = 35#64 ∧ freqTarget p ⟨3, by decide⟩ 8 = 135#64 ∧ ampTarget p ⟨2, by decide⟩ 1 = 19#64 := by
  decide

theorem wit_DepthZeroPinsTheWorkingVowel : bootState.unit = some bootRegs ∧ VowelLegal bootRegs ∧ bootRegs.hasLfo = false ∧
    VowelLegal (lfoRegs fhalf fhalf fzero) ∧ (lfoRegs fhalf fhalf fzero).lfoDepth = 0#64 := by
  refine ⟨rfl, vowelLegal_bootRegs, ?_, vowelLegal_depthZero, ?_⟩ <;> decide +kernel

/-- Selectors 0 and 10 at the least positive threshold and at each mode, and selector 9 at a negative value. -/
theorem wit_DynCfgWritesOneRegister : bootState.unit = some bootRegs ∧ (0#8).toNat ≤ 10 ∧ (10#8).toNat ≤ 10 ∧
    isFinite 1#64 = true ∧ flt fzero 1#64 = true ∧ isFinite 0x8000000000000000#64 = true ∧ isFinite fone = true ∧
    isFinite (fneg fone) = true := by
  refine ⟨rfl, ?_, ?_, ?_, ?_, ?_, ?_, ?_⟩ <;> decide

theorem wit_DynProcCompletes :
    ({ bootState with unit := some { bootRegs with dyn := configA } } : State).unit =
      some { bootRegs with dyn := configA } ∧ isFinite 0x7FEFFFFFFFFFFFFF#64 = true ∧ configA.mode = false ∧
    ({ configA with mode := true } : DynRegs).mode = true := ⟨rfl, by decide, rfl, rfl⟩

theorem wit_DynIsOdd : isNaN (dyn configA { env := fzero, env2 := fzero, genv := fzero } fone).1 = false := by
  decide +kernel

theorem wit_SilenceDecays :
    let e : Envelopes := { env := fhalf, env2 := fhalf, genv := fhalf }
    isZero fzero = true ∧ isZero 0x8000000000000000#64 = true ∧ fle fzero e.env = true ∧ configA.mode = false ∧
    isFinite (fadd (stageG configA (stageE configA (fabs fzero) e.env)) configA.dry) = true ∧
    (let c : DynRegs := { configA with mode := true }
     let env := stageE c (fabs fzero) e.env
     isFinite (fadd (fmul (stageL c (stageG c env) (stageE2 c (fabs fzero) env e.env2)) (stageX c env e.genv)) c.dry) =
      true) := by decide +kernel

theorem dynSafe_configA : DynSafe configA := by
  constructor <;> decide

theorem dynSafe_unitAttack : DynSafe { configA with att := fone } := by
  constructor <;> decide

/-- An attack below 1 with the greatest sample, and an attack of 1 with a smaller one. -/
theorem wit_EnvelopesStayInRange : (DynSafe configA ∧ flt configA.att fone = true) ∧
    DynSafe { configA with att := fone } ∧ isFinite 0xFFEFFFFFFFFFFFFF#64 = true ∧ isFinite (fneg fone) = true ∧
    fabs (fneg fone) ≠ 0x7FEFFFFFFFFFFFFF#64 ∧ isNonNegative fzero = true ∧ isNonNegative fone = true ∧
    inUnit fone = true :=
  ⟨⟨dynSafe_configA, by decide⟩, dynSafe_unitAttack, by decide, by decide, by decide, by decide, by decide, by decide⟩

/-- The corner of R201 with `ATT = 1` (log 18), by hand: with `u` = 2^971, `ENV = 1.5u` and a sample of `(2^53 - 1)u`, the
difference is a tie and rounds to `(2^53 - 2)u`, and the sum `(2^53 - 0.5)u` is a tie and rounds to an infinity. -/
theorem test_unit_attack_overshoots :
    stageE { configA with att := fone } 0x7FEFFFFFFFFFFFFF#64 0x7CA8000000000000#64 = 0x7FF0000000000000#64 := by
  decide +kernel

theorem wit_EachCommandWritesOnlyItsRegisters : bootState.unit = some bootRegs ∧
    exec .getVowel bootState = .next (answered bootState) ∧ (answered bootState).unit = some bootRegs :=
  ⟨rfl, exec_getVowel_boot, rfl⟩

/-! ### The invariants hold in `askedState`, whose step is GETVOWEL -/

theorem holds_asked {P : UnitRegs → Prop} (h : P bootRegs) : askedState.holds P := by
  intro u hu
  have : u = bootRegs := by
    have h' : some bootRegs = some u := hu
    exact (Option.some.inj h').symm
  rw [this]; exact h

theorem isFinite_of_isNonNegative {x : F64} (h : isNonNegative x = true) : isFinite x = true := by
  unfold isNonNegative at h; rw [Bool.and_eq_true] at h; exact h.1

theorem dynAccepted_of_dynSafe {c : DynRegs} (h : DynSafe c) : DynAccepted c :=
  ⟨h.thr, isFinite_of_isNonNegative h.rat, isFinite_of_isNonNegative h.trim, isFinite_of_inUnit h.attUnit,
    isFinite_of_inUnit h.rel, isFinite_of_isNonNegative h.lthr, isFinite_of_isNonNegative h.xthr,
    isFinite_of_inUnit h.gatt, isFinite_of_inUnit h.xrat, isFinite_of_isNonNegative h.dry⟩

theorem storageLegal_bootRegs : StorageLegal bootRegs where
  table := by unfold TableBuilt bootRegs; rw [constructed_tf]
  flushed := by
    unfold EnvelopesFlushed bootRegs; rw [constructed_envs]
    exact ⟨Or.inl rfl, Or.inl rfl, Or.inl rfl⟩
  dynamics := by unfold bootRegs; rw [constructed_dyn]; exact dynAccepted_of_dynSafe lawful_machineParams.dynDefault

theorem wit_StepKeepsStorageLegal : askedState.holds StorageLegal ∧ step askedState = .next (answered bootState) :=
  ⟨holds_asked storageLegal_bootRegs, step_asked⟩

theorem wit_StepKeepsVowelLegal : askedState.holds VowelLegal ∧ step askedState = .next (answered bootState) :=
  ⟨holds_asked vowelLegal_bootRegs, step_asked⟩

theorem rateAccepted_bootRegs : RateAccepted bootRegs :=
  ⟨0x472C4400#32, by decide, by decide +kernel, by unfold bootRegs; rw [constructed_srate]⟩

theorem carrierLegal_bootRegs : CarrierLegal bootRegs where
  vowels := vowelLegal_bootRegs
  rate := rateAccepted_bootRegs
  phase := by intro _; unfold PhaseLegal bootRegs; rw [constructed_phase]; decide

/-- The sample rate of `bootState` meets the condition of R265. -/
theorem wit_StepKeepsCarrierLegal : askedState.holds CarrierLegal ∧ CarrierRateSafe bootRegs.srate = true ∧
    step askedState = .next (answered bootState) :=
  ⟨holds_asked carrierLegal_bootRegs, by decide +kernel, step_asked⟩

/-- `rateMap(0) = MIN_LFO_RATE` exactly (R141). -/
theorem rateMap_zero : rateMap machineParams fzero = machineParams.minLfoRate := by
  have hmin := lawful_machineParams.minRate
  have hmax := lawful_machineParams.maxRate
  unfold isPositive at hmin hmax
  rw [Bool.and_eq_true] at hmin hmax
  have hle := lawful_machineParams.rateOrder
  have hz := isFinite_fzero
  have hnz := not_isNaN_of_isFinite hz
  have nmin := not_isNaN_of_isFinite hmin.1
  have nmax := not_isNaN_of_isFinite hmax.1
  have pmin := hmin.2
  rw [flt_iff_fval hnz nmin, fval_fzero] at pmin
  rw [fle_iff_fval nmin nmax] at hle
  have hd : isFinite (fsub machineParams.maxLfoRate machineParams.minLfoRate) = true := by
    refine isFinite_of_between hz hmax.1 (le_fsub hmax.1 hmin.1 hz ?_) (fsub_le hmax.1 hmin.1 hmax.1 ?_)
    · rw [fval_fzero]; omega
    · omega
  unfold rateMap
  rw [fmul_zero_factor hz hd (Or.inl (by decide))]
  refine fadd_exact hmin.1 (isFinite_withSign_zero _) hmin.1 (by omega) ?_
  rw [fval_withSign_zero]; omega

theorem sweepLegal_bootRegs : SweepLegal bootRegs where
  vowels := vowelLegal_bootRegs
  rate := rateAccepted_bootRegs
  mapped := ⟨fzero, by decide, by unfold bootRegs; rw [constructed_lrate, rateMap_zero]⟩
  phase := by intro _; unfold bootRegs; rw [constructed_lphase]; exact ⟨by decide, by decide⟩
  lower := by unfold bootRegs; rw [constructed_hasLfo]; intro _ h; cases h

theorem wit_StepKeepsSweepLegal : askedState.holds SweepLegal ∧ step askedState = .next (answered bootState) :=
  ⟨holds_asked sweepLegal_bootRegs, step_asked⟩

theorem liveFrequenciesPositive_bootRegs : LiveFrequenciesPositive bootRegs := by
  intro s
  unfold bootRegs
  rw [constructed_fval]
  rw [perSlot_get]
  exact lawful_machineParams.freq _

theorem wit_StepKeepsLiveFrequenciesPositive : askedState.holds LiveFrequenciesPositive ∧
    step askedState = .next (answered bootState) := ⟨holds_asked liveFrequenciesPositive_bootRegs, step_asked⟩

/-! ### Arithmetic and the host's side -/

/-- Finite results, ties and overflow; then a NaN, an infinity and a zero of each sign. -/
theorem wit_ArithmeticIsNearest : isFinite fone = true ∧ isFinite 1#64 = true ∧ isZero fone = false ∧
    isFinite (fadd fone 1#64) = true ∧ isFinite (fsub fone 1#64) = true ∧ isFinite (fmul fone 1#64) = true ∧
    isFinite (fdiv 1#64 fone) = true ∧
    (fval (fadd fone 0x3CA0000000000000#64) ≠ fval 0x3FF0000000000001#64 ∧
      |fval (fadd fone 0x3CA0000000000000#64) * 1 - (fval fone + fval 0x3CA0000000000000#64)| =
        |fval 0x3FF0000000000001#64 * 1 - (fval fone + fval 0x3CA0000000000000#64)|) ∧
    isFinite 0x7FEFFFFFFFFFFFFF#64 = true ∧ isInf (fadd 0x7FEFFFFFFFFFFFFF#64 0x7FEFFFFFFFFFFFFF#64) = true ∧
    fval fone + fval (fneg fone) = 0 ∧ fval fone - fval fone = 0 ∧ isZero fzero = true ∧ isZero (fneg fzero) = true ∧
    isNaN 0xFFF0000000000001#64 = true ∧ isInf 0x7FF0000000000000#64 = true ∧ isInf 0xFFF0000000000000#64 = true ∧
    isNaN 0xFFF0000000000000#64 = false := by decide +kernel

theorem wit_NarrowUndoesWiden : isNaN32 0x80000000#32 = false ∧ isNaN32 0x7F800000#32 = false ∧ isNaN32 1#32 = false ∧
    ((0x80000001#32 : F32).extractLsb' 23 8).toNat = 0 ∧ ((0x7F7FFFFF#32 : F32).extractLsb' 23 8).toNat = 254 ∧
    ((0xFF800000#32 : F32).extractLsb' 23 8).toNat = 255 ∧ ((0xFF800000#32 : F32).extractLsb' 0 23).toNat = 0 := by
  decide

/-- The unit of `bootState` gives PROCESS a value: its next phase is in column 128, so every width does. -/
theorem processRegs_boot : ∃ r, processRegs machineParams fone bootRegs = .ok r := by
  have ht : (processVowel machineParams bootRegs).tempVowel = fhalf := by
    unfold bootRegs
    rw [processVowel_tempVowel]
    simp
  have hk : selectEntry (processVowel machineParams bootRegs).tempVowel = .ok 4 := by rw [ht]; decide +kernel
  have hphase : nextPhase (carrierFreq machineParams fhalf) bootRegs.srate bootRegs.phase = 0x3F61D53A957D7519#64 := by
    decide +kernel
  refine processRegs_ok machineParams bootRegs (by decide) hk ?_
  rw [ht]
  dsimp only
  intro s
  rw [hphase, if_pos rfl]
  refine getFormant_before_last_column _ (j := 128) (by decide +kernel) (by decide +kernel) (by decide +kernel)
    (by decide) ?_
  have hw := lawful_machineParams.widthScale s
  unfold isNonNegative at hw
  rw [Bool.and_eq_true] at hw
  exact isNaN_fmul hw.1 (by decide +kernel)

/-- A block of one sample on a unit that answers it, one on a unit that refuses it, and the empty block. -/
theorem wit_ProcessBlkStopsAtTheFirstFault : (processBlk [fone] bootState).cause = 0#8 ∧
    (processBlk [fone] State.reset).cause = 3#8 ∧ (processBlk [] bootState).cause = 0#8 := by
  refine ⟨?_, by decide, rfl⟩
  obtain ⟨r, hr⟩ := processRegs_boot
  have hex : exec (.process fone) bootState = .next (respond 0 r.2 { bootState with unit := some r.1 }) := by
    show onConstructed bootState (processRegs machineParams fone) = _
    rw [onConstructed_some (u := bootRegs) rfl, hr]
    rfl
  have hc : responseCause (responseWord 0 r.2) = 0#8 := by
    unfold responseCause responseWord
    exact BitVec.extractLsb'_append_eq_left
  unfold processBlk
  rw [hex]
  dsimp only
  split
  · rfl
  · rename_i h; exact absurd hc h

theorem wit_DynConfigureLoadsEveryRegister : bootState.unit = some bootRegs ∧ DynAccepted configA :=
  ⟨rfl, dynAccepted_of_dynSafe dynSafe_configA⟩

theorem wit_ChannelsAreIndependent : [State.reset, bootState][1]? = some bootState := rfl

end Sys2Proof.Tests
end

/-! # Proofs: arithmetic, the table, the carrier, SETVOWEL and PROCESS

The facts about words and roundings come first in each part, the statement they settle last. -/

namespace Sys2Proof.Machine

open Sys2Proof.Config

/-! ## Fields of a word (R7) -/

theorem fsign_eq_getLsbD (x : F64) : fsign x = x.getLsbD 63 := by
  rw [fsign, BitVec.msb_eq_getLsbD_last]

/-- The exponent and fraction fields of a word are the quotient and the remainder of its magnitude bits. -/
theorem toNat_exponentField (x : F64) : (x.extractLsb' 52 11).toNat = fbits x / 2 ^ 52 := by
  rw [BitVec.extractLsb'_toNat, Nat.shiftRight_eq_div_pow, fbits]
  omega

theorem toNat_fractionField (x : F64) : (x.extractLsb' 0 52).toNat = fbits x % 2 ^ 52 := by
  rw [BitVec.extractLsb'_toNat, Nat.shiftRight_eq_div_pow, fbits]
  omega

theorem getLsbD_zero_of_even {x : F64} (h : fbits x % 2 = 0) : x.getLsbD 0 = false := by
  have hx : x.toNat % 2 = 0 := by rw [fbits] at h; omega
  rw [BitVec.getLsbD, Nat.testBit_zero, hx]
  rfl

/-- A finite word's value in its fields (R7). -/
theorem fval_eq_fields (x : F64) :
    fval x = (if x.getLsbD 63 then -1 else 1) *
      (if (x.extractLsb' 52 11).toNat = 0 then (x.extractLsb' 0 52).toNat
        else (2 ^ 52 + (x.extractLsb' 0 52).toNat) * 2 ^ ((x.extractLsb' 52 11).toNat - 1) : Nat) := by
  have hmag : fmag x = if (x.extractLsb' 52 11).toNat = 0 then (x.extractLsb' 0 52).toNat
      else (2 ^ 52 + (x.extractLsb' 0 52).toNat) * 2 ^ ((x.extractLsb' 52 11).toNat - 1) := by
    rw [toNat_exponentField, toNat_fractionField, fmag, magOfBits]
    split
    · omega
    · rfl
  rw [← hmag, fval, fsign_eq_getLsbD]
  split <;> simp

/-! ## The one rounding is to nearest, ties to even (R10) -/

/-- Where the kept integer is exactly half a unit away from the value, it is even. -/
theorem roundHalfEven_even_of_tie {n d : Nat} (hd : 0 < d)
    (h : 2 * n = 2 * (d * roundHalfEven n d) + d ∨ 2 * (d * roundHalfEven n d) = 2 * n + d) :
    roundHalfEven n d % 2 = 0 := by
  have hn := Nat.div_add_mod n d
  have hr := Nat.mod_lt n hd
  unfold roundHalfEven at h ⊢
  split at h
  · rename_i hup
    rw [Nat.mul_add, Nat.mul_one] at h
    rw [if_pos hup]
    omega
  · rename_i hup
    rw [if_neg hup]
    omega

/-- The next magnitude above the rounded one is at least a unit in the last place away. -/
theorem magOfBits_roundRaw_succ (p n d : Nat) :
    magOfBits p (roundRaw p n d) + 2 ^ roundScale p n d ≤ magOfBits p (roundRaw p n d + 1) := by
  obtain ⟨-, hscale, -⟩ := roundKept_bounds p n d
  have hraw : roundRaw p n d = roundScale p n d * 2 ^ p + roundKept p n d := rfl
  have hexp : roundScale p n d ≤ roundRaw p n d / 2 ^ p - 1 := by
    rcases hscale with h0 | hge
    · omega
    · have : roundScale p n d + 1 ≤ roundRaw p n d / 2 ^ p := by
        rw [Nat.le_div_iff_mul_le (Nat.two_pow_pos p), Nat.add_mul, Nat.one_mul]; omega
      omega
  rw [magOfBits_succ]
  exact Nat.add_le_add_left (Nat.pow_le_pow_right (by omega) hexp) _

/-- A magnitude below the rounded one is at least a unit in the last place away, except below a power of two, which
is not above the value. -/
theorem magOfBits_lt_roundRaw {p n d b : Nat} (h : b < roundRaw p n d) :
    magOfBits p b + 2 ^ roundScale p n d ≤ magOfBits p (roundRaw p n d) ∨
      d * magOfBits p (roundRaw p n d) ≤ n := by
  obtain ⟨-, hscale, hlow⟩ := roundKept_bounds p n d
  have hraw : roundRaw p n d = roundScale p n d * 2 ^ p + roundKept p n d := rfl
  have hval := magOfBits_roundRaw p n d
  by_cases hkept : roundScale p n d = 0 ∨ 2 ^ p < roundKept p n d
  · left
    obtain ⟨c, hc⟩ : ∃ c, roundRaw p n d = c + 1 := ⟨roundRaw p n d - 1, by omega⟩
    have hbc : magOfBits p b ≤ magOfBits p c := magOfBits_le_iff.2 (by omega)
    have hexp : roundScale p n d ≤ c / 2 ^ p - 1 := by
      rcases hkept with h0 | hgt
      · omega
      · have : roundScale p n d + 1 ≤ c / 2 ^ p := by
          rw [Nat.le_div_iff_mul_le (Nat.two_pow_pos p), Nat.add_mul, Nat.one_mul]; omega
        omega
    have hulp : 2 ^ roundScale p n d ≤ 2 ^ (c / 2 ^ p - 1) := Nat.pow_le_pow_right (by omega) hexp
    rw [hc, magOfBits_succ]
    omega
  · right
    have hk0 : roundScale p n d ≠ 0 := fun h0 => hkept (Or.inl h0)
    have hm : roundKept p n d = 2 ^ p := by
      have := hscale.resolve_left hk0
      omega
    rw [hval, hm, ← pow_add]
    exact hlow.resolve_left hk0

/-- A tie, half a unit in the last place above or below the rounded magnitude, leaves even bits. -/
theorem roundRaw_even_of_tie {p n d : Nat} (hp : 0 < p) (hd : 0 < d)
    (h : 2 * n = 2 * (d * magOfBits p (roundRaw p n d)) + d * 2 ^ roundScale p n d ∨
      2 * (d * magOfBits p (roundRaw p n d)) = 2 * n + d * 2 ^ roundScale p n d) :
    roundRaw p n d % 2 = 0 := by
  have e : d * (roundKept p n d * 2 ^ roundScale p n d) = d * 2 ^ roundScale p n d * roundKept p n d := by ring
  rw [magOfBits_roundRaw, e] at h
  have hkept : roundKept p n d % 2 = 0 :=
    roundHalfEven_even_of_tie (Nat.mul_pos hd (Nat.two_pow_pos _)) h
  have hraw : roundRaw p n d = roundScale p n d * 2 ^ p + roundKept p n d := rfl
  obtain ⟨q, rfl⟩ : ∃ q, p = q + 1 := ⟨p - 1, by omega⟩
  rw [hraw, pow_succ, ← mul_assoc, Nat.add_mod, Nat.mul_mod_left, hkept]

theorem natCast_mul_flip (m d : Nat) : (m : Int) * d = ((d * m : Nat) : Int) := by push_cast; ring

/-- No magnitude is nearer to the value than the rounded one, and where another is as near the rounded one has even
bits. -/
theorem roundRaw_nearest {p n d : Nat} (hp : 0 < p) (hd : 0 < d) (b : Nat) :
    |(magOfBits p (roundRaw p n d) : Int) * d - n| ≤ |(magOfBits p b : Int) * d - n| ∧
    (|(magOfBits p (roundRaw p n d) : Int) * d - n| = |(magOfBits p b : Int) * d - n| → b ≠ roundRaw p n d →
      roundRaw p n d % 2 = 0) := by
  obtain ⟨hup, hdown⟩ := roundRaw_near p n d hd
  have htie := roundRaw_even_of_tie (n := n) hp hd
  rw [natCast_mul_flip, natCast_mul_flip, Int.abs_eq_natAbs, Int.abs_eq_natAbs]
  rcases lt_trichotomy b (roundRaw p n d) with hlt | rfl | hgt
  · rcases magOfBits_lt_roundRaw hlt with hgap | hbelow
    · have h := Nat.mul_le_mul_left d hgap
      rw [Nat.mul_add] at h
      omega
    · have h := Nat.mul_lt_mul_of_pos_left (magOfBits_lt_iff (p := p) |>.2 hlt) hd
      omega
  · exact ⟨le_rfl, fun _ h => absurd rfl h⟩
  · have h := Nat.mul_le_mul_left d
      ((magOfBits_roundRaw_succ p n d).trans (magOfBits_le_iff (p := p) |>.2 (Nat.succ_le_of_lt hgt)))
    rw [Nat.mul_add] at h
    omega

/-! ## Rounded words -/

theorem ofUnits_zero_num (s : Bool) (d : Nat) : ofUnits s 0 d = withSign s 0 := by
  rw [ofUnits, roundBits_eq, roundRaw_zero, Nat.zero_min]

theorem isFinite_ofUnits_iff (s : Bool) (n d : Nat) :
    isFinite (ofUnits s n d) = true ↔ roundRaw 52 n d < infBits := by
  rw [isFinite_iff, fbits_ofUnits, roundBits_eq]; omega

theorem isInf_ofUnits_iff (s : Bool) (n d : Nat) :
    isInf (ofUnits s n d) = true ↔ infBits ≤ roundRaw 52 n d := by
  rw [isInf_iff, fbits_ofUnits, roundBits_eq]; omega

/-- The overflow threshold of R10: rounding reaches the bits of an infinity from the midpoint of the greatest finite
magnitude and the next one up. -/
theorem infBits_le_roundRaw_iff {n d : Nat} (hd : 0 < d) :
    infBits ≤ roundRaw 52 n d ↔ d * magOfBits 52 (infBits - 1) + d * magOfBits 52 infBits ≤ 2 * n := by
  have hinf : infBits = 2047 * 2 ^ 52 := rfl
  have hstep := Nat.mul_lt_mul_of_pos_left (magOfBits_lt_iff (p := 52) |>.2 (show infBits - 1 < infBits by omega)) hd
  constructor
  · intro hle
    have hnear := (roundRaw_nearest (n := n) (show 0 < 52 by decide) hd (infBits - 1)).1
    have hmag := Nat.mul_le_mul_left d (magOfBits_le_iff (p := 52) |>.2 hle)
    rw [natCast_mul_flip, natCast_mul_flip, Int.abs_eq_natAbs, Int.abs_eq_natAbs] at hnear
    omega
  · intro h
    by_contra hlt
    obtain ⟨hnear, htie⟩ := roundRaw_nearest (n := n) (show 0 < 52 by decide) hd infBits
    have hbelow : n < d * magOfBits 52 infBits := by
      by_contra hge
      exact hlt (le_roundRaw hd (by rw [Nat.mul_comm]; omega))
    have hmag := Nat.mul_le_mul_left d (magOfBits_le_iff (p := 52) |>.2 (show roundRaw 52 n d ≤ infBits - 1 by omega))
    rw [natCast_mul_flip, natCast_mul_flip, Int.abs_eq_natAbs, Int.abs_eq_natAbs] at hnear htie
    have heven := htie (by omega) (by omega)
    have heq : d * magOfBits 52 (roundRaw 52 n d) = d * magOfBits 52 (infBits - 1) := by omega
    have hraw : roundRaw 52 n d = infBits - 1 :=
      (magOfBits_strictMono 52).injective (Nat.eq_of_mul_eq_mul_left hd heq)
    omega

/-- A word on the side of `s` is as far from a value on that side as its magnitude is; one on the other side is no
nearer than a zero. -/
theorem abs_signed_sub (s : Bool) (w : F64) (n d : Nat) :
    |fval w * d - (if s then -(n : Int) else n)| =
      if fsign w = s then |(fmag w : Int) * d - n| else (fmag w : Int) * d + n := by
  have hm : (0 : Int) ≤ (fmag w : Int) * d := by positivity
  rw [fval_eq_signed]
  cases s <;> cases fsign w <;>
    simp only [if_true, Bool.false_eq_true, Bool.true_eq_false, if_false, Int.neg_mul, Int.abs_eq_natAbs] <;> omega

theorem fbits_ofUnits_of_isFinite {s : Bool} {n d : Nat} (h : isFinite (ofUnits s n d) = true) :
    fbits (ofUnits s n d) = roundRaw 52 n d := by
  rw [fbits_ofUnits, roundBits_eq, Nat.min_eq_left ((isFinite_ofUnits_iff s n d).1 h).le]

/-- No word is nearer to the value than a finite `ofUnits`, and where another is as near its last bit is even: a word
of the same sign is no nearer than its magnitude, one of the other sign no nearer than a zero. -/
theorem ofUnits_nearest {s : Bool} {n d : Nat} (hd : 0 < d) (hfin : isFinite (ofUnits s n d) = true) (w : F64) :
    |fval (ofUnits s n d) * d - (if s then -(n : Int) else n)| ≤ |fval w * d - (if s then -(n : Int) else n)| ∧
    (|fval (ofUnits s n d) * d - (if s then -(n : Int) else n)| = |fval w * d - (if s then -(n : Int) else n)| →
      fval w ≠ fval (ofUnits s n d) → (ofUnits s n d).getLsbD 0 = false) := by
  have hbits := fbits_ofUnits_of_isFinite hfin
  have hval : fval (ofUnits s n d) =
      if s then -(magOfBits 52 (roundRaw 52 n d) : Int) else magOfBits 52 (roundRaw 52 n d) := by
    rw [fval_eq_signed, fsign_ofUnits, fmag, hbits]
  rw [abs_signed_sub s (ofUnits s n d) n d, abs_signed_sub s w n d, fsign_ofUnits, if_pos rfl, fmag, hbits]
  split
  · rename_i hside
    obtain ⟨hnear, htie⟩ := roundRaw_nearest (n := n) (show 0 < 52 by decide) hd (fbits w)
    refine ⟨hnear, fun heq hne => getLsbD_zero_of_even ?_⟩
    rw [hbits]
    refine htie heq fun hb => hne ?_
    rw [fval_eq_signed, hval, hside, fmag, hb]
  · obtain ⟨hnear, htie⟩ := roundRaw_nearest (n := n) (show 0 < 52 by decide) hd 0
    have hm : (0 : Int) ≤ (fmag w : Int) * d := by positivity
    simp only [magOfBits_zero, Int.abs_eq_natAbs] at hnear htie ⊢
    refine ⟨by omega, fun heq hne => getLsbD_zero_of_even ?_⟩
    rw [hbits]
    refine htie (by omega) fun h0 => hne ?_
    have hw : fmag w = 0 := by
      have hzero : (fmag w : Int) * d = 0 := by omega
      rcases mul_eq_zero.1 hzero with h | h <;> omega
    rw [fval_eq_signed, hw, hval, ← h0]
    simp

/-- The overflow threshold in the words next to it: half a unit in the last place above the greatest finite word. -/
theorem isInf_ofUnits_iff_threshold (s : Bool) (n : Nat) {d : Nat} (hd : 0 < d) :
    isInf (ofUnits s n d) = true ↔
      (3 * fval (0x7FEFFFFFFFFFFFFF#64) - fval (0x7FEFFFFFFFFFFFFE#64)) * d ≤ 2 * (n : Int) := by
  have hmid : 3 * fval (0x7FEFFFFFFFFFFFFF#64) - fval (0x7FEFFFFFFFFFFFFE#64) =
      ((magOfBits 52 (infBits - 1) + magOfBits 52 infBits : Nat) : Int) := by decide +kernel
  rw [isInf_ofUnits_iff, infBits_le_roundRaw_iff hd, hmid, ← Nat.mul_add, Nat.mul_comm d]
  generalize magOfBits 52 (infBits - 1) + magOfBits 52 infBits = m
  exact_mod_cast Iff.rfl

/-- `ofUnits` is the one rounding R10 asks for. -/
theorem correctlyRounded_ofUnits (s : Bool) (n : Nat) {d : Nat} (hd : 0 < d) :
    CorrectlyRounded (ofUnits s n d) (if s then -(n : Int) else n) d := by
  refine ⟨isNaN_ofUnits s n d, fun hfin w _ => ofUnits_nearest hd hfin w, ?_, fun hne => ?_⟩
  · have habs : |if s then -(n : Int) else (n : Int)| = n := by cases s <;> simp
    rw [habs]
    exact isInf_ofUnits_iff_threshold s n hd
  · rw [fsign_ofUnits]
    cases s <;> simp only [if_true, Bool.false_eq_true, if_false] at hne ⊢
    · exact (decide_eq_false (by omega)).symm
    · exact (decide_eq_true (by omega)).symm

/-! ## The four operations on finite operands (R10) -/

theorem correctlyRounded_fadd {x y : F64} (hx : isFinite x = true) (hy : isFinite y = true) :
    CorrectlyRounded (fadd x y) (fval x + fval y) 1 := by
  rw [fadd_of_finite hx hy]
  split
  · rename_i h0
    have h := correctlyRounded_ofUnits (fsign x && fsign y) 0 one_pos
    rw [ofUnits_zero_num] at h
    rw [h0]
    simpa using h
  · have h := correctlyRounded_ofUnits (decide (fval x + fval y < 0)) (fval x + fval y).natAbs one_pos
    rwa [signed_natAbs] at h

theorem correctlyRounded_fsub {x y : F64} (hx : isFinite x = true) (hy : isFinite y = true) :
    CorrectlyRounded (fsub x y) (fval x - fval y) 1 := by
  have h := correctlyRounded_fadd hx (y := fneg y) (by simpa using hy)
  rwa [fval_fneg, ← sub_eq_add_neg] at h

theorem correctlyRounded_fmul {x y : F64} (hx : isFinite x = true) (hy : isFinite y = true) :
    CorrectlyRounded (fmul x y) (fval x * fval y) oneUnits := by
  have h := correctlyRounded_ofUnits (fsign x != fsign y) (fmag x * fmag y) oneUnits_pos
  rwa [signed_mul, ← fval_eq_signed, ← fval_eq_signed, ← fmul_of_finite hx hy] at h

theorem natAbs_fval (x : F64) : (fval x).natAbs = fmag x := by
  rw [fval_eq_signed]; split <;> simp

theorem sign_fval {x : F64} (h : isZero x = false) : (fval x).sign = if fsign x then -1 else 1 := by
  have hpos := fmag_pos_of_not_isZero h
  rw [fval_eq_signed]
  split
  · exact Int.sign_eq_neg_one_of_neg (by omega)
  · exact Int.sign_eq_one_of_pos (by omega)

theorem correctlyRounded_fdiv {x y : F64} (hx : isFinite x = true) (hy : isFinite y = true) (h0 : isZero y = false) :
    CorrectlyRounded (fdiv x y) (fval x * oneUnits * (fval y).sign) (fval y).natAbs := by
  have h := correctlyRounded_ofUnits (fsign x != fsign y) (fmag x * oneUnits) (fmag_pos_of_not_isZero h0)
  rw [← fdiv_of_finite hx hy h0, ← natAbs_fval y] at h
  have hsigned : (if (fsign x != fsign y) then -((fmag x * oneUnits : Nat) : Int) else ((fmag x * oneUnits : Nat) : Int)) =
      fval x * oneUnits * (fval y).sign := by
    rw [sign_fval h0, fval_eq_signed]
    generalize oneUnits = U
    cases fsign x <;> cases fsign y <;> simp
  rwa [hsigned] at h

theorem fsign_fmul {x y : F64} (hx : isFinite x = true) (hy : isFinite y = true) :
    fsign (fmul x y) = (fsign x != fsign y) := by rw [fmul_of_finite hx hy, fsign_ofUnits]

theorem fsign_fdiv {x y : F64} (hx : isFinite x = true) (hy : isFinite y = true) (h0 : isZero y = false) :
    fsign (fdiv x y) = (fsign x != fsign y) := by rw [fdiv_of_finite hx hy h0, fsign_ofUnits]

theorem fsign_fadd_of_zero_sum {x y : F64} (hx : isFinite x = true) (hy : isFinite y = true)
    (h : fval x + fval y = 0) : fsign (fadd x y) = (fsign x && fsign y) := by
  rw [fadd_zero_sum hx hy h, fsign_withSign _ (by decide)]

/-! ## The four operations on NaNs and infinities (R10) -/

theorem isNaN_operations {x y : F64} (h : isNaN x = true ∨ isNaN y = true) :
    isNaN (fadd x y) = true ∧ isNaN (fsub x y) = true ∧ isNaN (fmul x y) = true ∧ isNaN (fdiv x y) = true := by
  have hor : (isNaN x || isNaN y) = true := by simpa using h
  refine ⟨?_, ?_, ?_, ?_⟩
  · rw [fadd, if_pos hor, isNaN_quietNaN]
  · rw [fsub, fadd, isNaN_fneg, if_pos hor, isNaN_quietNaN]
  · rw [fmul, if_pos hor, isNaN_quietNaN]
  · rw [fdiv, if_pos hor, isNaN_quietNaN]

/-- The infinity and the zero of a sign. -/
theorem withSign_infBits (s : Bool) :
    withSign s infBits = if s then 0xFFF0000000000000#64 else 0x7FF0000000000000#64 := by
  cases s <;> decide

theorem withSign_zero (s : Bool) : withSign s 0 = if s then 0x8000000000000000#64 else 0#64 := by
  cases s <;> decide

theorem not_isNaN_of_isInf {x : F64} (h : isInf x = true) : isNaN x = false := by
  rw [isInf_iff] at h
  simp [isNaN, h]

theorem not_isZero_of_isInf {x : F64} (h : isInf x = true) : isZero x = false := by
  rw [isInf_iff] at h
  rw [isZero, h]
  decide

section Infinities
variable {x y : F64}

theorem fadd_inf_inf (hx : isInf x = true) (hy : isInf y = true) :
    if (fsign x != fsign y) then isNaN (fadd x y) = true else fadd x y = x := by
  have hn : (isNaN x || isNaN y) = false := by rw [not_isNaN_of_isInf hx, not_isNaN_of_isInf hy]; rfl
  rw [fadd, hn, hx, hy]
  cases hs : (fsign x != fsign y) <;> simp

theorem fadd_inf_left (hx : isInf x = true) (hy : isFinite y = true) : fadd x y = x := by
  have hn : (isNaN x || isNaN y) = false := by rw [not_isNaN_of_isInf hx, not_isNaN_of_isFinite hy]; rfl
  rw [fadd, hn, hx, not_isInf_of_isFinite hy]
  simp

theorem fadd_inf_right (hx : isFinite x = true) (hy : isInf y = true) : fadd x y = y := by
  have hn : (isNaN x || isNaN y) = false := by rw [not_isNaN_of_isFinite hx, not_isNaN_of_isInf hy]; rfl
  rw [fadd, hn, not_isInf_of_isFinite hx, hy]
  simp

theorem fmul_inf (hx : isNaN x = false) (hy : isNaN y = false) (h : isInf x = true ∨ isInf y = true) :
    if (isZero x || isZero y) then isNaN (fmul x y) = true else fmul x y = withSign (fsign x != fsign y) infBits := by
  have hi : (isInf x || isInf y) = true := by simpa using h
  rw [fmul, hx, hy, hi]
  cases (isZero x || isZero y) <;> simp

theorem isNaN_fdiv_inf_inf (hx : isInf x = true) (hy : isInf y = true) : isNaN (fdiv x y) = true := by
  have hn : (isNaN x || isNaN y) = false := by rw [not_isNaN_of_isInf hx, not_isNaN_of_isInf hy]; rfl
  rw [fdiv, hn, hx, hy]
  simp

theorem fdiv_inf_left (hx : isInf x = true) (hy : isFinite y = true) :
    fdiv x y = withSign (fsign x != fsign y) infBits := by
  have hn : (isNaN x || isNaN y) = false := by rw [not_isNaN_of_isInf hx, not_isNaN_of_isFinite hy]; rfl
  rw [fdiv, hn, hx, not_isInf_of_isFinite hy]
  simp

theorem fdiv_inf_right (hx : isFinite x = true) (hy : isInf y = true) :
    fdiv x y = withSign (fsign x != fsign y) 0 := by
  have hn : (isNaN x || isNaN y) = false := by rw [not_isNaN_of_isFinite hx, not_isNaN_of_isInf hy]; rfl
  rw [fdiv, hn, not_isInf_of_isFinite hx, hy]
  simp

theorem isFinite_of_isZero (h : isZero x = true) : isFinite x = true := by
  rw [isZero_iff] at h
  rw [isFinite_iff, h]
  decide

theorem fdiv_zero_right (hx : isFinite x = true) (hy : isZero y = true) :
    if isZero x then isNaN (fdiv x y) = true else fdiv x y = withSign (fsign x != fsign y) infBits := by
  have hyf := isFinite_of_isZero hy
  have hn : (isNaN x || isNaN y) = false := by rw [not_isNaN_of_isFinite hx, not_isNaN_of_isFinite hyf]; rfl
  rw [fdiv, hn, not_isInf_of_isFinite hx, not_isInf_of_isFinite hyf, hy]
  cases isZero x <;> simp

end Infinities

/-- The operations on finite operands: the clause of `ArithmeticIsNearest` about R10's rounding and signs. -/
theorem arithmetic_of_finite {x y : F64} (hx : isFinite x = true) (hy : isFinite y = true) :
    CorrectlyRounded (fadd x y) (fval x + fval y) 1 ∧ CorrectlyRounded (fsub x y) (fval x - fval y) 1 ∧
    CorrectlyRounded (fmul x y) (fval x * fval y) oneUnits ∧
    (isZero y = false → CorrectlyRounded (fdiv x y) (fval x * oneUnits * (fval y).sign) (fval y).natAbs) ∧
    (fval x + fval y = 0 → fsign (fadd x y) = (fsign x && fsign y)) ∧
    (fval x - fval y = 0 → fsign (fsub x y) = (fsign x && !fsign y)) ∧
    (isZero x = true ∨ isZero y = true → fsign (fmul x y) = (fsign x != fsign y)) ∧
    (isZero y = false → isZero x = true → fsign (fdiv x y) = (fsign x != fsign y)) := by
  refine ⟨correctlyRounded_fadd hx hy, correctlyRounded_fsub hx hy, correctlyRounded_fmul hx hy,
    correctlyRounded_fdiv hx hy, fsign_fadd_of_zero_sum hx hy, fun h => ?_, fun _ => fsign_fmul hx hy,
    fun h0 _ => fsign_fdiv hx hy h0⟩
  rw [fsub, fsign_fadd_of_zero_sum hx (by simpa using hy) (by rw [fval_fneg]; omega), fsign_fneg]

/-- Settles O56: the finite results are `ofUnits` of the exact value, which `correctlyRounded_ofUnits` places; the
others are read off the operations' own cases. -/
theorem arithmeticIsNearest : Obligations.ArithmeticIsNearest := by
  unfold Obligations.ArithmeticIsNearest
  refine ⟨fun x _ => ⟨fsign_eq_getLsbD x, fval_eq_fields x⟩, fun x y => arithmetic_of_finite,
    fun x y => isNaN_operations, fun x y hnx hny => ?_⟩
  dsimp only
  simp only [← withSign_infBits, ← withSign_zero]
  have hmul := fmul_inf hnx hny
  refine ⟨fun hx hy => ?_, fun hx hy => ?_, fun hx hy => ?_, fun hx hy => fdiv_zero_right hx hy⟩
  · have hadd := fadd_inf_inf hx hy
    have hsub := fadd_inf_inf hx (y := fneg y) (by simpa using hy)
    rw [not_isZero_of_isInf hx, not_isZero_of_isInf hy] at hmul
    refine ⟨?_, by simpa using hmul (Or.inl hx), isNaN_fdiv_inf_inf hx hy⟩
    have hflip : (fsign x != !fsign y) = !(fsign x != fsign y) := by simp
    rw [fsign_fneg, hflip] at hsub
    unfold fsub
    cases hneg : (fsign x != fsign y) <;> rw [hneg] at hadd hsub <;> exact ⟨hadd, hsub⟩
  · rw [not_isZero_of_isInf hx, Bool.false_or] at hmul
    exact ⟨fadd_inf_left hx hy, fadd_inf_left hx (by simpa using hy), fdiv_inf_left hx hy, hmul (Or.inl hx)⟩
  · rw [not_isZero_of_isInf hy, Bool.or_false] at hmul
    exact ⟨fadd_inf_right hx hy, fadd_inf_right hx (by simpa using hy), fdiv_inf_right hx hy, hmul (Or.inr hy)⟩

/-! ## Scaled integers as magnitudes -/

/-- Finite magnitude bits stand for an integer below `2^(p+1)` scaled by a power of two that grows with the exponent
field. -/
theorem magOfBits_eq_scaled (p : Nat) {b E : Nat} (h : b < E * 2 ^ p) :
    ∃ m e, m < 2 ^ (p + 1) ∧ e ≤ E - 2 ∧ magOfBits p b = m * 2 ^ e := by
  have hp : 0 < 2 ^ p := Nat.two_pow_pos p
  have hmod := Nat.mod_lt b hp
  have hE : b / 2 ^ p < E := by rwa [Nat.div_lt_iff_lt_mul hp]
  have h2 : 2 ^ (p + 1) = 2 * 2 ^ p := by ring
  unfold magOfBits
  split
  · rename_i h0
    have hb : b < 2 ^ p := by rwa [Nat.div_eq_zero_iff_lt hp] at h0
    exact ⟨b, 0, by omega, by omega, by simp⟩
  · exact ⟨2 ^ p + b % 2 ^ p, b / 2 ^ p - 1, by omega, by omega, rfl⟩

theorem fmag_eq_scaled {x : F64} (h : isFinite x = true) :
    ∃ m e, m < 2 ^ 53 ∧ e ≤ 2045 ∧ fmag x = m * 2 ^ e :=
  magOfBits_eq_scaled 52 ((isFinite_iff x).1 h)

/-! ## binary32 words (R14) -/

theorem fbits32_lt (a : F32) : fbits32 a < 2 ^ 31 := Nat.mod_lt _ (by decide)

theorem toNat_of_msb (a : F32) : a.toNat = (if a.msb then 2 ^ 31 else 0) + fbits32 a := by
  have h := a.isLt
  unfold fbits32
  rw [BitVec.msb_eq_decide]
  by_cases hs : 2 ^ (32 - 1) ≤ a.toNat
  · simp only [hs, decide_true, if_true]; omega
  · simp only [hs, decide_false, Bool.false_eq_true, if_false]; omega

/-- A binary32 word is its sign and its magnitude bits. -/
theorem withSign32_eta (a : F32) : withSign32 a.msb (fbits32 a) = a := by
  apply BitVec.eq_of_toNat_eq
  have hlt := fbits32_lt a
  rw [withSign32, BitVec.toNat_ofNat, toNat_of_msb a]
  split <;> omega

theorem toNat_exponentField32 (a : F32) : (a.extractLsb' 23 8).toNat = fbits32 a / 2 ^ 23 := by
  rw [BitVec.extractLsb'_toNat, Nat.shiftRight_eq_div_pow, fbits32]
  omega

theorem toNat_fractionField32 (a : F32) : (a.extractLsb' 0 23).toNat = fbits32 a % 2 ^ 23 := by
  rw [BitVec.extractLsb'_toNat, Nat.shiftRight_eq_div_pow, fbits32]
  omega

/-- The magnitude of a binary32 word in its fields (R7). -/
theorem fmag32_eq_fields (a : F32) :
    fmag32 a = if (a.extractLsb' 23 8).toNat = 0 then (a.extractLsb' 0 23).toNat
      else (2 ^ 23 + (a.extractLsb' 0 23).toNat) * 2 ^ ((a.extractLsb' 23 8).toNat - 1) := by
  rw [toNat_exponentField32, toNat_fractionField32, fmag32, magOfBits]
  split
  · omega
  · rfl

theorem isNaN32_eq_false_iff (a : F32) : isNaN32 a = false ↔ fbits32 a ≤ infBits32 := by simp [isNaN32]

/-! ## Widening and narrowing (R14) -/

theorem widen_of_finite {a : F32} (h : fbits32 a < infBits32) : widen a = ofUnits a.msb (fmag32 a * 2 ^ 925) 1 := by
  have hn : isNaN32 a = false := (isNaN32_eq_false_iff a).2 h.le
  rw [widen, hn, if_neg (by decide), if_neg h.ne]

theorem widen_of_inf {a : F32} (h : fbits32 a = infBits32) : widen a = withSign a.msb infBits := by
  have hn : isNaN32 a = false := (isNaN32_eq_false_iff a).2 h.le
  rw [widen, hn, if_neg (by decide), if_pos h]

/-- Widening a finite word is exact. -/
theorem widen_exact {a : F32} (h : fbits32 a < infBits32) :
    isFinite (widen a) = true ∧ fsign (widen a) = a.msb ∧ fmag (widen a) = fmag32 a * 2 ^ 925 := by
  obtain ⟨m, e, hm, he, hmag⟩ := magOfBits_eq_scaled 23 h
  have hscaled : fmag32 a * 2 ^ 925 = m * 2 ^ (e + 925) := by rw [fmag32, hmag, mul_assoc, ← pow_add]
  rw [widen_of_finite h, hscaled]
  obtain ⟨hfin, hval⟩ := ofUnits_dyadic a.msb (hm.trans (by decide)) (show e + 925 ≤ 2045 by omega)
  exact ⟨hfin, fsign_ofUnits _ _ _, hval⟩

theorem isNaN_widen {a : F32} (h : isNaN32 a = false) : isNaN (widen a) = false := by
  rcases ((isNaN32_eq_false_iff a).1 h).lt_or_eq with hfin | hinf
  · exact not_isNaN_of_isFinite (widen_exact hfin).1
  · rw [widen_of_inf hinf]
    cases a.msb <;> decide

theorem fsign_widen {a : F32} (h : isNaN32 a = false) : fsign (widen a) = a.msb := by
  rcases ((isNaN32_eq_false_iff a).1 h).lt_or_eq with hfin | hinf
  · exact (widen_exact hfin).2.1
  · rw [widen_of_inf hinf, fsign_withSign _ infBits_lt]

/-- Narrowing gives the widened word back, bit for bit. -/
theorem narrow_widen {a : F32} (h : isNaN32 a = false) : narrow (widen a) = a := by
  have hn := isNaN_widen h
  have hs := fsign_widen h
  rcases ((isNaN32_eq_false_iff a).1 h).lt_or_eq with hfin | hinf
  · obtain ⟨hf, -, hmag⟩ := widen_exact hfin
    rw [narrow, hn, not_isInf_of_isFinite hf, hs, hmag, if_neg (by decide), if_neg (by decide), ofUnits32, roundBits_eq,
      fmag32, roundRaw_exact 23 _ (Nat.two_pow_pos 925), Nat.min_eq_left hfin.le, withSign32_eta]
  · have hi : isInf (widen a) = true := by
      rw [widen_of_inf hinf, isInf_iff, fbits_withSign _ infBits_lt]
    rw [narrow, hn, hi, hs, if_neg (by decide), if_pos rfl, ← hinf, withSign32_eta]

/-- Settles O57: a finite f32 is an integer below `2^24` scaled by a power of two, which binary64 holds exactly. -/
theorem narrowUndoesWiden : Obligations.NarrowUndoesWiden := by
  unfold Obligations.NarrowUndoesWiden
  refine ⟨fun a => ⟨fun hexp => ?_, fun ⟨hexp, hfrac⟩ => ?_⟩, fun a => narrow_widen⟩
  · have hfin : fbits32 a < infBits32 := by
      have hlt := fbits32_lt a
      rw [toNat_exponentField32] at hexp
      have hinf : infBits32 = 255 * 2 ^ 23 := rfl
      omega
    obtain ⟨hf, hs, hmag⟩ := widen_exact hfin
    refine ⟨hf, hs, ?_⟩
    rw [← fmag32_eq_fields, ← hmag, fval_eq_signed, hs]
    split <;> simp
  · have hinf : fbits32 a = infBits32 := by
      rw [toNat_exponentField32] at hexp
      rw [toNat_fractionField32] at hfrac
      have h : infBits32 = 255 * 2 ^ 23 := rfl
      omega
    rw [widen_of_inf hinf, withSign_infBits]

/-! ## Sums and products that are exact -/

theorem ofUnits_mul_right (s : Bool) (n d : Nat) {c : Nat} (hc : 0 < c) : ofUnits s (n * c) (d * c) = ofUnits s n d := by
  rw [ofUnits, ofUnits, roundBits_eq, roundBits_eq, roundRaw_mul_right 52 n d hc]

/-- A sum that is an integer below 2^53 scaled by a power of two is exact. -/
theorem fadd_dyadic {x y : F64} {m : Int} {e : Nat} (hx : isFinite x = true) (hy : isFinite y = true)
    (hm : m.natAbs < 2 ^ 53) (he : e ≤ 2045) (h : fval x + fval y = m * ((2 ^ e : Nat) : Int)) :
    isFinite (fadd x y) = true ∧ fval (fadd x y) = fval x + fval y := by
  rw [fadd_of_finite hx hy]
  split
  · rename_i h0
    exact ⟨isFinite_withSign_zero _, by rw [fval_withSign_zero, h0]⟩
  · have habs : (fval x + fval y).natAbs = m.natAbs * 2 ^ e := by rw [h, Int.natAbs_mul, Int.natAbs_natCast]
    obtain ⟨hfin, hmag⟩ := ofUnits_dyadic (decide (fval x + fval y < 0)) hm he
    rw [← habs] at hfin hmag
    refine ⟨hfin, ?_⟩
    rw [fval_eq_signed, fsign_ofUnits, hmag]
    exact signed_natAbs _

/-- A product that is an integer below 2^53 scaled by a power of two is exact. -/
theorem fmul_dyadic {x y : F64} {m e : Nat} (hx : isFinite x = true) (hy : isFinite y = true)
    (hm : m < 2 ^ 53) (he : e ≤ 2045) (h : fmag x * fmag y = m * 2 ^ e * oneUnits) :
    isFinite (fmul x y) = true ∧ fmag (fmul x y) = m * 2 ^ e := by
  rw [fmul_of_finite hx hy, h]
  have hscale := ofUnits_mul_right (fsign x != fsign y) (m * 2 ^ e) 1 oneUnits_pos
  rw [Nat.one_mul] at hscale
  rw [hscale]
  exact ofUnits_dyadic _ hm he

/-! ## The phase of a table entry (R122) -/

theorem oneUnits_eq : oneUnits = 128 * 2 ^ 1067 := by decide +kernel

/-- `j * (2 / 256)` is exact. -/
theorem entryStep_exact {j : Nat} (hj : j < 257) :
    isFinite (fmul (natToF64 j) (fdiv ftwo f256)) = true ∧
      fval (fmul (natToF64 j) (fdiv ftwo f256)) = (j : Int) * ((2 ^ 1067 : Nat) : Int) := by
  have hm : j < 2 ^ 53 := by omega
  obtain ⟨hfin, hval⟩ := natToF64_exact hm
  have hsign : fsign (natToF64 j) = false := fsign_ofUnits _ _ _
  have hstep : isFinite (fdiv ftwo f256) = true ∧ fsign (fdiv ftwo f256) = false ∧
      fmag (fdiv ftwo f256) = 2 ^ 1067 := by decide +kernel
  obtain ⟨sfin, ssign, smag⟩ := hstep
  have hmag : fmag (natToF64 j) = j * oneUnits := by
    rw [← natAbs_fval, hval, Int.natAbs_mul, Int.natAbs_natCast, Int.natAbs_natCast]
  have hprod : fmag (natToF64 j) * fmag (fdiv ftwo f256) = j * 2 ^ 1067 * oneUnits := by
    rw [hmag, smag, mul_right_comm]
  obtain ⟨pfin, pmag⟩ := fmul_dyadic hfin sfin hm (by decide) hprod
  refine ⟨pfin, ?_⟩
  rw [fval_eq_signed, fsign_fmul hfin sfin, hsign, ssign, pmag]
  exact Nat.cast_mul _ _

/-- The phase of entry `j` is exactly `-1 + j/128`. -/
theorem entryPhase_exact {j : Nat} (hj : j < 257) :
    isFinite (entryPhase j) = true ∧ 128 * fval (entryPhase j) = ((j : Int) - 128) * fval fone := by
  obtain ⟨sfin, sval⟩ := entryStep_exact hj
  have hone : fval fone = 128 * ((2 ^ 1067 : Nat) : Int) := by
    rw [fval_fone, oneUnits_eq]; exact Nat.cast_mul _ _
  have hsum : fval (fneg fone) + fval (fmul (natToF64 j) (fdiv ftwo f256)) =
      ((j : Int) - 128) * ((2 ^ 1067 : Nat) : Int) := by
    rw [fval_fneg, hone, sval]; ring
  obtain ⟨pfin, pval⟩ := fadd_dyadic (x := fneg fone) (by decide) sfin (by omega) (by decide) hsum
  refine ⟨pfin, ?_⟩
  rw [entryPhase, pval, hsum, hone]
  ring

/-! ## The recurrence of `generateFormant` (R121) -/

/-- The sum and the running phase after `h` harmonics of row `i`. -/
def formantTrace (p : Params) (phase : F64) (i h : Nat) : F64 × F64 :=
  (List.range' 1 h).foldl (formantStep p phase i) (fhalf, fzero)

theorem formantTrace_succ (p : Params) (phase : F64) (i h : Nat) :
    formantTrace p phase i (h + 1) = formantStep p phase i (formantTrace p phase i h) (h + 1) := by
  rw [formantTrace, List.range'_concat, List.foldl_append, Nat.one_mul, Nat.add_comm 1 h]
  rfl

/-- The running phase is advanced by `PI * phase`. -/
theorem formantTrace_phase_succ (p : Params) (phase : F64) (i h : Nat) :
    (formantTrace p phase i (h + 1)).2 = fadd (formantTrace p phase i h).2 (fmul p.pi phase) := by
  rw [formantTrace_succ, formantStep]

/-- The term of a harmonic is taken at the phase already advanced. -/
theorem formantTrace_sum_succ (p : Params) (phase : F64) (i h : Nat) :
    (formantTrace p phase i (h + 1)).1 = fadd (formantTrace p phase i h).1
      (fmul (fmul (hannWeight i (h + 1)) (gaussWeight p i (h + 1)))
        (p.num.cos (formantTrace p phase i (h + 1)).2)) := by
  rw [formantTrace_succ, formantStep]

theorem generateFormant_eq_trace (p : Params) (phase : F64) (i : Nat) :
    generateFormant p phase i = (formantTrace p phase i (harmonicMax i - 1)).1 := rfl

/-- The word of cell `(j, i)` of the built table (R61, R122). -/
theorem read_buildTable_cell (p : Params) {j i : Nat} (hj : j < 257) (hi : i < 64) :
    Table.read (buildTable p) (j + 257 * i) = generateFormant p (entryPhase j) i := by
  have hsize : tableSize = 257 := rfl
  rw [read_buildTable p (show j + 257 * i < 16448 by omega), builtWord, hsize, Nat.add_mul_mod_self_left,
    Nat.mod_eq_of_lt hj, Nat.add_mul_div_left _ _ (by decide), Nat.div_eq_of_lt hj, Nat.zero_add]

/-- Settles O20: the table is filled cell by cell, and the loop of `generateFormant` is its own recurrence. -/
theorem builtTableWords : Obligations.BuiltTableWords := by
  unfold Obligations.BuiltTableWords
  refine ⟨fun p j i => read_buildTable_cell p, fun p phase i => ?_, fun j => entryPhase_exact, fun n hn => ?_,
    wf_buildTable⟩
  · exact ⟨fun h => (formantTrace p phase i h).1, fun h => (formantTrace p phase i h).2, rfl, rfl,
      formantTrace_phase_succ p phase i, formantTrace_sum_succ p phase i, generateFormant_eq_trace p phase i⟩
  · rw [fval_fone]
    exact natToF64_exact (hn.trans_lt (by decide))

/-! ## The carrier frequency (R162) -/

/-- The exponent `4 - 4 * t` of the carrier frequency is in `[0, 4]`. -/
theorem carrierExponent_bounds {t : F64} (ht : inUnit t = true) :
    fle fzero (fsub ffour (fmul ffour t)) = true ∧ fle (fsub ffour (fmul ffour t)) ffour = true := by
  have hf := isFinite_of_inUnit ht
  obtain ⟨h0, h1⟩ := fval_of_inUnit ht
  have hlo : fle fzero (fmul ffour t) = true := by
    refine le_fmul isFinite_ffour hf isFinite_fzero ?_
    rw [fval_fzero, Int.zero_mul, fval_ffour]
    exact Int.mul_nonneg (by omega) h0
  have hhi : fle (fmul ffour t) ffour = true := by
    refine fmul_le isFinite_ffour hf isFinite_ffour ?_
    rw [fval_ffour]
    exact Int.mul_le_mul_of_nonneg_left h1 (by omega)
  have pf := isFinite_of_between isFinite_fzero isFinite_ffour hlo hhi
  have plo := fval_le_of_fle hlo
  have phi := fval_le_of_fle hhi
  rw [fval_fzero] at plo
  exact ⟨le_fsub isFinite_ffour pf isFinite_fzero (by rw [fval_fzero]; omega),
    fsub_le isFinite_ffour pf isFinite_ffour (by omega)⟩

/-- The machine's carrier frequency at an exponent of `P-pow2-int`. -/
theorem carrierFreq_of_exponent {t : F64} {k : Nat} (hk : k ≤ 2045) (h : fsub ffour (fmul ffour t) = exponentF64 k) :
    carrierFreq machineParams t = fmul ftwelve (BitVec.ofNat 64 ((k + 1) * 2 ^ 52)) := by
  rw [carrierFreq, h, lawful_machineParams.pow2Int k hk]

/-- Settles O31: `P-pow2-mono` bounds the power by those at the ends of `[0, 4]`, `P-pow2-int` gives it at the
quarters. -/
theorem carrierFrequencyRange : Obligations.CarrierFrequencyRange := by
  unfold Obligations.CarrierFrequencyRange
  refine ⟨fun t ht => ?_, ?_, ?_, ?_, ?_, ?_⟩
  · obtain ⟨hlo, hhi⟩ := carrierExponent_bounds ht
    obtain ⟨plo, phi⟩ := pow2Range_of_mono lawful_machineParams.pow2Int lawful_machineParams.pow2Mono _ hlo hhi
    have pf := isFinite_of_between isFinite_fone (by decide) plo phi
    have vlo := fval_le_of_fle plo
    have vhi := fval_le_of_fle phi
    have f12 : isFinite ftwelve = true := by decide
    have v12 : fval ftwelve = 12 * oneUnits := by decide +kernel
    have v16 : fval (0x4030000000000000#64) = 16 * oneUnits := by decide +kernel
    have v192 : fval (0x4068000000000000#64) = 192 * oneUnits := by decide +kernel
    have hpos := oneUnits_int_pos
    rw [fval_fone] at vlo
    rw [v16] at vhi
    refine ⟨le_fmul f12 pf f12 ?_, fmul_le f12 pf (by decide) ?_⟩
    · exact Int.mul_le_mul_of_nonneg_left vlo (by omega)
    · have h192 : (192 : Int) * oneUnits * oneUnits = 12 * oneUnits * (16 * oneUnits) := by ring
      rw [v12, v192, h192]
      exact Int.mul_le_mul_of_nonneg_left vhi (by omega)
  · rw [carrierFreq_of_exponent (k := 1026) (by decide) (by decide +kernel)]; decide +kernel
  · rw [carrierFreq_of_exponent (k := 1025) (by decide) (by decide +kernel)]; decide +kernel
  · rw [carrierFreq_of_exponent (k := 1024) (by decide) (by decide +kernel)]; decide +kernel
  · rw [carrierFreq_of_exponent (k := 1023) (by decide) (by decide +kernel)]; decide +kernel
  · rw [carrierFreq_of_exponent (k := 1022) (by decide) (by decide +kernel)]; decide +kernel

/-! ## The exact operations of R12 -/

/-- `abs` keeps the 63 bits below the sign. -/
theorem fabs_eq_append (x : F64) : fabs x = 0#1 ++ x.extractLsb' 0 63 := by
  have happend : (0#1 ++ x.extractLsb' 0 63).toNat = fbits x := by
    rw [BitVec.toNat_append, BitVec.extractLsb'_toNat, fbits]
    simp
  refine BitVec.eq_of_toNat_eq ?_
  rw [happend, toNat_of_sign, fsign_fabs, fbits_fabs]
  simp

theorem two_pow_le_oneUnits {e : Nat} (he : e ≤ 1074) : 2 ^ e ≤ oneUnits := by
  unfold oneUnits
  exact pow_le_pow_right₀ one_le_two he

theorem two_pow_eq_mul_oneUnits {e : Nat} (he : 1074 ≤ e) : 2 ^ e = 2 ^ (e - 1074) * oneUnits := by
  rw [oneUnits, ← pow_add, Nat.sub_add_cancel he]

/-- A multiple of one that is less than one away from a finite magnitude is a magnitude that `ofUnits` holds
exactly. -/
theorem ofUnits_integral (s : Bool) {x : F64} (hx : isFinite x = true) {q : Nat}
    (hup : q * oneUnits < fmag x + oneUnits) (hdown : fmag x < q * oneUnits + oneUnits) :
    isFinite (ofUnits s (q * oneUnits) 1) = true ∧ fmag (ofUnits s (q * oneUnits) 1) = q * oneUnits := by
  obtain ⟨m, e, hm, he, hmag⟩ := fmag_eq_scaled hx
  have succ_mul : ∀ k : Nat, k * oneUnits + oneUnits = (k + 1) * oneUnits := fun k => by ring
  rcases Nat.lt_or_ge e 1074 with hlt | hge
  · have hle := Nat.mul_le_mul_left m (two_pow_le_oneUnits hlt.le)
    have hqm : q * oneUnits < (m + 1) * oneUnits := by rw [← succ_mul]; omega
    have hq : q < m + 1 := Nat.lt_of_mul_lt_mul_right hqm
    exact ofUnits_dyadic s (show q < 2 ^ 53 by omega) (by decide)
  · have hk : fmag x = m * 2 ^ (e - 1074) * oneUnits := by rw [hmag, two_pow_eq_mul_oneUnits hge, mul_assoc]
    rw [hk, succ_mul] at hup hdown
    have h1 : q < m * 2 ^ (e - 1074) + 1 := Nat.lt_of_mul_lt_mul_right hup
    have h2 : m * 2 ^ (e - 1074) < q + 1 := Nat.lt_of_mul_lt_mul_right hdown
    have hq : q * oneUnits = m * 2 ^ e := by rw [← hmag, hk, show q = m * 2 ^ (e - 1074) by omega]
    rw [hq]
    exact ofUnits_dyadic s hm he

theorem ffloor_of_finite {x : F64} (hx : isFinite x = true) :
    ffloor x = if fsign x then ofUnits true ((fmag x + (oneUnits - 1)) / oneUnits * oneUnits) 1
      else ofUnits false (fmag x / oneUnits * oneUnits) 1 := by
  simp only [ffloor, not_isNaN_of_isFinite hx, not_isInf_of_isFinite hx, Bool.false_eq_true, if_false]

/-- `floor` of a finite word is finite and the greatest integral value not above it. -/
theorem ffloor_spec {x : F64} (hx : isFinite x = true) :
    isFinite (ffloor x) = true ∧
      ∃ m : Int, fval (ffloor x) = m * oneUnits ∧ m * oneUnits ≤ fval x ∧ fval x < (m + 1) * oneUnits := by
  have hpos := oneUnits_pos
  rw [ffloor_of_finite hx]
  cases hs : fsign x with
  | false =>
    have hdiv := Nat.div_add_mod' (fmag x) oneUnits
    have hmod := Nat.mod_lt (fmag x) hpos
    obtain ⟨hf, hm⟩ := ofUnits_integral false hx (q := fmag x / oneUnits) (by omega) (by omega)
    rw [if_neg (by decide)]
    refine ⟨hf, ((fmag x / oneUnits : Nat) : Int), ?_⟩
    rw [fval_eq_signed, fsign_ofUnits, hm, fval_eq_signed x, hs, Int.add_mul, Int.one_mul, ← Int.natCast_mul]
    simp only [Bool.false_eq_true, if_false, true_and]
    omega
  | true =>
    have hdiv := Nat.div_add_mod' (fmag x + (oneUnits - 1)) oneUnits
    have hmod := Nat.mod_lt (fmag x + (oneUnits - 1)) hpos
    obtain ⟨hf, hm⟩ := ofUnits_integral true hx (q := (fmag x + (oneUnits - 1)) / oneUnits) (by omega) (by omega)
    rw [if_pos rfl]
    refine ⟨hf, -(((fmag x + (oneUnits - 1)) / oneUnits : Nat) : Int), ?_⟩
    rw [fval_eq_signed, fsign_ofUnits, hm, fval_eq_signed x, hs, Int.add_mul, Int.one_mul, Int.neg_mul, ← Int.natCast_mul]
    simp only [if_true, true_and]
    omega

/-- `toNat` of a finite operand that is not negative is its integer part. -/
theorem toNatOrBounds_of_nonneg {x : F64} (hx : isFinite x = true) (h0 : 0 ≤ fval x) :
    ∃ n : Nat, toNatOrBounds x = .ok n ∧ (n : Int) * oneUnits ≤ fval x ∧ fval x < ((n : Int) + 1) * oneUnits := by
  have hq : 0 ≤ fval x / (oneUnits : Int) := Int.ediv_nonneg h0 oneUnits_int_pos.le
  refine ⟨(fval x / (oneUnits : Int)).toNat, ?_, ?_⟩
  · rw [toNatOrBounds, ftoNat_of_nonneg hx h0]
  · rw [Int.toNat_of_nonneg hq]
    exact ⟨Int.ediv_mul_le _ oneUnits_int_pos.ne', Int.lt_ediv_add_one_mul_self _ oneUnits_int_pos⟩

/-- `toNat` raises `TableBounds` outside its domain. -/
theorem toNatOrBounds_of_outside {x : F64} (h : isFinite x = false ∨ fval x < 0) :
    toNatOrBounds x = .error .tableBounds := by
  have hnone : ftoNat x = none := by
    rw [ftoNat, if_neg]
    rcases h with hinf | hneg
    · simp [hinf]
    · rw [fval_eq_signed] at hneg
      have hs : fsign x = true := by
        cases hs : fsign x with
        | true => rfl
        | false => rw [hs] at hneg; simp only [Bool.false_eq_true, if_false] at hneg; omega
      rw [hs] at hneg
      simp only [if_true] at hneg
      have hz : isZero x = false := by
        rw [isZero, decide_eq_false_iff_not, ← fmag_eq_zero]; omega
      simp [hs, hz]
  rw [toNatOrBounds, hnone]

/-- The remainder of two finite magnitudes is a magnitude that `ofUnits` holds exactly: it is a multiple of the smaller
of their two scales, and below both. -/
theorem ofUnits_remainder (s : Bool) {x y : F64} (hx : isFinite x = true) (hy : isFinite y = true)
    (hpos : 0 < fmag y) :
    isFinite (ofUnits s (fmag x % fmag y) 1) = true ∧ fmag (ofUnits s (fmag x % fmag y) 1) = fmag x % fmag y := by
  obtain ⟨m, e, hm, he, hmx⟩ := fmag_eq_scaled hx
  obtain ⟨k, f, hk, hf, hmy⟩ := fmag_eq_scaled hy
  have hlt := Nat.mod_lt (fmag x) hpos
  have hle := Nat.mod_le (fmag x) (fmag y)
  rcases le_total f e with hfe | hef
  · have hscale : fmag x = m * 2 ^ (e - f) * 2 ^ f := by rw [hmx, mul_assoc, ← pow_add, Nat.sub_add_cancel hfe]
    have hrem : fmag x % fmag y = m * 2 ^ (e - f) % k * 2 ^ f := by rw [hscale, hmy, Nat.mul_mod_mul_right]
    rw [hrem, hmy] at hlt
    rw [hrem]
    exact ofUnits_dyadic s ((Nat.lt_of_mul_lt_mul_right hlt).trans hk) hf
  · have hscale : fmag y = k * 2 ^ (f - e) * 2 ^ e := by rw [hmy, mul_assoc, ← pow_add, Nat.sub_add_cancel hef]
    have hrem : fmag x % fmag y = m % (k * 2 ^ (f - e)) * 2 ^ e := by rw [hscale, hmx, Nat.mul_mod_mul_right]
    rw [hrem]
    exact ofUnits_dyadic s ((Nat.mod_le _ _).trans_lt hm) he

theorem ffmod_of_finite {x y : F64} (hx : isFinite x = true) (hy : isFinite y = true) (h0 : isZero y = false) :
    ffmod x y = ofUnits (fsign x) (fmag x % fmag y) 1 := by
  rw [ffmod, not_isNaN_of_isFinite hx, not_isNaN_of_isFinite hy, not_isInf_of_isFinite hx, not_isInf_of_isFinite hy, h0]
  simp only [Bool.or_self, Bool.false_eq_true, if_false]

/-- `fmod` is exact, has the sign of the dividend and is below the divisor in magnitude. -/
theorem ffmod_spec {x y : F64} (hx : isFinite x = true) (hy : isFinite y = true) (h0 : isZero y = false) :
    isFinite (ffmod x y) = true ∧ fval (ffmod x y) = fval x - (fval x).tdiv (fval y) * fval y ∧
      fsign (ffmod x y) = fsign x ∧ |fval (ffmod x y)| < |fval y| := by
  have hpos := fmag_pos_of_not_isZero h0
  obtain ⟨hf, hm⟩ := ofUnits_remainder (fsign x) hx hy hpos
  rw [ffmod_of_finite hx hy h0]
  refine ⟨hf, ?_, fsign_ofUnits _ _ _, ?_⟩
  · have htmod : (fval x).tmod (fval y) = (fval x).tmod (fmag y) := by
      rw [fval_eq_signed y]; split
      · exact Int.tmod_neg _ _
      · rfl
    rw [Int.mul_comm, ← Int.tmod_def, htmod, fval_eq_signed, fsign_ofUnits, hm, fval_eq_signed x]
    split
    · rw [Int.neg_tmod, Int.ofNat_tmod]
    · rw [Int.ofNat_tmod]
  · rw [Int.abs_eq_natAbs, Int.abs_eq_natAbs, natAbs_fval, natAbs_fval, hm]
    exact_mod_cast Nat.mod_lt (fmag x) hpos

/-! ## Comparisons (R12) -/

theorem comparisons_of_isNaN {x y : F64} (h : isNaN x = true ∨ isNaN y = true) :
    flt x y = false ∧ fle x y = false ∧ feq x y = false := by
  rcases h with h | h <;> simp [flt, fle, feq, h]

theorem comparisons_of_finite {x y : F64} (hx : isFinite x = true) (hy : isFinite y = true) :
    flt x y = decide (fval x < fval y) ∧ fle x y = decide (fval x ≤ fval y) ∧ feq x y = decide (fval x = fval y) := by
  simp only [flt, fle, feq, not_isNaN_of_isFinite hx, not_isNaN_of_isFinite hy, ford_lt_iff, ford_le_iff, ford_eq_iff,
    Bool.not_false, Bool.true_and, and_self]

/-- A word other than a zero is the only one at its place in the order. -/
theorem eq_of_ford_eq {x y : F64} (h0 : ford y ≠ 0) (h : ford x = ford y) : x = y := by
  unfold ford at h h0
  refine f64_ext ?_ ?_ <;> cases hx : fsign x <;> cases hy : fsign y <;>
    simp only [hx, hy, if_true, Bool.false_eq_true, if_false] at h h0 ⊢ <;> omega

theorem ford_of_isInf {x : F64} (hx : isInf x = true) : ford x = if fsign x then -(infBits : Int) else infBits := by
  rw [ford, (isInf_iff x).1 hx]

theorem ford_eq_inf_iff {x y : F64} (hx : isInf x = true) :
    ford y = (if fsign x then -(infBits : Int) else infBits) ↔ y = x := by
  have hpos : 0 < infBits := by decide
  rw [← ford_of_isInf hx]
  refine ⟨eq_of_ford_eq ?_, congrArg ford⟩
  rw [ford_of_isInf hx]
  split <;> omega

/-- An infinity is beyond every other word that is not a NaN. -/
theorem comparisons_of_isInf {x y : F64} (hx : isInf x = true) (hy : isNaN y = false) :
    flt x y = (fsign x && decide (y ≠ x)) ∧ fle x y = (fsign x || decide (y = x)) ∧ feq x y = decide (y = x) ∧
    flt y x = (!fsign x && decide (y ≠ x)) ∧ fle y x = (!fsign x || decide (y = x)) ∧ feq y x = decide (y = x) := by
  have hbounds := ford_bounds hy
  have hpos : 0 < infBits := by decide
  simp only [flt, fle, feq, not_isNaN_of_isInf hx, hy, Bool.not_false, Bool.true_and, ← ford_eq_inf_iff hx (y := y),
    ford_of_isInf hx, ne_eq]
  cases fsign x with
  | false =>
    simp only [Bool.false_eq_true, if_false, Bool.false_and, Bool.false_or, Bool.not_false, Bool.true_and, Bool.true_or,
      decide_eq_true_eq, decide_eq_false_iff_not, decide_eq_decide, and_true]
    omega
  | true =>
    simp only [if_true, Bool.true_and, Bool.true_or, Bool.not_true, Bool.false_and, Bool.false_or,
      decide_eq_true_eq, decide_eq_false_iff_not, decide_eq_decide, and_true]
    omega

/-! ## The wrapped phase of a harmonic (R163, R267) -/

/-- The greatest word below 2. -/
def belowTwo : F64 := 0x3FFFFFFFFFFFFFFF#64

theorem fle_belowTwo {z : F64} (h : flt z ftwo = true) : fle z belowTwo = true := by
  obtain ⟨hz, -, hlt⟩ := (flt_iff z ftwo).1 h
  have hsucc : ford ftwo = ford belowTwo + 1 := by decide
  exact (fle_iff z belowTwo).2 ⟨hz, by decide, by omega⟩

/-- A sum between two finite words stays between them. -/
theorem fadd_between {x y lo hi : F64} (hx : isFinite x = true) (hy : isFinite y = true) (hlo : isFinite lo = true)
    (hhi : isFinite hi = true) (h1 : fval lo ≤ fval x + fval y) (h2 : fval x + fval y ≤ fval hi) :
    isFinite (fadd x y) = true ∧ fval lo ≤ fval (fadd x y) ∧ fval (fadd x y) ≤ fval hi := by
  have b1 := le_fadd hx hy hlo h1
  have b2 := fadd_le hx hy hhi h2
  exact ⟨isFinite_of_between hlo hhi b1 b2, fval_le_of_fle b1, fval_le_of_fle b2⟩

/-- A product between two finite words stays between them. -/
theorem fmul_between {x y lo hi : F64} (hx : isFinite x = true) (hy : isFinite y = true) (hlo : isFinite lo = true)
    (hhi : isFinite hi = true) (h1 : fval lo * oneUnits ≤ fval x * fval y)
    (h2 : fval x * fval y ≤ fval hi * oneUnits) :
    isFinite (fmul x y) = true ∧ fval lo ≤ fval (fmul x y) ∧ fval (fmul x y) ≤ fval hi := by
  have b1 := le_fmul hx hy hlo h1
  have b2 := fmul_le hx hy hhi h2
  exact ⟨isFinite_of_between hlo hhi b1 b2, fval_le_of_fle b1, fval_le_of_fle b2⟩

theorem mul_between {a b u c : Int} (ha0 : -u ≤ a) (ha1 : a ≤ u) (hb0 : 0 ≤ b) (hb1 : b ≤ c) :
    -(c * u) ≤ a * b ∧ a * b ≤ c * u := by
  constructor <;> nlinarith

/-- A carrier phase times a harmonic number, moved up by 1001, is finite and not negative. -/
theorem harmonicArgument_nonneg {p n : F64} (hp0 : fle (fneg fone) p = true) (hp1 : fle p fone = true)
    (hn0 : fle fzero n = true) (hn1 : fle n (0x408F480000000000#64) = true) :
    isFinite (fadd (fadd (fmul p n) fone) fthousand) = true ∧ 0 ≤ fval (fadd (fadd (fmul p n) fone) fthousand) := by
  have v1000 : fval fthousand = 1000 * oneUnits := by decide +kernel
  have v1001 : fval (0x408F480000000000#64) = 1001 * oneUnits := by decide +kernel
  have v1002 : fval (0x408F500000000000#64) = 1002 * oneUnits := by decide +kernel
  have v2002 : fval (0x409F480000000000#64) = 2002 * oneUnits := by decide +kernel
  have hpos := oneUnits_int_pos
  have pf := isFinite_of_between (by decide) isFinite_fone hp0 hp1
  have nf := isFinite_of_between isFinite_fzero (by decide) hn0 hn1
  have vp0 := fval_le_of_fle hp0
  have vp1 := fval_le_of_fle hp1
  have vn0 := fval_le_of_fle hn0
  have vn1 := fval_le_of_fle hn1
  rw [fval_fneg, fval_fone] at vp0
  rw [fval_fone] at vp1
  rw [fval_fzero] at vn0
  obtain ⟨hdown, hup⟩ := mul_between vp0 vp1 vn0 vn1
  obtain ⟨mf, m0, m1⟩ := fmul_between (lo := fneg 0x408F480000000000#64) (hi := 0x408F480000000000#64) pf nf (by decide)
    (by decide) (by rw [fval_fneg, Int.neg_mul]; exact hdown) hup
  rw [fval_fneg, v1001] at m0
  rw [v1001] at m1
  obtain ⟨af, a0, a1⟩ := fadd_between (lo := fneg fthousand) (hi := 0x408F500000000000#64) mf isFinite_fone (by decide)
    (by decide) (by rw [fval_fneg, v1000, fval_fone]; omega) (by rw [v1002, fval_fone]; omega)
  rw [fval_fneg, v1000] at a0
  rw [v1002] at a1
  obtain ⟨sf, s0, -⟩ := fadd_between (lo := fzero) (hi := 0x409F480000000000#64) af (y := fthousand) (by decide)
    isFinite_fzero (by decide) (by rw [fval_fzero, v1000]; omega) (by rw [v2002, v1000]; omega)
  rw [fval_fzero] at s0
  exact ⟨sf, s0⟩

/-- `fmod(a, 2) - 1` is in `[-1, 1)` for a finite `a` that is not negative. -/
theorem wrap_bounds {a : F64} (hf : isFinite a = true) (h0 : 0 ≤ fval a) :
    fle (fneg fone) (fsub (ffmod a ftwo) fone) = true ∧ flt (fsub (ffmod a ftwo) fone) fone = true := by
  have htwo : fval ftwo = 2 * oneUnits := fval_ftwo
  have hpos := oneUnits_int_pos
  obtain ⟨rf, hval, -, hlt⟩ := ffmod_spec hf isFinite_ftwo (by decide)
  have hr0 : 0 ≤ fval (ffmod a ftwo) := by
    rw [hval, Int.mul_comm, ← Int.tmod_def]
    exact Int.tmod_nonneg _ h0
  rw [abs_of_nonneg hr0, abs_of_pos (by omega)] at hlt
  have hflt : flt (ffmod a ftwo) ftwo = true :=
    (flt_iff_fval (not_isNaN_of_isFinite rf) (not_isNaN_of_isFinite isFinite_ftwo)).2 hlt
  have hbelow := fval_le_of_fle (fle_belowTwo hflt)
  have hstep : fval belowTwo - fval fone = fval (0x3FEFFFFFFFFFFFFE#64) := by decide +kernel
  refine ⟨le_fsub rf isFinite_fone (by decide) (by rw [fval_fneg]; omega), ?_⟩
  exact flt_of_fle_of_flt (fsub_le rf isFinite_fone (w := 0x3FEFFFFFFFFFFFFE#64) (by decide) (by omega)) (by decide)

/-- Settles O33: each clause of R12 is a lemma above; the wrap bound needs only that the argument of `fmod` is not
negative. -/
theorem harmonicPhaseWraps : Obligations.HarmonicPhaseWraps := by
  unfold Obligations.HarmonicPhaseWraps
  refine ⟨fabs_eq_append, fun x => ffloor_spec, fun x => toNatOrBounds_of_nonneg, fun x => toNatOrBounds_of_outside,
    fun x y => ffmod_spec, fun x y => comparisons_of_isNaN, fun x y => comparisons_of_finite,
    fun x y => comparisons_of_isInf, fun a b => ⟨rfl, rfl⟩, fun p n => rfl, fun p n hp0 hp1 hn0 hn1 => ?_⟩
  obtain ⟨hf, h0⟩ := harmonicArgument_nonneg hp0 hp1 hn0 hn1
  exact wrap_bounds hf h0

/-! ## The clamped operand (R15) -/

theorem fsign_of_flt_fzero {x : F64} (h : flt fzero x = true) : fsign x = false := by
  obtain ⟨-, -, hlt⟩ := (flt_iff _ _).1 h
  have hz : ford fzero = 0 := by decide
  rw [hz, ford] at hlt
  cases hs : fsign x with
  | false => rfl
  | true => rw [hs] at hlt; simp only [if_true] at hlt; omega

/-- The clamp never gives `-0`: `max(0, x)` keeps `+0` for every zero. -/
theorem fsign_clamp01 (x : F64) : fsign (clamp01 x) = false := by
  have hmax : fsign (fmax fzero x) = false := by
    unfold fmax
    split
    · rename_i h; exact fsign_of_flt_fzero h
    · decide
  rcases fmin_eq_or fone (fmax fzero x) with h | h <;> rw [clamp01, h]
  · decide
  · exact hmax

theorem fmul_fzero_right {v : F64} (hv : isFinite v = true) (hs : fsign v = false) : fmul v fzero = fzero := by
  rw [fmul_zero_factor hv isFinite_fzero (Or.inr (by decide)), hs]
  decide

theorem fdiv_fzero_ftwo : fdiv fzero ftwo = fzero := by decide +kernel

/-- A word of value zero and positive sign is `+0`. -/
theorem eq_fzero {v : F64} (hs : fsign v = false) (h : fval v = 0) : v = fzero := by
  have hm : fmag v = 0 := by rw [← natAbs_fval, h]; rfl
  exact f64_ext hs (fmag_eq_zero.1 hm)

theorem fadd_fzero {v : F64} (hv : isFinite v = true) (hs : fsign v = false) : fadd v fzero = v := by
  by_cases h0 : fval v = 0
  · rw [eq_fzero hs h0]; decide +kernel
  · exact fadd_exact hv isFinite_fzero hv h0 (by rw [fval_fzero, Int.add_zero])

theorem fsub_fzero {v : F64} (hv : isFinite v = true) (hs : fsign v = false) : fsub v fzero = v := by
  by_cases h0 : fval v = 0
  · rw [eq_fzero hs h0]; decide +kernel
  · exact fsub_exact hv isFinite_fzero hv h0 (by rw [fval_fzero, Int.sub_zero])

theorem fmin_fone_of_inUnit {v : F64} (hv : inUnit v = true) : fmin fone v = v := by
  obtain ⟨-, h1⟩ := (inUnit_iff v).1 hv
  obtain ⟨hn, ho, hle⟩ := (fle_iff v fone).1 h1
  have hone : ford fone ≠ 0 := by decide
  unfold fmin
  split
  · rfl
  · rename_i hlt
    obtain ⟨-, -, hge⟩ := (fle_iff fone v).1 (fle_of_not_flt ho hn (by simpa using hlt))
    exact (eq_of_ford_eq hone (by omega)).symm

theorem fmax_fzero_of_inUnit {v : F64} (hv : inUnit v = true) (hs : fsign v = false) : fmax fzero v = v := by
  obtain ⟨h0, -⟩ := (inUnit_iff v).1 hv
  obtain ⟨hz, hn, -⟩ := (fle_iff fzero v).1 h0
  unfold fmax
  split
  · rfl
  · rename_i hlt
    have v1 := fval_le_of_fle (fle_of_not_flt hn hz (by simpa using hlt))
    have v0 := fval_le_of_fle h0
    rw [fval_fzero] at v0 v1
    exact (eq_fzero hs (by omega)).symm

/-! ## The bounds that `cacheLFO` gives (R27, R160) -/

theorem inUnit_fmul {v d : F64} (hv : inUnit v = true) (hd : inUnit d = true) : inUnit (fmul v d) = true := by
  have vf := isFinite_of_inUnit hv
  have df := isFinite_of_inUnit hd
  obtain ⟨v0, v1⟩ := fval_of_inUnit hv
  obtain ⟨d0, d1⟩ := fval_of_inUnit hd
  rw [inUnit_iff]
  refine ⟨le_fmul vf df isFinite_fzero ?_, fmul_le vf df isFinite_fone ?_⟩
  · rw [fval_fzero, Int.zero_mul]; exact Int.mul_nonneg v0 d0
  · rw [fval_fone]
    exact (Int.mul_le_mul_of_nonneg_right v1 d0).trans (Int.mul_le_mul_of_nonneg_left d1 oneUnits_int_pos.le)

/-- Half of a value in `[0, 1]` is in `[0, 1]`. -/
theorem inUnit_half {r : F64} (hr : inUnit r = true) : inUnit (fdiv r ftwo) = true := by
  have rf := isFinite_of_inUnit hr
  obtain ⟨r0, r1⟩ := fval_of_inUnit hr
  have hpos := oneUnits_int_pos
  have two_pos : 0 < fval ftwo := by rw [fval_ftwo]; omega
  rw [inUnit_iff]
  refine ⟨le_fdiv rf isFinite_ftwo two_pos isFinite_fzero ?_, fdiv_le rf isFinite_ftwo two_pos isFinite_fone ?_⟩
  · rw [fval_fzero, Int.zero_mul]; exact Int.mul_nonneg r0 hpos.le
  · rw [fval_fone, fval_ftwo, Int.mul_comm]
    exact Int.mul_le_mul_of_nonneg_left (by omega) hpos.le

/-- The upper bound `min(1, v + r)` is in `[0, 1]`. -/
theorem inUnit_upperBound {v r : F64} (hv : inUnit v = true) (hr : inUnit r = true) :
    inUnit (fmin fone (fadd v r)) = true := by
  obtain ⟨v0, -⟩ := fval_of_inUnit hv
  obtain ⟨r0, -⟩ := fval_of_inUnit hr
  rw [inUnit_iff]
  refine ⟨le_fmin (by decide) ?_, fmin_le_left (by decide)⟩
  exact le_fadd (isFinite_of_inUnit hv) (isFinite_of_inUnit hr) isFinite_fzero (by rw [fval_fzero]; omega)

/-- A value, NaNs included, moved between a lower bound `max(0, l)` and an upper bound in `[0, 1]` is in `[0, 1]`. -/
theorem inUnit_between {hi l x : F64} (hhi : inUnit hi = true) : inUnit (fmin hi (fmax (fmax fzero l) x)) = true := by
  obtain ⟨h0, h1⟩ := (inUnit_iff hi).1 hhi
  have hlo : fle fzero (fmax fzero l) = true := le_fmax_left (by decide)
  have hmax : fle fzero (fmax (fmax fzero l) x) = true :=
    fle_trans hlo (le_fmax_left (isNaN_right_of_fle hlo))
  rw [inUnit_iff]
  exact ⟨le_fmin h0 hmax, fle_trans (fmin_le_left (isNaN_right_of_fle h0)) h1⟩

/-! ## SETVOWEL (R181) -/

section SetVowel
variable {S : Nat}

/-- The registers SETVOWEL has written before it selects the entry. -/
def setVowelBounds (v : F64) (u : Regs S) : Regs S :=
  retrack (cacheLfo { u with vowel := v, tempVowel := if u.hasLfo then fmul v (vowelRatio u) else v })

theorem setVowelRegs_eq {a : F32} {u : Regs S} (ha : isNaN32 a = false) :
    setVowelRegs a u = cacheCoeffOffset (setVowelBounds (controlOperand a) u) >>= fun u' => .ok (u', 0#64) := by
  rw [setVowelRegs, ha]
  rfl

theorem setVowelRegs_of_entry {a : F32} {u : Regs S} {k : Fin entries} (ha : isNaN32 a = false)
    (hk : selectEntry (setVowelBounds (controlOperand a) u).tempVowel = .ok k) :
    setVowelRegs a u = .ok ({ setVowelBounds (controlOperand a) u with coeffOffset := k }, 0#64) := by
  rw [setVowelRegs_eq ha, cacheCoeffOffset, hk]
  rfl

/-- With the LFO off the bounds collapse to the vowel. -/
theorem setVowelBounds_lfoOff {v : F64} {u : Regs S} (hlfo : u.hasLfo = false) (hv : inUnit v = true)
    (hs : fsign v = false) :
    setVowelBounds v u = { u with vowel := v, tempVowel := v, lfoRange := fzero, lfoMin := v, lfoMax := v } := by
  have hf := isFinite_of_inUnit hv
  simp only [setVowelBounds, retrack, cacheLfo, hlfo, Bool.false_eq_true, if_false, fmul_fzero_right hf hs,
    fdiv_fzero_ftwo, fadd_fzero hf hs, fsub_fzero hf hs, fmin_fone_of_inUnit hv, fmax_fzero_of_inUnit hv hs]

/-- With the LFO on the working vowel follows the vowel by the old ratio, inside the new bounds. -/
theorem setVowelBounds_lfoOn {v : F64} {u : Regs S} (hlfo : u.hasLfo = true) :
    setVowelBounds v u =
      { u with
        vowel := v
        tempVowel := fmin (fmin fone (fadd v (fdiv (fmul v u.lfoDepth) ftwo)))
          (fmax (fmax fzero (fsub v (fdiv (fmul v u.lfoDepth) ftwo)))
            (fmul v (fdiv u.tempVowel (fmax u.vowel divFloor))))
        lfoRange := fmul v u.lfoDepth
        lfoMin := fmax fzero (fsub v (fdiv (fmul v u.lfoDepth) ftwo))
        lfoMax := fmin fone (fadd v (fdiv (fmul v u.lfoDepth) ftwo)) } := by
  simp only [setVowelBounds, retrack, cacheLfo, vowelRatio, hlfo, if_true]

@[simp] theorem setVowelBounds_vowel (v : F64) (u : Regs S) : (setVowelBounds v u).vowel = v := by
  rw [setVowelBounds, retrack_vowel, cacheLfo_vowel]

theorem inUnit_setVowelBounds {v : F64} {u : Regs S} (hv : inUnit v = true) (hs : fsign v = false)
    (hd : u.hasLfo = true → inUnit u.lfoDepth = true) : inUnit (setVowelBounds v u).tempVowel = true := by
  cases hlfo : u.hasLfo with
  | false => rw [setVowelBounds_lfoOff hlfo hv hs]; exact hv
  | true =>
    rw [setVowelBounds_lfoOn hlfo]
    exact inUnit_between (inUnit_upperBound hv (inUnit_half (inUnit_fmul hv (hd hlfo))))

/-- SETVOWEL of an operand that is not a NaN succeeds. -/
theorem setVowelRegs_ok {a : F32} {u : Regs S} (ha : isNaN32 a = false)
    (hd : u.hasLfo = true → inUnit u.lfoDepth = true) :
    ∃ k, selectEntry (setVowelBounds (controlOperand a) u).tempVowel = .ok k ∧
      setVowelRegs a u = .ok ({ setVowelBounds (controlOperand a) u with coeffOffset := k }, 0#64) := by
  obtain ⟨k, hk⟩ := selectEntry_ok (inUnit_setVowelBounds (inUnit_controlOperand a) (fsign_clamp01 _) hd)
  exact ⟨k, hk, setVowelRegs_of_entry ha hk⟩

end SetVowel

/-- The next state of a successful SETVOWEL. -/
theorem exec_setVowel {a : F32} {s : State} {u : UnitRegs} {r : UnitRegs × BitVec 64} (hu : s.unit = some u)
    (hr : setVowelRegs a u = .ok r) :
    exec (.setVowel a) s = .next { s with responses := responseWord 0 r.2 :: s.responses, unit := some r.1 } := by
  show onConstructed s (setVowelRegs a) = _
  rw [onConstructed_some hu, hr]
  rfl

theorem exec_getVowel {s : State} {u : UnitRegs} (hu : s.unit = some u) :
    exec .getVowel s = .next { s with responses := responseWord 0 (vowelData u) :: s.responses } := by
  show onConstructed s (fun u => .ok (u, vowelData u)) = _
  rw [onConstructed_some hu, commit, respond, ← hu]

/-- Settles O36: with the LFO off `cacheLFO` and `retrack` give back the vowel itself. -/
theorem setVowelWithoutLfo : Obligations.SetVowelWithoutLfo := by
  unfold Obligations.SetVowelWithoutLfo
  intro s u a hu hlfo ha
  obtain ⟨k, hk, hr⟩ := setVowelRegs_ok (u := u) ha (by rw [hlfo]; exact nofun)
  rw [setVowelBounds_lfoOff hlfo (inUnit_controlOperand a) (fsign_clamp01 _)] at hk hr
  exact ⟨k, hk, exec_setVowel hu hr⟩

/-- Settles O37: the working vowel is clamped into bounds inside `[0, 1]`, so an entry is selected. -/
theorem setVowelWithLfo : Obligations.SetVowelWithLfo := by
  unfold Obligations.SetVowelWithLfo
  intro s u a hu hlfo hd ha
  obtain ⟨k, hk, hr⟩ := setVowelRegs_ok (u := u) ha fun _ => hd
  rw [setVowelBounds_lfoOn hlfo] at hk hr
  exact ⟨k, hk, exec_setVowel hu hr⟩

/-! ## GETVOWEL after SETVOWEL (R184) -/

/-- The clamp of a word with the sign bit set. -/
theorem clamp01_of_negative {x : F64} (hs : fsign x = true) : clamp01 x = fzero := by
  have hmax : fmax fzero x = fzero := by
    unfold fmax
    split
    · rename_i h; rw [fsign_of_flt_fzero h] at hs; exact absurd hs (by decide)
    · rfl
  rw [clamp01, hmax]
  decide

/-- The clamp of a word from 1 up. -/
theorem clamp01_of_one_le {x : F64} (h : fle fone x = true) : clamp01 x = fone := by
  have hmax : fmax fzero x = x := if_pos (flt_of_flt_of_fle (by decide) h)
  rw [clamp01, hmax, fmin, not_flt_of_fle h]
  rfl

/-- The clamp leaves a word of `[0, 1]` with positive sign alone. -/
theorem clamp01_of_inUnit {x : F64} (h : inUnit x = true) (hs : fsign x = false) : clamp01 x = x := by
  rw [clamp01, fmax_fzero_of_inUnit h hs, fmin_fone_of_inUnit h]

theorem fmag32_one : fmag32 0x3F800000#32 * 2 ^ 925 = oneUnits := by decide +kernel

/-- The words from 1 up, among those with positive sign. -/
theorem one_le_widen {a : F32} (ha : isNaN32 a = false) (hmsb : a.msb = false) (h : 0x3F800000 ≤ fbits32 a) :
    fle fone (widen a) = true := by
  rcases ((isNaN32_eq_false_iff a).1 ha).lt_or_eq with hfin | hinf
  · obtain ⟨hf, hs, hmag⟩ := widen_exact hfin
    have hle : fmag32 0x3F800000#32 ≤ fmag32 a := magOfBits_le_iff.2 h
    rw [fle_iff_fval (by decide) (not_isNaN_of_isFinite hf), fval_fone, fval_eq_signed, hs, hmsb, hmag, ← fmag32_one]
    exact Int.ofNat_le.2 (Nat.mul_le_mul_right _ hle)
  · rw [widen_of_inf hinf, hmsb]
    decide

theorem inUnit_widen {a : F32} (hmsb : a.msb = false) (h : fbits32 a ≤ 0x3F800000) : inUnit (widen a) = true := by
  obtain ⟨hf, hs, hmag⟩ := widen_exact (a := a) (h.trans_lt (by decide))
  have hle : fmag32 a ≤ fmag32 0x3F800000#32 := magOfBits_le_iff.2 h
  have hn := not_isNaN_of_isFinite hf
  rw [inUnit_iff, fle_iff_fval (by decide) hn, fle_iff_fval hn (by decide), fval_fzero, fval_fone, fval_eq_signed, hs,
    hmsb, hmag, ← fmag32_one]
  exact ⟨Int.natCast_nonneg _, Int.ofNat_le.2 (Nat.mul_le_mul_right _ hle)⟩

/-- `narrow` of the clamped operand: the operand itself, cut to `[0, 1]`. -/
theorem narrow_controlOperand {a : F32} (ha : isNaN32 a = false) :
    narrow (controlOperand a) = if a.msb then 0#32 else if 0x3F800000 ≤ a.toNat then 0x3F800000#32 else a := by
  have hs := fsign_widen ha
  have hbits := toNat_of_msb a
  rw [controlOperand]
  cases hmsb : a.msb with
  | true =>
    rw [clamp01_of_negative (hs.trans hmsb), if_pos rfl]
    decide +kernel
  | false =>
    rw [hmsb, if_neg (by decide), Nat.zero_add] at hbits
    rw [hbits, if_neg (by decide)]
    split
    · rename_i hge
      rw [clamp01_of_one_le (one_le_widen ha hmsb hge)]
      decide +kernel
    · rename_i hlt
      rw [clamp01_of_inUnit (inUnit_widen hmsb (by omega)) (hs.trans hmsb), narrow_widen ha]

/-- Settles O35: SETVOWEL leaves the clamped operand in `VOWEL`, and narrowing undoes the widening. -/
theorem getVowelAfterSetVowel : Obligations.GetVowelAfterSetVowel := by
  unfold Obligations.GetVowelAfterSetVowel
  intro s u a hu hd ha
  obtain ⟨k, -, hr⟩ := setVowelRegs_ok ha hd
  refine ⟨_, _, exec_setVowel hu hr, rfl, exec_getVowel rfl, ?_⟩
  rw [Answered, vowelData, setVowelBounds_vowel, narrow_controlOperand ha]

/-! ## The slots of PROCESS (R176 to R178), whatever their number -/

theorem vector_ext_get {S : Nat} {v w : Vector F64 S} (h : ∀ s : Fin S, v.get s = w.get s) : v = w :=
  Vector.ext fun i hi => h ⟨i, hi⟩

/-- The live amplitude of a slot one sample later. -/
def nextAmp (p : Params) (u : Regs p.slotCount) (s : Fin p.slotCount) : F64 :=
  smoothed p (u.aval.get s) (ampTarget p s u.coeffOffset)

/-- The live frequency of a slot one sample later. -/
def nextFreq (p : Params) (u : Regs p.slotCount) (s : Fin p.slotCount) : F64 :=
  smoothed p (u.fval.get s) (freqTarget p s u.coeffOffset)

/-- The registers after the slots of a list have been smoothed, each once. -/
def smoothedSlots (p : Params) (u : Regs p.slotCount) (l : List (Fin p.slotCount)) : Regs p.slotCount :=
  { u with
    aval := perSlot fun s => if s ∈ l then nextAmp p u s else u.aval.get s
    fval := perSlot fun s => if s ∈ l then nextFreq p u s else u.fval.get s }

/-- The term of slot `s`, from the registers before the slots and the slot's formant. -/
def slotContribution (p : Params) (f0 x : F64) (formant : Fin p.slotCount → F64) (u : Regs p.slotCount)
    (s : Fin p.slotCount) : F64 :=
  fmul (fmul (fmul (fmul (nextAmp p u s) (fdiv f0 (nextFreq p u s))) x) (formant s))
    (getCarrier (fmul (nextFreq p u s) (fdiv fone f0)) u.phase)

section Slots
variable {p : Params} {u : Regs p.slotCount}

theorem smoothedSlots_nil : smoothedSlots p u [] = u := by
  have hget : ∀ v : Vector F64 p.slotCount, (perSlot fun s => v.get s) = v := fun v =>
    vector_ext_get fun s => perSlot_get _ s
  simp only [smoothedSlots, List.not_mem_nil, if_false, hget]

@[simp] theorem smoothedSlots_coeffOffset (l : List (Fin p.slotCount)) :
    (smoothedSlots p u l).coeffOffset = u.coeffOffset := rfl

/-- Smoothing a slot that is not in the list adds it to the list. -/
theorem smooth_smoothedSlots {l : List (Fin p.slotCount)} {s : Fin p.slotCount} (hs : s ∉ l) :
    smooth p s (smoothedSlots p u l) = smoothedSlots p u (l ++ [s]) := by
  have hset : ∀ (v : Vector F64 p.slotCount) (f : Fin p.slotCount → F64),
      (perSlot fun t => if t ∈ l then f t else v.get t).set s.val (f s) =
        perSlot fun t => if t ∈ l ++ [s] then f t else v.get t := fun v f => by
    refine vector_ext_get fun t => ?_
    rw [get_set_slot, perSlot_get, perSlot_get]
    by_cases hts : t = s
    · simp [hts]
    · simp [hts]
  have hamp : smoothed p ((smoothedSlots p u l).aval.get s) (ampTarget p s u.coeffOffset) = nextAmp p u s := by
    rw [smoothedSlots, perSlot_get, if_neg hs, nextAmp]
  have hfreq : smoothed p ((smoothedSlots p u l).fval.get s) (freqTarget p s u.coeffOffset) = nextFreq p u s := by
    rw [smoothedSlots, perSlot_get, if_neg hs, nextFreq]
  simp only [smooth, smoothedSlots_coeffOffset, hamp, hfreq]
  simp only [smoothedSlots, hset]

/-- Step 5 for one more slot. -/
theorem processSlot_smoothedSlots {f0 x out : F64} {formant : Fin p.slotCount → F64} {l : List (Fin p.slotCount)}
    {s : Fin p.slotCount} (hs : s ∉ l) (hform : slotFormant p (fdiv fone f0) s u = .ok (formant s)) :
    processSlot p f0 (fdiv fone f0) x (out, smoothedSlots p u l) s =
      .ok (fadd out (slotContribution p f0 x formant u s), smoothedSlots p u (l ++ [s])) := by
  have hamp : (smoothedSlots p u (l ++ [s])).aval.get s = nextAmp p u s := by
    rw [smoothedSlots, perSlot_get, if_pos (by simp)]
  have hfreq : (smoothedSlots p u (l ++ [s])).fval.get s = nextFreq p u s := by
    rw [smoothedSlots, perSlot_get, if_pos (by simp)]
  have hform' : slotFormant p (fdiv fone f0) s (smoothedSlots p u (l ++ [s])) = .ok (formant s) := hform
  rw [processSlot, smooth_smoothedSlots hs, hform']
  simp only [bind, Except.bind, slotTerm, hamp, hfreq]
  rfl

/-- Step 5 for the slots of a list without repetition, after those of another. -/
theorem foldlM_processSlot {f0 x : F64} {formant : Fin p.slotCount → F64}
    (hform : ∀ s, slotFormant p (fdiv fone f0) s u = .ok (formant s)) (l : List (Fin p.slotCount)) :
    ∀ (done : List (Fin p.slotCount)) (out : F64), (done ++ l).Nodup →
      l.foldlM (processSlot p f0 (fdiv fone f0) x) (out, smoothedSlots p u done) =
        .ok (l.foldl (fun sum s => fadd sum (slotContribution p f0 x formant u s)) out, smoothedSlots p u (done ++ l)) := by
  induction l with
  | nil => intro done out _; rw [List.append_nil]; rfl
  | cons s l ih =>
    intro done out hnodup
    have hs : s ∉ done := fun h => (List.nodup_append.1 hnodup).2.2 s h s List.mem_cons_self rfl
    have hassoc : done ++ s :: l = done ++ [s] ++ l := by simp
    rw [hassoc] at hnodup ⊢
    rw [List.foldlM_cons, processSlot_smoothedSlots hs (hform s)]
    exact ih _ _ hnodup

/-- Step 5 for all slots: every slot smoothed, and the terms added in increasing order. -/
theorem processSlots_eq {f0 x : F64} {formant : Fin p.slotCount → F64}
    (hform : ∀ s, slotFormant p (fdiv fone f0) s u = .ok (formant s)) :
    processSlots p f0 x u =
      .ok ((slots p.slotCount).foldl (fun sum s => fadd sum (slotContribution p f0 x formant u s)) fzero,
        { u with aval := perSlot (nextAmp p u), fval := perSlot (nextFreq p u) }) := by
  have h := foldlM_processSlot (x := x) hform (slots p.slotCount) [] fzero (List.nodup_finRange _)
  have hall : smoothedSlots p u (slots p.slotCount) =
      { u with aval := perSlot (nextAmp p u), fval := perSlot (nextFreq p u) } := by
    simp only [smoothedSlots, slots, List.mem_finRange, if_true]
  rwa [smoothedSlots_nil, List.nil_append, hall] at h

end Slots

/-! ## PROCESS (R171 to R179) -/

/-- The working vowel of step 1 (R172). -/
def workingVowel (p : Params) (u : Regs p.slotCount) : F64 :=
  if u.hasLfo then fmin u.lfoMax (fadd u.lfoMin (fmul u.lfoRange (unipolar (p.lfoWave u.lphase)))) else u.tempVowel

/-- The registers of steps 1 to 4, for the entry `k` the working vowel selects. -/
def preparedRegs (p : Params) (u : Regs p.slotCount) (k : Fin entries) : Regs p.slotCount :=
  { u with
    lphase := lfoNextPhase u.lphase u.lrate u.srate
    tempVowel := workingVowel p u
    coeffOffset := k
    phase := nextPhase (carrierFreq p (workingVowel p u)) u.srate u.phase }

theorem processVowel_eq (p : Params) (u : Regs p.slotCount) :
    processVowel p u =
      { u with lphase := lfoNextPhase u.lphase u.lrate u.srate, tempVowel := workingVowel p u } := by
  unfold processVowel workingVowel
  split
  · rfl
  · rfl

theorem processPrepare_eq {p : Params} {u : Regs p.slotCount} {k : Fin entries}
    (hk : selectEntry (workingVowel p u) = .ok k) :
    processPrepare p u = .ok (carrierFreq p (workingVowel p u), preparedRegs p u k) := by
  rw [processPrepare, processVowel_eq, cacheCoeffOffset, hk]
  rfl

/-- PROCESS of a finite sample, when the working vowel selects an entry and every slot has a formant. -/
theorem processRegs_eq {p : Params} {u : Regs p.slotCount} {x : F64} {k : Fin entries}
    {formant : Fin p.slotCount → F64} (hx : isFinite x = true) (hk : selectEntry (workingVowel p u) = .ok k)
    (hform : ∀ s, slotFormant p (fdiv fone (carrierFreq p (workingVowel p u))) s (preparedRegs p u k) = .ok (formant s)) :
    processRegs p x u = .ok (processDyn
      ((slots p.slotCount).foldl
        (fun sum s => fadd sum (slotContribution p (carrierFreq p (workingVowel p u)) x formant (preparedRegs p u k) s))
        fzero)
      { preparedRegs p u k with
        aval := perSlot (nextAmp p (preparedRegs p u k)), fval := perSlot (nextFreq p (preparedRegs p u k)) }) := by
  have haccept : sampleRefused x = false := by
    rw [sampleRefused, not_isNaN_of_isFinite hx, not_isInf_of_isFinite hx]
    rfl
  rw [processRegs, haccept, processPrepare_eq hk]
  simp only [bind, Except.bind, Bool.false_eq_true, if_false, processSlots_eq hform]

/-- Settles O43: the slots are smoothed one after another, each from its own old values, so the fold over the slots is
the sum of their terms. -/
theorem processForEverySlotCount : Obligations.ProcessForEverySlotCount := by
  unfold Obligations.ProcessForEverySlotCount
  refine ⟨fun p sl k => ⟨coeffAddress sl k, rfl, rfl, rfl⟩, ?_⟩
  intro p u x k formant hx lphase sweep t f0 invf0 moved phase hk hon hoff
  refine processRegs_eq hx hk fun s => ?_
  unfold slotFormant
  cases hmode : p.synthMode with
  | true => exact hon hmode s
  | false => rw [hoff hmode s]; rfl

end Sys2Proof.Machine

/-! # Proofs: what a step can do, the frames, and the invariants between commands

`Effect` says once what a successful command leaves in the registers; every frame and every invariant is read off its
cases. -/

namespace Sys2Proof.Machine

open Sys2Proof.Config

/-! ## What a successful command leaves in the registers -/

theorem bind_eq_ok {α β : Type} {m : Except Cause α} {f : α → Except Cause β} {b : β} (h : m >>= f = .ok b) :
    ∃ a, m = .ok a ∧ f a = .ok b := by
  cases m with
  | error c => cases h
  | ok a => exact ⟨a, rfl, h⟩

theorem cacheCoeffOffset_ok {S : Nat} {u w : Regs S} (h : cacheCoeffOffset u = .ok w) :
    ∃ k, selectEntry u.tempVowel = .ok k ∧ w = { u with coeffOffset := k } := by
  obtain ⟨k, hk, hw⟩ := bind_eq_ok h
  exact ⟨k, hk, (Except.ok.inj hw).symm⟩

/-- A step 5 that gives a value has found a formant for every slot of the list. -/
theorem formants_of_foldlM_processSlot {p : Params} {u : Regs p.slotCount} {f0 x : F64}
    (l : List (Fin p.slotCount)) : ∀ acc r : F64 × Regs p.slotCount, acc.2.tf = u.tf → acc.2.phase = u.phase →
      l.foldlM (processSlot p f0 (fdiv fone f0) x) acc = .ok r →
      ∀ s ∈ l, ∃ y, slotFormant p (fdiv fone f0) s u = .ok y := by
  induction l with
  | nil => intro _ _ _ _ _ s hs; cases hs
  | cons s l ih =>
    intro acc r htf hphase hfold
    rw [List.foldlM_cons] at hfold
    obtain ⟨next, hslot, hrest⟩ := bind_eq_ok hfold
    obtain ⟨y, hy, hnext⟩ := bind_eq_ok hslot
    have hregs : next.2 = smooth p s acc.2 := by rw [← Except.ok.inj hnext]
    have hformant : slotFormant p (fdiv fone f0) s u = .ok y := by
      rw [slotFormant, smooth_tf, smooth_phase, htf, hphase] at hy
      exact hy
    intro t ht
    rcases List.mem_cons.1 ht with rfl | ht
    · exact ⟨y, hformant⟩
    · exact ih next r (by rw [hregs, smooth_tf, htf]) (by rw [hregs, smooth_phase, hphase]) hrest t ht

/-- The registers after a successful PROCESS: entry `k` selected, every slot smoothed, `out` sent through `Dyn`. -/
def processedRegs (p : Params) (u : Regs p.slotCount) (k : Fin entries) (out : F64) : Regs p.slotCount :=
  (processDyn out
    { preparedRegs p u k with
      aval := perSlot (nextAmp p (preparedRegs p u k)), fval := perSlot (nextFreq p (preparedRegs p u k)) }).1

/-- A PROCESS that gives a value has accepted the sample, selected an entry and found every formant. -/
theorem processRegs_ok_cases {p : Params} {x : F64} {u w : Regs p.slotCount} {y : BitVec 64}
    (h : processRegs p x u = .ok (w, y)) :
    ∃ k out, selectEntry (workingVowel p u) = .ok k ∧ w = processedRegs p u k out := by
  unfold processRegs at h
  split at h
  · cases h
  · obtain ⟨prepared, hprep, hrest⟩ := bind_eq_ok h
    obtain ⟨summed, hsum, hdyn⟩ := bind_eq_ok hrest
    obtain ⟨offset, hoffset, hprepared⟩ := bind_eq_ok hprep
    rw [processVowel_eq] at hoffset
    obtain ⟨k, hk, -⟩ := cacheCoeffOffset_ok hoffset
    have hprepared : prepared = (carrierFreq p (workingVowel p u), preparedRegs p u k) := by
      rw [processPrepare_eq hk] at hprep
      exact (Except.ok.inj hprep).symm
    subst hprepared
    have hformant := formants_of_foldlM_processSlot (slots p.slotCount) _ _ rfl rfl hsum
    choose formant hformant using fun s => hformant s (List.mem_finRange s)
    rw [processSlots_eq hformant] at hsum
    have hresult := Except.ok.inj hdyn
    rw [← Except.ok.inj hsum] at hresult
    exact ⟨k, _, hk, (congrArg Prod.fst hresult).symm⟩

/-- What a successful command leaves in the registers of a unit, with what it has checked. -/
inductive Effect (unit : Option UnitRegs) : Instr → UnitRegs → Prop
  | construct {v0 sr : F32} {k : Fin entries} (hv : isNaN32 v0 = false) (hsr : isNaN32 sr = false)
      (hrate : rateRefused sr = false) (hk : selectEntry (controlOperand v0) = .ok k) :
      Effect unit (.construct v0 sr) (constructed machineParams (controlOperand v0) (widen sr) k)
  | setVowel {v : F32} {u : UnitRegs} {k : Fin entries} (hu : unit = some u) (hv : isNaN32 v = false)
      (hk : selectEntry (setVowelBounds (controlOperand v) u).tempVowel = .ok k) :
      Effect unit (.setVowel v) { setVowelBounds (controlOperand v) u with coeffOffset := k }
  | getVowel {u : UnitRegs} (hu : unit = some u) : Effect unit .getVowel u
  | setLfoChanged {rp d : F32} {u : UnitRegs} {k : Fin entries} (hu : unit = some u) (hd : isNaN32 d = false)
      (hk : selectEntry
        (retrack (cacheLfo { setLfoRate machineParams rp u with lfoDepth := controlOperand d })).tempVowel = .ok k) :
      Effect unit (.setLfo rp d)
        { retrack (cacheLfo { setLfoRate machineParams rp u with lfoDepth := controlOperand d }) with coeffOffset := k }
  | setLfoSame {rp d : F32} {u : UnitRegs} (hu : unit = some u) (hsame : lfoChanged rp d u = false) :
      Effect unit (.setLfo rp d) (setLfoRate machineParams rp u)
  | process {x out : F64} {u : UnitRegs} {k : Fin entries} (hu : unit = some u)
      (hk : selectEntry (workingVowel machineParams u) = .ok k) :
      Effect unit (.process x) (processedRegs machineParams u k out)
  | dynCfg {sel : BitVec 8} {x : F64} {u : UnitRegs} (hu : unit = some u) (hx : isNaN x = false)
      (haccept : configRefused sel x = false) :
      Effect unit (.dynCfg sel x) { u with dyn := setDynReg u.dyn sel x }
  | dynProc {x : F64} {u : UnitRegs} (hu : unit = some u) :
      Effect unit (.dynProc x) { u with envs := (dyn u.dyn u.envs x).2 }

theorem effect_construct {unit : Option UnitRegs} {v0 sr : F32} {w : UnitRegs} {y : BitVec 64}
    (h : constructRegs machineParams v0 sr = .ok (w, y)) : Effect unit (.construct v0 sr) w := by
  unfold constructRegs at h
  split at h
  · cases h
  · rename_i hnan
    split at h
    · cases h
    · rename_i hrate
      obtain ⟨k, hk, hw⟩ := bind_eq_ok h
      cases hw
      obtain ⟨hv, hsr⟩ : isNaN32 v0 = false ∧ isNaN32 sr = false := by simpa using hnan
      exact .construct hv hsr (by simpa using hrate) hk

section OnUnit
variable {unit : Option UnitRegs} {u w : UnitRegs} {y : BitVec 64} (hu : unit = some u)
include hu

theorem effect_setVowel {v : F32} (h : setVowelRegs v u = .ok (w, y)) : Effect unit (.setVowel v) w := by
  cases hv : isNaN32 v with
  | true => rw [setVowelRegs, hv] at h; cases h
  | false =>
    rw [setVowelRegs_eq hv] at h
    obtain ⟨w', hoffset, hw⟩ := bind_eq_ok h
    obtain ⟨k, hk, rfl⟩ := cacheCoeffOffset_ok hoffset
    cases hw
    exact .setVowel hu hv hk

theorem effect_setLfo {rp d : F32} (h : setLfoRegs machineParams rp d u = .ok (w, y)) :
    Effect unit (.setLfo rp d) w := by
  unfold setLfoRegs at h
  split at h
  · cases h
  · rename_i hnan
    have hd : isNaN32 d = false := by
      simp only [Bool.or_eq_true, not_or, Bool.not_eq_true] at hnan
      exact hnan.2
    split at h
    · obtain ⟨w', hoffset, hw⟩ := bind_eq_ok h
      obtain ⟨k, hk, rfl⟩ := cacheCoeffOffset_ok hoffset
      cases hw
      exact .setLfoChanged hu hd hk
    · rename_i hsame
      cases h
      exact .setLfoSame hu (by simpa using hsame)

theorem effect_process {x : F64} (h : processRegs machineParams x u = .ok (w, y)) : Effect unit (.process x) w := by
  obtain ⟨k, out, hk, rfl⟩ := processRegs_ok_cases h
  exact .process hu hk

theorem effect_dynCfg {sel : BitVec 8} {x : F64} (h : dynCfgRegs sel x u = .ok (w, y)) :
    Effect unit (.dynCfg sel x) w := by
  unfold dynCfgRegs at h
  split at h
  · cases h
  · rename_i hx
    split at h
    · cases h
    · rename_i haccept
      cases h
      exact .dynCfg hu (by simpa using hx) (by simpa using haccept)

theorem effect_dynProc {x : F64} (h : dynProcRegs x u = .ok (w, y)) : Effect unit (.dynProc x) w := by
  unfold dynProcRegs at h
  split at h
  · cases h
  · cases h
    exact .dynProc hu

end OnUnit

/-! ## What a command and a step can do -/

/-- The state after a command: its fault taken, or its effect committed and answered. -/
def CommandOutcome (i : Instr) (s t : State) : Prop :=
  (∃ c, t = raise c s) ∨ ∃ u y, Effect s.unit i u ∧ t = respond 0 y { s with unit := some u }

theorem commandOutcome_of_commit {i : Instr} {s t : State} {r : Except Cause (UnitRegs × BitVec 64)}
    (h : commit r s = .next t) (heffect : ∀ u y, r = .ok (u, y) → Effect s.unit i u) : CommandOutcome i s t := by
  rcases commit_cases h with ⟨u, y, hr, ht⟩ | ⟨c, -, ht⟩
  · cases ht
    exact .inr ⟨u, y, heffect u y hr, rfl⟩
  · cases ht
    exact .inl ⟨c, rfl⟩

theorem commandOutcome_of_onConstructed {i : Instr} {s t : State}
    {run : UnitRegs → Except Cause (UnitRegs × BitVec 64)} (h : onConstructed s run = .next t)
    (heffect : ∀ u, s.unit = some u → ∀ w y, run u = .ok (w, y) → Effect s.unit i w) : CommandOutcome i s t := by
  cases hu : s.unit with
  | none =>
    rw [onConstructed_none hu] at h
    cases h
    exact .inl ⟨_, rfl⟩
  | some u =>
    rw [onConstructed_some hu] at h
    exact commandOutcome_of_commit h (heffect u hu)

/-- Every command takes a fault or commits its effect (R180, R232). -/
theorem exec_cases {i : Instr} {s t : State} (h : exec i s = .next t) : CommandOutcome i s t := by
  cases i with
  | construct v0 sr => exact commandOutcome_of_commit h fun _ _ => effect_construct
  | setVowel v => exact commandOutcome_of_onConstructed h fun _ hu _ _ => effect_setVowel hu
  | getVowel =>
    refine commandOutcome_of_onConstructed h fun u hu w y hr => ?_
    cases hr
    exact .getVowel hu
  | setLfo rp d => exact commandOutcome_of_onConstructed h fun _ hu _ _ => effect_setLfo hu
  | process x => exact commandOutcome_of_onConstructed h fun _ hu _ _ => effect_process hu
  | dynCfg sel x =>
    change execDynCfg sel x s = _ at h
    unfold execDynCfg at h
    split at h
    · exact commandOutcome_of_onConstructed h fun _ hu _ _ => effect_dynCfg hu
    · cases h
      exact .inl ⟨_, rfl⟩
  | dynProc x => exact commandOutcome_of_onConstructed h fun _ hu _ _ => effect_dynProc hu

/-- A step idles, takes a hardware reset, refuses an undecodable word, or runs a command. -/
theorem step_cases {s t : State} (h : step s = .next t) :
    t = s ∨ (∃ rest, s.input = .hardwareReset :: rest ∧ t = hardwareReset { s with input := rest }) ∨
    (∃ rest c, t = raise c { s with input := rest }) ∨ ∃ rest i, CommandOutcome i { s with input := rest } t := by
  unfold step at h
  split at h
  · cases h
    exact .inl rfl
  · rename_i rest hinput
    cases h
    exact .inr (.inl ⟨rest, hinput, rfl⟩)
  · rename_i w rest hinput
    split at h
    · rename_i c hdecode
      cases h
      exact .inr (.inr (.inl ⟨rest, c, rfl⟩))
    · rename_i i hdecode
      exact .inr (.inr (.inr ⟨rest, i, exec_cases h⟩))

/-- A property of the registers is kept by every step when every successful command keeps it. -/
theorem holds_of_step {P : UnitRegs → Prop}
    (hkeeps : ∀ unit i w, (∀ u, unit = some u → P u) → Effect unit i w → P w)
    {s t : State} (hs : s.holds P) (h : step s = .next t) : t.holds P := by
  rcases step_cases h with rfl | ⟨rest, -, rfl⟩ | ⟨rest, c, rfl⟩ | ⟨rest, i, ⟨c, rfl⟩ | ⟨w, y, heffect, rfl⟩⟩
  · exact hs
  · intro u hu
    cases hu
  · exact hs
  · exact hs
  · intro u hu
    cases hu
    exact hkeeps _ i w hs heffect

/-! ## The sticky bits (R22, R232) -/

theorem causeBit_zero (c : Cause) : (causeBit c).getLsbD 0 = false := by cases c <;> decide

theorem setFaultBit_sticky {status : BitVec 8} {b : Nat} (c : Cause) (h : status.getLsbD b = true) :
    (setFaultBit status c).getLsbD b = true := by
  rw [setFaultBit, BitVec.getLsbD_or, h, Bool.true_or]

theorem setFaultBit_zero {status : BitVec 8} (c : Cause) (h : status.getLsbD 0 = false) :
    (setFaultBit status c).getLsbD 0 = false := by
  rw [setFaultBit, BitVec.getLsbD_or, h, causeBit_zero, Bool.or_false]

/-- A step leaves `STATUS.FAULT` alone, clears it by hardware reset, or sets the bit of a cause. -/
theorem statusFault_of_step {s t : State} (h : step s = .next t) :
    t.statusFault = s.statusFault ∨ ((∃ rest, s.input = .hardwareReset :: rest) ∧ t.statusFault = 0#8) ∨
    ∃ c, t.statusFault = setFaultBit s.statusFault c := by
  rcases step_cases h with rfl | ⟨rest, hinput, rfl⟩ | ⟨rest, c, rfl⟩ | ⟨rest, i, ⟨c, rfl⟩ | ⟨w, y, -, rfl⟩⟩
  · exact .inl rfl
  · exact .inr (.inl ⟨⟨rest, hinput⟩, rfl⟩)
  · exact .inr (.inr ⟨c, rfl⟩)
  · exact .inr (.inr ⟨c, rfl⟩)
  · exact .inl rfl

/-- Settles O11: a fault only sets the bit of its cause, which is never bit 0. -/
theorem faultBitsAreSticky : Obligations.FaultBitsAreSticky := by
  unfold Obligations.FaultBitsAreSticky
  intro s t h
  unfold FaultBitsLegal
  rcases statusFault_of_step h with hsame | ⟨⟨rest, hinput⟩, hzero⟩ | ⟨c, hset⟩
  · rw [hsame]
    exact ⟨fun _ _ hb => hb, id⟩
  · rw [hzero]
    exact ⟨fun hno => absurd hinput (hno rest), fun _ => rfl⟩
  · rw [hset]
    exact ⟨fun _ _ => setFaultBit_sticky c, setFaultBit_zero c⟩

/-! ## The state after reset (R40, R261) -/

theorem reset_holds (P : UnitRegs → Prop) : State.reset.holds P := by
  intro u hu
  cases hu

/-- Settles O8: the unit after reset holds no register, so every property of its registers holds. -/
theorem stateAfterReset : Obligations.StateAfterReset := by
  unfold Obligations.StateAfterReset
  exact ⟨rfl, rfl, rfl, fun _ => rfl, rfl, rfl, reset_holds _, reset_holds _, reset_holds _, reset_holds _, reset_holds _⟩

/-! ## The working vowel of PROCESS (R172) -/

theorem workingVowel_lfoOff {p : Params} {u : Regs p.slotCount} (h : u.hasLfo = false) :
    workingVowel p u = u.tempVowel := by
  rw [workingVowel, h]
  rfl

theorem workingVowel_lfoOn {p : Params} {u : Regs p.slotCount} (h : u.hasLfo = true) :
    workingVowel p u = fmin u.lfoMax (fadd u.lfoMin (fmul u.lfoRange (unipolar (p.lfoWave u.lphase)))) := by
  rw [workingVowel, h]
  rfl

/-! ## Which command writes what (R42) -/

/-- Registers with the old table leave every table word alone. -/
theorem tableWord_respond {s : State} {u w : UnitRegs} (hu : s.unit = some u) (htf : w.tf = u.tf) (y : BitVec 64)
    (a : Nat) : (respond 0 y { s with unit := some w }).tableWord a = s.tableWord a := by
  simp only [State.tableWord, respond_unit, hu, Option.map_some, htf]

/-- Settles O50: a fault changes no register, and the effect of each command differs from the old registers only in what
its column of R42 marks. -/
theorem eachCommandWritesOnlyItsRegisters : Obligations.EachCommandWritesOnlyItsRegisters := by
  unfold Obligations.EachCommandWritesOnlyItsRegisters
  intro i s t u u' hu hexec hu'
  rcases exec_cases hexec with ⟨c, rfl⟩ | ⟨w, y, heffect, rfl⟩
  · obtain rfl : u = u' := Option.some.inj (hu.symm.trans hu')
    refine ⟨rfl, .inr fun _ => rfl, ?_⟩
    cases i with
    | construct => trivial
    | process => exact ⟨rfl, fun _ => rfl⟩
    | setVowel | getVowel | setLfo | dynCfg | dynProc => rfl
  · cases hu'
    rw [hu] at heffect
    cases heffect with
    | construct => exact ⟨rfl, .inl ⟨_, _, rfl⟩, trivial⟩
    | process hsome =>
      cases hsome
      exact ⟨rfl, .inr (tableWord_respond hu rfl y), rfl, workingVowel_lfoOff (p := machineParams)⟩
    | setVowel hsome | getVowel hsome | setLfoChanged hsome | setLfoSame hsome | dynCfg hsome | dynProc hsome =>
      cases hsome
      exact ⟨rfl, .inr (tableWord_respond hu rfl y), rfl⟩

end Sys2Proof.Machine

/-! # Proofs: CONSTRUCT, DYNCFG, and the invariants of storage, the vowel, the carrier and the LFO -/

namespace Sys2Proof.Machine

open Sys2Proof.Config

/-! ## Finite values by their sign (R6) -/

theorem isPositive_iff (x : F64) : isPositive x = true ↔ isFinite x = true ∧ 0 < fval x := by
  rw [isPositive, Bool.and_eq_true]
  refine and_congr_right fun hf => ?_
  rw [flt_iff_fval (by decide) (not_isNaN_of_isFinite hf), fval_fzero]

theorem isNonNegative_iff (x : F64) : isNonNegative x = true ↔ isFinite x = true ∧ 0 ≤ fval x := by
  rw [isNonNegative, Bool.and_eq_true]
  refine and_congr_right fun hf => ?_
  rw [fle_iff_fval (by decide) (not_isNaN_of_isFinite hf), fval_fzero]

theorem isFinite_of_isPositive {x : F64} (h : isPositive x = true) : isFinite x = true := ((isPositive_iff x).1 h).1

theorem isFinite_of_isNonNegative {x : F64} (h : isNonNegative x = true) : isFinite x = true :=
  ((isNonNegative_iff x).1 h).1

/-! ## The bounds that `cacheLFO` computes (R27, R160) -/

/-- The one word of `[0, 1]` with the sign bit set is `-0`. -/
theorem fsign_of_inUnit {v : F64} (hv : inUnit v = true) (hne : v ≠ 0x8000000000000000#64) : fsign v = false := by
  obtain ⟨h0, -⟩ := (inUnit_iff v).1 hv
  obtain ⟨-, -, hle⟩ := (fle_iff _ _).1 h0
  have hz : ford fzero = 0 := by decide
  rw [hz, ford] at hle
  cases hs : fsign v with
  | false => rfl
  | true =>
    rw [hs, if_pos rfl] at hle
    have hb : fbits v = 0 := by omega
    have hv0 : withSign (fsign v) (fbits v) = 0x8000000000000000#64 := by rw [hs, hb]; decide
    rw [withSign_eta] at hv0
    exact absurd hv0 hne

/-- The lower bound `max(0, v - r)` is in `[0, 1]` and not above `v`. -/
theorem lowerBound_spec {v r : F64} (hv : inUnit v = true) (hr : inUnit r = true) :
    inUnit (fmax fzero (fsub v r)) = true ∧ fle (fmax fzero (fsub v r)) v = true := by
  have vf := isFinite_of_inUnit hv
  obtain ⟨r0, -⟩ := fval_of_inUnit hr
  obtain ⟨v0, v1⟩ := (inUnit_iff v).1 hv
  have hle : fle (fmax fzero (fsub v r)) v = true :=
    fmax_le v0 (fsub_le vf (isFinite_of_inUnit hr) vf (by omega))
  rw [inUnit_iff]
  exact ⟨⟨le_fmax_left (by decide), fle_trans hle v1⟩, hle⟩

/-- The upper bound `min(1, v + r)` is not below `v`. -/
theorem le_upperBound {v r : F64} (hv : inUnit v = true) (hr : inUnit r = true) :
    fle v (fmin fone (fadd v r)) = true := by
  have vf := isFinite_of_inUnit hv
  obtain ⟨r0, -⟩ := fval_of_inUnit hr
  exact le_fmin ((inUnit_iff v).1 hv).2 (le_fadd vf (isFinite_of_inUnit hr) vf (by omega))

section CacheLfo
variable {S : Nat} {u w : Regs S}

theorem cacheLfo_bounds (hv : inUnit u.vowel = true) (hd : inUnit u.lfoDepth = true) :
    inUnit (cacheLfo u).lfoRange = true ∧ inUnit (cacheLfo u).lfoMin = true ∧ inUnit (cacheLfo u).lfoMax = true ∧
    fle (cacheLfo u).lfoMin u.vowel = true ∧ fle u.vowel (cacheLfo u).lfoMax = true := by
  rw [cacheLfo_lfoRange, cacheLfo_lfoMin, cacheLfo_lfoMax]
  have hdepth : inUnit (if u.hasLfo then u.lfoDepth else fzero) = true := by
    split
    · exact hd
    · decide
  have hrange := inUnit_fmul hv hdepth
  have hhalf := inUnit_half hrange
  obtain ⟨hmin, hle⟩ := lowerBound_spec hv hhalf
  exact ⟨hrange, hmin, inUnit_upperBound hv hhalf, hle, le_upperBound hv hhalf⟩

/-- Without a sweep the range is `+0` and both bounds are the vowel. -/
theorem cacheLfo_collapsed (hv : inUnit u.vowel = true) (hs : fsign u.vowel = false)
    (h : u.hasLfo = false ∨ u.lfoDepth = fzero) :
    (cacheLfo u).lfoRange = fzero ∧ (cacheLfo u).lfoMin = u.vowel ∧ (cacheLfo u).lfoMax = u.vowel := by
  have hf := isFinite_of_inUnit hv
  have hdepth : (if u.hasLfo then u.lfoDepth else fzero) = fzero := by
    rcases h with h | h
    · rw [h]; rfl
    · rw [h, ite_self]
  rw [cacheLfo_lfoRange, cacheLfo_lfoMin, cacheLfo_lfoMax, hdepth, fmul_fzero_right hf hs, fdiv_fzero_ftwo,
    fsub_fzero hf hs, fadd_fzero hf hs, fmin_fone_of_inUnit hv, fmax_fzero_of_inUnit hv hs]
  exact ⟨rfl, rfl, rfl⟩

/-- Cached bounds stay those of the same vowel, depth and enable. -/
theorem cacheLfo_eq_self_congr (h : cacheLfo u = u) (hvowel : w.vowel = u.vowel) (hlfo : w.hasLfo = u.hasLfo)
    (hdepth : w.lfoDepth = u.lfoDepth) (hrange : w.lfoRange = u.lfoRange) (hmin : w.lfoMin = u.lfoMin)
    (hmax : w.lfoMax = u.lfoMax) : cacheLfo w = w := by
  have er := cacheLfo_lfoRange u
  have emin := cacheLfo_lfoMin u
  have emax := cacheLfo_lfoMax u
  rw [h, ← hvowel, ← hlfo, ← hdepth] at er emin emax
  rw [cacheLfo, ← emin, ← emax, ← er, ← hrange, ← hmin, ← hmax]

end CacheLfo

/-- Settles O28: half the range is in `[0, 1]`, so the bounds are on their sides of the vowel; a range of `+0` moves
neither. -/
theorem lfoBounds : Obligations.LfoBounds := by
  unfold Obligations.LfoBounds
  exact ⟨fun S u => cacheLfo_bounds, fun S u hv hne => cacheLfo_collapsed hv (fsign_of_inUnit hv hne)⟩

/-! ## The state after CONSTRUCT (R41) -/

theorem cacheLfo_constructed (p : Params) (v sr : F64) (k : Fin entries) :
    cacheLfo (constructed p v sr k) = constructed p v sr k := cacheLfo_idem _

/-- A new unit has no sweep, so its bounds are its vowel. -/
theorem constructed_bounds (p : Params) {v : F64} (sr : F64) (k : Fin entries) (hv : inUnit v = true)
    (hs : fsign v = false) :
    (constructed p v sr k).lfoRange = fzero ∧ (constructed p v sr k).lfoMin = v ∧
    (constructed p v sr k).lfoMax = v := by
  have h := cacheLfo_collapsed (u := constructed p v sr k) (by simpa using hv) (by simpa using hs) (.inl (by simp))
  rwa [cacheLfo_constructed, constructed_vowel] at h

theorem constructRegs_ok (p : Params) {v0 sr : F32} (hv : isNaN32 v0 = false) (hsr : isNaN32 sr = false)
    (hrate : rateRefused sr = false) :
    ∃ k, selectEntry (controlOperand v0) = .ok k ∧
      constructRegs p v0 sr = .ok (constructed p (controlOperand v0) (widen sr) k, 0#64) := by
  obtain ⟨k, hk⟩ := selectEntry_ok (inUnit_controlOperand v0)
  refine ⟨k, hk, ?_⟩
  rw [constructRegs, hv, hsr, hrate, hk]
  rfl

/-- Settles O18: the registers are those of `constructed`, whose bounds collapse to the vowel. -/
theorem stateAfterConstruct : Obligations.StateAfterConstruct := by
  unfold Obligations.StateAfterConstruct
  intro s v0 sr hv hsr hpos hinf
  have hrate : rateRefused sr = false := by rw [rateRefused, hpos, hinf]; rfl
  obtain ⟨k, hk, hr⟩ := constructRegs_ok machineParams hv hsr hrate
  obtain ⟨hrange, hmin, hmax⟩ :=
    constructed_bounds machineParams (widen sr) k (inUnit_controlOperand v0) (fsign_clamp01 (widen v0))
  have hexec : exec (.construct v0 sr) s = .next
      (respond 0 0#64 { s with unit := some (constructed machineParams (controlOperand v0) (widen sr) k) }) := by
    show commit (constructRegs machineParams v0 sr) s = _
    rw [hr]
    rfl
  refine ⟨_, _, hexec, rfl, rfl, rfl, rfl, rfl, constructed_vowel _ _ _ _, ?_, constructed_hasLfo _ _ _ _,
    constructed_lfoDepth _ _ _ _, hrange, ?_, ?_, constructed_phase _ _ _ _, constructed_srate _ _ _ _, ?_,
    constructed_lphase _ _ _ _, constructed_lrate _ _ _ _, fun sl => ?_, fun sl => ?_,
    fun sl => ⟨coeffAddress sl k, ?_, ?_, ?_⟩, constructed_envs _ _ _ _, constructed_dyn _ _ _ _, fun j i hj hi => ?_⟩
  · rw [constructed_tempVowel, constructed_vowel]
  · rw [hmin, constructed_vowel]
  · rw [hmax, constructed_vowel]
  · rw [constructed_tempVowel, constructed_coeffOffset, hk]
  · rw [constructed_aval, perSlot_get, constructed_coeffOffset]
  · rw [constructed_fval, perSlot_get, constructed_coeffOffset]
  · rw [constructed_coeffOffset]; rfl
  · rw [constructed_aval]; exact perSlot_get _ sl
  · rw [constructed_fval]; exact perSlot_get _ sl
  · rw [constructed_tf]; exact read_buildTable_cell machineParams hj hi

/-! ## DYNCFG (R210) -/

theorem configRefused_eq_false {sel : BitVec 8} {x : F64} (hx : isFinite x = true)
    (hthr : sel = 0#8 → flt fzero x = true) (hmode : sel = 10#8 → feq x fzero = true ∨ feq x fone = true) :
    configRefused sel x = false := by
  unfold configRefused
  rw [not_isInf_of_isFinite hx, Bool.false_or, Bool.or_eq_false_iff]
  constructor
  · by_cases h0 : sel = 0#8
    · rw [hthr h0]; simp
    · simp [h0]
  · by_cases h10 : sel = 10#8
    · rcases hmode h10 with h | h <;> simp [h]
    · simp [h10]

/-- The next state of a DYNCFG of an accepted value. -/
theorem exec_dynCfg {sel : BitVec 8} {x : F64} {s : State} {u : UnitRegs} (hu : s.unit = some u)
    (hsel : sel.toNat ≤ 10) (hx : isNaN x = false) (haccept : configRefused sel x = false) :
    exec (.dynCfg sel x) s = .next
      { s with
        responses := responseWord 0 0#64 :: s.responses, unit := some { u with dyn := setDynReg u.dyn sel x } } := by
  show execDynCfg sel x s = _
  rw [execDynCfg, selectorLegal, decide_eq_true hsel, if_pos rfl, onConstructed_some hu, dynCfgRegs, hx, haccept]
  rfl

/-- Settles O45: an accepted value goes to the register its selector names. -/
theorem dynCfgWritesOneRegister : Obligations.DynCfgWritesOneRegister := by
  unfold Obligations.DynCfgWritesOneRegister
  intro s u sel x hu hsel hx hthr hmode
  have haccept : configRefused sel x = false := configRefused_eq_false hx hthr fun h10 => by
    rcases hmode h10 with rfl | rfl | rfl
    · exact .inl (by decide)
    · exact .inl (by decide)
    · exact .inr (by decide)
  have hone : sel = 10#8 → feq x fone = decide (x = fone) := fun h10 => by
    rcases hmode h10 with rfl | rfl | rfl <;> decide
  refine ⟨_, exec_dynCfg hu hsel (not_isNaN_of_isFinite hx) haccept, ?_, ?_, ?_, ?_, ?_, ?_, ?_, ?_, ?_, ?_,
    fun h10 => by rw [h10, ← hone h10]; rfl⟩
  all_goals rintro rfl; rfl

/-! ## The table, the envelopes and the dynamics registers (R36, R38 (b), R68) -/

theorem flushed_flush (e : F64) : Flushed (flush e) := by
  unfold flush
  split
  · exact .inl rfl
  · rename_i h
    exact .inr (by simpa using h)

/-- `Dyn` ends with the flush of all three envelopes. -/
theorem dyn_envelopes_flushed (c : DynRegs) (e : Envelopes) (x : F64) :
    Flushed (dyn c e x).2.env ∧ Flushed (dyn c e x).2.env2 ∧ Flushed (dyn c e x).2.genv :=
  ⟨flushed_flush _, flushed_flush _, flushed_flush _⟩

theorem dynAccepted_of_dynSafe {c : DynRegs} (h : DynSafe c) : DynAccepted c :=
  ⟨h.thr, isFinite_of_isNonNegative h.rat, isFinite_of_isNonNegative h.trim, isFinite_of_inUnit h.attUnit,
    isFinite_of_inUnit h.rel, isFinite_of_isNonNegative h.lthr, isFinite_of_isNonNegative h.xthr,
    isFinite_of_inUnit h.gatt, isFinite_of_inUnit h.xrat, isFinite_of_isNonNegative h.dry⟩

theorem dynAccepted_setDynReg {c : DynRegs} {sel : BitVec 8} {x : F64} (hc : DynAccepted c) (hx : isFinite x = true)
    (hthr : sel = 0#8 → flt fzero x = true) : DynAccepted (setDynReg c sel x) := by
  have onIf : ∀ {q : Prop} [Decidable q] {a b : DynRegs}, (q → DynAccepted a) → (¬ q → DynAccepted b) →
      DynAccepted (if q then a else b) := iteInduction
  have hpositive : sel = 0#8 → isPositive x = true := fun h0 => by rw [isPositive, hx, hthr h0]; rfl
  have ⟨thr, rat, trim, att, rel, lthr, xthr, gatt, xrat, dry⟩ := hc
  unfold setDynReg
  refine onIf (fun h0 => ⟨hpositive h0, rat, trim, att, rel, lthr, xthr, gatt, xrat, dry⟩) fun _ => ?_
  refine onIf (fun _ => ⟨thr, hx, trim, att, rel, lthr, xthr, gatt, xrat, dry⟩) fun _ => ?_
  refine onIf (fun _ => ⟨thr, rat, hx, att, rel, lthr, xthr, gatt, xrat, dry⟩) fun _ => ?_
  refine onIf (fun _ => ⟨thr, rat, trim, hx, rel, lthr, xthr, gatt, xrat, dry⟩) fun _ => ?_
  refine onIf (fun _ => ⟨thr, rat, trim, att, hx, lthr, xthr, gatt, xrat, dry⟩) fun _ => ?_
  refine onIf (fun _ => ⟨thr, rat, trim, att, rel, hx, xthr, gatt, xrat, dry⟩) fun _ => ?_
  refine onIf (fun _ => ⟨thr, rat, trim, att, rel, lthr, hx, gatt, xrat, dry⟩) fun _ => ?_
  refine onIf (fun _ => ⟨thr, rat, trim, att, rel, lthr, xthr, hx, xrat, dry⟩) fun _ => ?_
  refine onIf (fun _ => ⟨thr, rat, trim, att, rel, lthr, xthr, gatt, hx, dry⟩) fun _ => ?_
  refine onIf (fun _ => ⟨thr, rat, trim, att, rel, lthr, xthr, gatt, xrat, hx⟩) fun _ => ?_
  exact onIf (fun _ => ⟨thr, rat, trim, att, rel, lthr, xthr, gatt, xrat, dry⟩) fun _ => hc

theorem isFinite_of_configRefused {sel : BitVec 8} {x : F64} (hx : isNaN x = false)
    (h : configRefused sel x = false) : isFinite x = true ∧ (sel = 0#8 → flt fzero x = true) := by
  rw [configRefused, Bool.or_eq_false_iff, Bool.or_eq_false_iff] at h
  obtain ⟨⟨hinf, hthr⟩, -⟩ := h
  exact ⟨isFinite_of_not hx hinf, fun h0 => by simpa [h0] using hthr⟩

theorem StorageLegal.congr {S : Nat} {u w : Regs S} (h : StorageLegal u) (htf : w.tf = u.tf) (henvs : w.envs = u.envs)
    (hdyn : w.dyn = u.dyn) : StorageLegal w where
  table := htf.trans h.table
  flushed := by unfold EnvelopesFlushed; rw [henvs]; exact h.flushed
  dynamics := by rw [hdyn]; exact h.dynamics

theorem effect_keeps_storageLegal {unit : Option UnitRegs} {i : Instr} {w : UnitRegs}
    (hu : ∀ u, unit = some u → StorageLegal u) (h : Effect unit i w) : StorageLegal w := by
  cases h with
  | construct =>
    refine ⟨constructed_tf _ _ _ _, ?_, ?_⟩
    · unfold EnvelopesFlushed
      rw [constructed_envs]
      exact ⟨.inl rfl, .inl rfl, .inl rfl⟩
    · rw [constructed_dyn]
      exact dynAccepted_of_dynSafe lawful_machineParams.dynDefault
  | getVowel hsome => exact hu _ hsome
  | setVowel hsome | setLfoChanged hsome | setLfoSame hsome => exact (hu _ hsome).congr rfl rfl rfl
  | process hsome => exact ⟨(hu _ hsome).table, dyn_envelopes_flushed _ _ _, (hu _ hsome).dynamics⟩
  | dynCfg hsome hx haccept =>
    obtain ⟨hfin, hthr⟩ := isFinite_of_configRefused hx haccept
    exact ⟨(hu _ hsome).table, (hu _ hsome).flushed, dynAccepted_setDynReg (hu _ hsome).dynamics hfin hthr⟩
  | dynProc hsome => exact ⟨(hu _ hsome).table, dyn_envelopes_flushed _ _ _, (hu _ hsome).dynamics⟩

/-- Settles O51: only CONSTRUCT writes the table, `Dyn` flushes what it writes, and DYNCFG checks what it writes. -/
theorem stepKeepsStorageLegal : Obligations.StepKeepsStorageLegal := by
  unfold Obligations.StepKeepsStorageLegal
  exact fun s t => holds_of_step fun _ _ _ => effect_keeps_storageLegal

/-! ## The vowel registers (R38 (c) and (e)) -/

theorem HeldByF32.inUnit {x : F64} (h : HeldByF32 x) : inUnit x = true := by
  obtain ⟨a, -, rfl⟩ := h
  exact inUnit_controlOperand a

theorem heldByF32_fzero : HeldByF32 fzero := ⟨0#32, by decide, by decide +kernel⟩

/-- A product with 8 keeps a negative word negative, infinities included. -/
theorem fmul_feight_negative {t : F64} (h : flt t fzero = true) : flt (fmul t feight) fzero = true := by
  obtain ⟨hn, -, -⟩ := (flt_iff t fzero).1 h
  have hneg : fval t < 0 := by rwa [flt_iff_fval hn (by decide), fval_fzero] at h
  cases hinf : isInf t with
  | false =>
    have hf := isFinite_of_not hn hinf
    refine flt_of_fle_of_flt (fmul_le hf (by decide) hf ?_) h
    rw [fval_feight]
    exact Int.mul_le_mul_of_nonpos_left hneg.le (by have := oneUnits_int_pos; omega)
  | true =>
    have hz := not_isZero_of_isInf hinf
    have hs := fsign_of_fle_zero (fle_of_flt h) hz
    have hmul := fmul_inf hn (y := feight) (by decide) (.inl hinf)
    rw [hz, hs, if_neg (by decide)] at hmul
    rw [hmul]
    decide

/-- A word not above 1 that selects an entry is in `[0, 1]`: a negative one raises `TableBounds` (R12, R240). -/
theorem inUnit_of_selectEntry {t : F64} {k : Fin entries} (h1 : fle t fone = true) (hk : selectEntry t = .ok k) :
    inUnit t = true := by
  rw [inUnit_iff]
  refine ⟨fle_of_not_flt (by decide) (isNaN_left_of_fle h1) ?_, h1⟩
  by_contra hneg
  have hmul := fmul_feight_negative (by simpa using hneg)
  have hscale : scale t fone feight = fmul t feight := by
    rw [scale, fdiv_feight_fone, fmin, if_pos (flt_of_flt_of_fle hmul (by decide))]
  obtain ⟨hn, hz, -⟩ := (flt_iff _ _).1 hmul
  rw [flt_iff_fval hn hz, fval_fzero] at hmul
  obtain ⟨n, hnat, -⟩ := bind_eq_ok hk
  rw [hscale, toNatOrBounds_of_outside (.inr hmul)] at hnat
  cases hnat

theorem VowelLegal.congr {S : Nat} {u w : Regs S} (h : VowelLegal u) (hvowel : w.vowel = u.vowel)
    (htemp : w.tempVowel = u.tempVowel) (hlfo : w.hasLfo = u.hasLfo) (hdepth : w.lfoDepth = u.lfoDepth)
    (hrange : w.lfoRange = u.lfoRange) (hmin : w.lfoMin = u.lfoMin) (hmax : w.lfoMax = u.lfoMax)
    (hoffset : w.coeffOffset = u.coeffOffset) : VowelLegal w where
  vowel := hvowel ▸ h.vowel
  depth := hdepth ▸ h.depth
  bounds := cacheLfo_eq_self_congr h.bounds hvowel hlfo hdepth hrange hmin hmax
  working := htemp ▸ h.working
  upper := by rw [hlfo, htemp, hmax]; exact h.upper
  tracks := by rw [hlfo, htemp, hvowel]; exact h.tracks
  offset := by rw [htemp, hoffset]; exact h.offset

section VowelLegal
variable {S : Nat} {u : Regs S}

/-- The cached bounds of legal vowel registers, in order. -/
theorem VowelLegal.order (h : VowelLegal u) : inUnit u.lfoRange = true ∧ inUnit u.lfoMin = true ∧
    inUnit u.lfoMax = true ∧ fle u.lfoMin u.lfoMax = true := by
  obtain ⟨hrange, hmin, hmax, hle, hge⟩ := cacheLfo_bounds h.vowel.inUnit h.depth.inUnit
  rw [h.bounds] at hrange hmin hmax hle hge
  exact ⟨hrange, hmin, hmax, fle_trans hle hge⟩

/-- `cacheLFO` and `retrack` make the vowel registers legal, for a held vowel and depth and the entry selected. -/
theorem vowelLegal_retrack {w : Regs S} {k : Fin entries} (hvowel : HeldByF32 w.vowel) (hdepth : HeldByF32 w.lfoDepth)
    (hk : selectEntry (retrack (cacheLfo w)).tempVowel = .ok k) :
    VowelLegal { retrack (cacheLfo w) with coeffOffset := k } := by
  obtain ⟨-, -, hmax, -, -⟩ := cacheLfo_bounds hvowel.inUnit hdepth.inUnit
  refine ⟨hvowel, hdepth, rfl, ?_, fun hlfo => ?_, fun hlfo => ?_, hk⟩
  · show inUnit (if w.hasLfo then _ else _) = true
    split
    · exact inUnit_between hmax
    · exact hvowel.inUnit
  · have hon : w.hasLfo = true := hlfo
    show fle (if w.hasLfo then _ else _) _ = true
    rw [hon]
    exact fmin_le_left (not_isNaN_of_isFinite (isFinite_of_inUnit hmax))
  · have hoff : w.hasLfo = false := hlfo
    show (if w.hasLfo then _ else _) = _
    rw [hoff]
    rfl

end VowelLegal

/-- The working vowel of PROCESS that selects an entry is in `[0, 1]`, and under `LFOMAX` with the LFO on. -/
theorem inUnit_workingVowel {u : UnitRegs} {k : Fin entries} (h : VowelLegal u)
    (hk : selectEntry (workingVowel machineParams u) = .ok k) :
    inUnit (workingVowel machineParams u) = true ∧
    (u.hasLfo = true → fle (workingVowel machineParams u) u.lfoMax = true) := by
  cases hlfo : u.hasLfo with
  | false =>
    rw [workingVowel_lfoOff (p := machineParams) hlfo]
    exact ⟨h.working, nofun⟩
  | true =>
    obtain ⟨-, -, hmax, -⟩ := h.order
    have hle : fle (workingVowel machineParams u) u.lfoMax = true := by
      rw [workingVowel_lfoOn (p := machineParams) hlfo]
      exact fmin_le_left (not_isNaN_of_isFinite (isFinite_of_inUnit hmax))
    exact ⟨inUnit_of_selectEntry (fle_trans hle ((inUnit_iff _).1 hmax).2) hk, fun _ => hle⟩

theorem vowelLegal_processedRegs {u : UnitRegs} {k : Fin entries} {out : F64} (h : VowelLegal u)
    (hk : selectEntry (workingVowel machineParams u) = .ok k) : VowelLegal (processedRegs machineParams u k out) := by
  obtain ⟨hunit, hupper⟩ := inUnit_workingVowel h hk
  refine ⟨h.vowel, h.depth, cacheLfo_eq_self_congr h.bounds rfl rfl rfl rfl rfl rfl, hunit, hupper, fun hoff => ?_, hk⟩
  calc workingVowel machineParams u = u.tempVowel := workingVowel_lfoOff (p := machineParams) hoff
    _ = u.vowel := h.tracks hoff

theorem vowelLegal_constructed {v0 : F32} (sr : F64) {k : Fin entries} (hv : isNaN32 v0 = false)
    (hk : selectEntry (controlOperand v0) = .ok k) :
    VowelLegal (constructed machineParams (controlOperand v0) sr k) where
  vowel := by rw [constructed_vowel]; exact ⟨v0, hv, rfl⟩
  depth := by rw [constructed_lfoDepth]; exact heldByF32_fzero
  bounds := cacheLfo_constructed _ _ _ _
  working := by rw [constructed_tempVowel]; exact inUnit_controlOperand v0
  upper := by rw [constructed_hasLfo]; exact nofun
  tracks := fun _ => by rw [constructed_tempVowel, constructed_vowel]
  offset := by rw [constructed_tempVowel, constructed_coeffOffset, hk]

/-- With nothing changed, SETLFO leaves the enable as it was (R183). -/
theorem setLfoRate_hasLfo_of_same {rp d : F32} {u : UnitRegs} (hsame : lfoChanged rp d u = false) :
    (setLfoRate machineParams rp u).hasLfo = u.hasLfo := by
  rw [setLfoRate_hasLfo]
  rw [lfoChanged, Bool.or_eq_false_iff] at hsame
  simpa using hsame.1

theorem effect_keeps_vowelLegal {unit : Option UnitRegs} {i : Instr} {w : UnitRegs}
    (hu : ∀ u, unit = some u → VowelLegal u) (h : Effect unit i w) : VowelLegal w := by
  cases h with
  | construct hv _ _ hk => exact vowelLegal_constructed _ hv hk
  | setVowel hsome hv hk => exact vowelLegal_retrack ⟨_, hv, rfl⟩ (hu _ hsome).depth hk
  | getVowel hsome => exact hu _ hsome
  | setLfoChanged hsome hd hk => exact vowelLegal_retrack (hu _ hsome).vowel ⟨_, hd, rfl⟩ hk
  | setLfoSame hsome hsame =>
    exact (hu _ hsome).congr rfl rfl (setLfoRate_hasLfo_of_same hsame) rfl rfl rfl rfl rfl
  | process hsome hk => exact vowelLegal_processedRegs (hu _ hsome) hk
  | dynCfg hsome | dynProc hsome => exact (hu _ hsome).congr rfl rfl rfl rfl rfl rfl rfl rfl

/-- Settles O52: `cacheLFO` and `retrack` establish the vowel registers, and PROCESS clamps the working vowel by `LFOMAX`
from above and, through the selection of an entry, by 0 from below. -/
theorem stepKeepsVowelLegal : Obligations.StepKeepsVowelLegal := by
  unfold Obligations.StepKeepsVowelLegal
  exact fun s t => holds_of_step fun _ _ _ => effect_keeps_vowelLegal

end Sys2Proof.Machine

/-! # Proofs: the carrier phase, the LFO phase and the live frequencies between commands -/

namespace Sys2Proof.Machine

open Sys2Proof.Config

/-! ## Neighbouring words in the order -/

/-- Nothing lies strictly between two neighbouring words, from above. -/
theorem fle_of_flt_next {x y z : F64} (hnext : ford z = ford y + 1) (hy : isNaN y = false) (h : flt x z = true) :
    fle x y = true := by
  obtain ⟨hx, -, hlt⟩ := (flt_iff x z).1 h
  exact (fle_iff x y).2 ⟨hx, hy, by omega⟩

/-- Nothing lies strictly between two neighbouring words, from below. -/
theorem fle_of_next_flt {x y z : F64} (hnext : ford y = ford x + 1) (hy : isNaN y = false) (h : flt x z = true) :
    fle y z = true := by
  obtain ⟨-, hz, hlt⟩ := (flt_iff x z).1 h
  exact (fle_iff y z).2 ⟨hy, hz, by omega⟩

/-! ## The carrier phase (R28, R175, R185) -/

/-- The advance `f0 / (SRATE / 2)` is in `[0, 2]` for `0 <= f0 <= 192` and `SRATE >= 192`. -/
theorem carrierStep_bounds {f0 srate : F64} (h0 : fle fzero f0 = true) (h192 : fle f0 (0x4068000000000000#64) = true)
    (hf : isFinite srate = true) (hs : fle (0x4068000000000000#64) srate = true) :
    isFinite (fdiv f0 (fdiv srate ftwo)) = true ∧ 0 ≤ fval (fdiv f0 (fdiv srate ftwo)) ∧
    fval (fdiv f0 (fdiv srate ftwo)) ≤ fval ftwo := by
  have v192 : fval (0x4068000000000000#64) = 192 * oneUnits := by decide +kernel
  have v96 : fval (0x4058000000000000#64) = 96 * oneUnits := by decide +kernel
  have hpos := oneUnits_int_pos
  have htwo : 0 < fval ftwo := by rw [fval_ftwo]; omega
  have f0f := isFinite_of_between isFinite_fzero (by decide) h0 h192
  have b0 := fval_le_of_fle h0
  have b192 := fval_le_of_fle h192
  have bs := fval_le_of_fle hs
  rw [fval_fzero] at b0
  rw [v192] at b192 bs
  have hlo : fle (0x4058000000000000#64) (fdiv srate ftwo) = true := by
    refine le_fdiv hf isFinite_ftwo htwo (by decide) ?_
    rw [v96, fval_ftwo, show (96 : Int) * oneUnits * (2 * oneUnits) = 192 * oneUnits * oneUnits by ring]
    exact Int.mul_le_mul_of_nonneg_right bs hpos.le
  have hhi : fle (fdiv srate ftwo) srate = true := by
    refine fdiv_le hf isFinite_ftwo htwo hf ?_
    rw [fval_ftwo]
    exact Int.mul_le_mul_of_nonneg_left (by omega) (by omega)
  have half := isFinite_of_between (by decide) hf hlo hhi
  have bhalf := fval_le_of_fle hlo
  rw [v96] at bhalf
  have lo : fle fzero (fdiv f0 (fdiv srate ftwo)) = true := by
    refine le_fdiv f0f half (by omega) isFinite_fzero ?_
    rw [fval_fzero, Int.zero_mul]
    exact Int.mul_nonneg b0 hpos.le
  have hi : fle (fdiv f0 (fdiv srate ftwo)) ftwo = true := by
    refine fdiv_le f0f half (by omega) isFinite_ftwo ?_
    rw [fval_ftwo, Int.mul_comm (fval f0), Int.mul_comm 2, Int.mul_assoc]
    exact Int.mul_le_mul_of_nonneg_left (by omega) hpos.le
  have v0 := fval_le_of_fle lo
  rw [fval_fzero] at v0
  exact ⟨isFinite_of_between isFinite_fzero isFinite_ftwo lo hi, v0, fval_le_of_fle hi⟩

/-- The carrier phase stays in `(-1, 1]`: it moves up by at most 2, and from above 1 down by 2. -/
theorem phaseLegal_nextPhase {f0 srate phase : F64} (h0 : fle fzero f0 = true)
    (h192 : fle f0 (0x4068000000000000#64) = true) (hf : isFinite srate = true)
    (hs : fle (0x4068000000000000#64) srate = true) (hp : PhaseLegal phase) : PhaseLegal (nextPhase f0 srate phase) := by
  obtain ⟨hlo, hhi⟩ := hp
  obtain ⟨sf, s0, s2⟩ := carrierStep_bounds h0 h192 hf hs
  have pf := isFinite_of_between (by decide) isFinite_fone (fle_of_flt hlo) hhi
  have p1 := fval_le_of_fle hhi
  have three : isFinite (0x4008000000000000#64) = true ∧
      fval (0x4008000000000000#64) = fval fone + fval ftwo := by decide +kernel
  have up : fle phase (fadd phase (fdiv f0 (fdiv srate ftwo))) = true := le_fadd pf sf pf (by omega)
  have down : fle (fadd phase (fdiv f0 (fdiv srate ftwo))) (0x4008000000000000#64) = true :=
    fadd_le pf sf three.1 (by omega)
  have mf := isFinite_of_between pf three.1 up down
  unfold nextPhase
  generalize fadd phase (fdiv f0 (fdiv srate ftwo)) = moved at *
  split
  · rename_i hwrap
    have habove := fval_le_of_fle (fle_of_next_flt (y := 0x3FF0000000000001#64) (by decide) (by decide) hwrap)
    have hgap : fval (0x3FF0000000000001#64) - fval ftwo = fval (0xBFEFFFFFFFFFFFFE#64) := by decide +kernel
    have hmax := fval_le_of_fle down
    refine ⟨flt_of_flt_of_fle (y := 0xBFEFFFFFFFFFFFFE#64) (by decide) ?_, ?_⟩
    · exact le_fsub mf isFinite_ftwo (by decide) (by omega)
    · exact fsub_le mf isFinite_ftwo isFinite_fone (by omega)
  · rename_i hstay
    exact ⟨flt_of_flt_of_fle hlo up, fle_of_not_flt (not_isNaN_of_isFinite mf) (by decide) (by simpa using hstay)⟩

/-- A sample rate that CONSTRUCT accepts is finite and above zero (R29). -/
theorem RateAccepted.positive {S : Nat} {u : Regs S} (h : RateAccepted u) : isPositive u.srate = true := by
  obtain ⟨sr, hn, hrate, hsr⟩ := h
  rw [rateRefused, Bool.or_eq_false_iff, Bool.not_eq_false'] at hrate
  obtain ⟨hpos, hinf⟩ := hrate
  rw [hsr, isPositive, hpos, isFinite_of_not (isNaN_widen hn) hinf]
  rfl

theorem rateAccepted_constructed {sr : F32} (v : F64) (k : Fin entries) (hsr : isNaN32 sr = false)
    (hrate : rateRefused sr = false) : RateAccepted (constructed machineParams v (widen sr) k) :=
  ⟨sr, hsr, hrate, constructed_srate _ _ _ _⟩

theorem CarrierLegal.congr {S : Nat} {u w : Regs S} (h : CarrierLegal u) (hvowels : VowelLegal w)
    (hsrate : w.srate = u.srate) (hphase : w.phase = u.phase) : CarrierLegal w where
  vowels := hvowels
  rate := by unfold RateAccepted; rw [hsrate]; exact h.rate
  phase := by rw [hsrate, hphase]; exact h.phase

theorem carrierLegal_processedRegs {u : UnitRegs} {k : Fin entries} {out : F64} (h : CarrierLegal u)
    (hk : selectEntry (workingVowel machineParams u) = .ok k) : CarrierLegal (processedRegs machineParams u k out) where
  vowels := vowelLegal_processedRegs h.vowels hk
  rate := h.rate
  phase hsafe := by
    obtain ⟨hlo, hhi⟩ := carrierFrequencyRange.1 _ (inUnit_workingVowel h.vowels hk).1
    exact phaseLegal_nextPhase (fle_trans (by decide) hlo) hhi (isFinite_of_isPositive h.rate.positive) hsafe
      (h.phase hsafe)

theorem effect_keeps_carrierLegal {unit : Option UnitRegs} {i : Instr} {w : UnitRegs}
    (hu : ∀ u, unit = some u → CarrierLegal u) (h : Effect unit i w) : CarrierLegal w := by
  have hvowels := effect_keeps_vowelLegal (fun u hsome => (hu u hsome).vowels) h
  cases h with
  | construct hv hsr hrate hk =>
    refine ⟨hvowels, rateAccepted_constructed _ _ hsr hrate, fun _ => ?_⟩
    rw [constructed_phase]
    exact ⟨by decide, by decide⟩
  | process hsome hk => exact carrierLegal_processedRegs (hu _ hsome) hk
  | setVowel hsome | getVowel hsome | setLfoChanged hsome | setLfoSame hsome | dynCfg hsome | dynProc hsome =>
    exact (hu _ hsome).congr hvowels rfl rfl

/-- Settles O53: PROCESS alone moves the carrier phase, by a frequency in `[12, 192]` Hz. -/
theorem stepKeepsCarrierLegal : Obligations.StepKeepsCarrierLegal := by
  unfold Obligations.StepKeepsCarrierLegal
  exact fun s t => holds_of_step fun _ _ _ => effect_keeps_carrierLegal

/-! ## The rates of the LFO (R32, R141) -/

/-- The span of the rates is finite and not negative. -/
theorem rateSpan_spec : isFinite (fsub machineParams.maxLfoRate machineParams.minLfoRate) = true ∧
    0 ≤ fval (fsub machineParams.maxLfoRate machineParams.minLfoRate) := by
  obtain ⟨hmin, min0⟩ := (isPositive_iff _).1 lawful_machineParams.minRate
  have hmax := isFinite_of_isPositive lawful_machineParams.maxRate
  have horder := fval_le_of_fle lawful_machineParams.rateOrder
  have lo : fle fzero (fsub machineParams.maxLfoRate machineParams.minLfoRate) = true :=
    le_fsub hmax hmin isFinite_fzero (by rw [fval_fzero]; omega)
  have hi : fle (fsub machineParams.maxLfoRate machineParams.minLfoRate) machineParams.maxLfoRate = true :=
    fsub_le hmax hmin hmax (by omega)
  have v0 := fval_le_of_fle lo
  rw [fval_fzero] at v0
  exact ⟨isFinite_of_between isFinite_fzero hmax lo hi, v0⟩

/-- `rateMap(0) = MIN_LFO_RATE` exactly. -/
theorem rateMap_fzero : rateMap machineParams fzero = machineParams.minLfoRate := by
  obtain ⟨hspan, -⟩ := rateSpan_spec
  obtain ⟨hf, hpos⟩ := (isPositive_iff _).1 lawful_machineParams.minRate
  rw [rateMap, fmul_zero_factor isFinite_fzero hspan (.inl (by decide))]
  exact fadd_exact hf (isFinite_withSign_zero _) hf hpos.ne' (by rw [fval_withSign_zero, Int.add_zero])

/-- A rate that SETLFO can set is not negative; it could still be an infinity. -/
theorem rateMap_nonneg {rp : F64} (hrp : inUnit rp = true) : fle fzero (rateMap machineParams rp) = true := by
  obtain ⟨hspan, span0⟩ := rateSpan_spec
  obtain ⟨rp0, rp1⟩ := fval_of_inUnit hrp
  obtain ⟨hmin, min0⟩ := (isPositive_iff _).1 lawful_machineParams.minRate
  obtain ⟨pf, p0, -⟩ := fmul_between (isFinite_of_inUnit hrp) hspan isFinite_fzero hspan
    (by rw [fval_fzero, Int.zero_mul]; exact Int.mul_nonneg rp0 span0)
    (by rw [Int.mul_comm]; exact Int.mul_le_mul_of_nonneg_left rp1 span0)
  rw [fval_fzero] at p0
  exact le_fadd hmin pf isFinite_fzero (by rw [fval_fzero]; omega)

/-! ## The LFO phase (R31, R145) -/

/-- The quotient of a value that is not negative by a positive sample rate is not negative. -/
theorem fdiv_nonneg {x y : F64} (hx : fle fzero x = true) (hy : isPositive y = true) : fle fzero (fdiv x y) = true := by
  obtain ⟨yf, y0⟩ := (isPositive_iff y).1 hy
  cases hinf : isInf x with
  | false =>
    have hv := fval_le_of_fle hx
    rw [fval_fzero] at hv
    refine le_fdiv (isFinite_of_not (isNaN_right_of_fle hx) hinf) yf y0 isFinite_fzero ?_
    rw [fval_fzero, Int.zero_mul]
    exact Int.mul_nonneg hv oneUnits_int_pos.le
  | true =>
    have hs : fsign x = false := by
      obtain ⟨-, -, -, -, hle, -⟩ := comparisons_of_isInf hinf (y := fzero) (by decide)
      have hne : fzero ≠ x := by rintro rfl; exact absurd hinf (by decide)
      rw [hx] at hle
      simpa [hne] using hle.symm
    have hpos : flt fzero y = true := (flt_iff_fval (by decide) (not_isNaN_of_isFinite yf)).2 (by rwa [fval_fzero])
    rw [fdiv_inf_left hinf yf, hs, fsign_of_flt_fzero hpos]
    decide

/-- `LFO.peek` keeps the phase in `[0, 1)` when it advances by less than one cycle. -/
theorem lfoNextPhase_bounds {lphase lrate srate : F64} (h0 : fle fzero lphase = true) (h1 : flt lphase fone = true)
    (r0 : fle fzero (fdiv lrate srate) = true) (r1 : flt (fdiv lrate srate) fone = true) :
    fle fzero (lfoNextPhase lphase lrate srate) = true ∧ flt (lfoNextPhase lphase lrate srate) fone = true := by
  unfold lfoNextPhase
  generalize fdiv lrate srate = step at *
  have below : ∀ z, flt z fone = true → fle z (0x3FEFFFFFFFFFFFFF#64) = true := fun z =>
    fle_of_flt_next (by decide) (by decide)
  have pf := isFinite_of_between isFinite_fzero (by decide) h0 (below _ h1)
  have rf := isFinite_of_between isFinite_fzero (by decide) r0 (below _ r1)
  have p0 := fval_le_of_fle h0
  have q0 := fval_le_of_fle r0
  have p1 := fval_le_of_fle (below _ h1)
  have q1 := fval_le_of_fle (below _ r1)
  have hdouble : 2 * fval (0x3FEFFFFFFFFFFFFF#64) = fval belowTwo := by decide +kernel
  have hgap : fval belowTwo - fval fone = fval (0x3FEFFFFFFFFFFFFE#64) := by decide +kernel
  have lo : fle fzero (fadd lphase step) = true := le_fadd pf rf isFinite_fzero (by rw [fval_fzero] at *; omega)
  have hi : fle (fadd lphase step) belowTwo = true := fadd_le pf rf (by decide) (by omega)
  have sf := isFinite_of_between isFinite_fzero (by decide) lo hi
  have s1 := fval_le_of_fle hi
  split
  · rename_i hwrap
    have w1 := fval_le_of_fle hwrap
    refine ⟨le_fsub sf isFinite_fone isFinite_fzero (by rw [fval_fzero]; omega), ?_⟩
    exact flt_of_fle_of_flt (fsub_le sf isFinite_fone (w := 0x3FEFFFFFFFFFFFFE#64) (by decide) (by omega)) (by decide)
  · rename_i hstay
    refine ⟨lo, ?_⟩
    by_contra hge
    exact hstay (fle_of_not_flt (by decide) (not_isNaN_of_isFinite sf) (by simpa using hge))

/-! ## The sweep (R38 (c), R144) -/

/-- The rescaled wave is in `[0, 1]`. -/
theorem inUnit_unipolar {v : F64} (h0 : fle (fneg fone) v = true) (h1 : fle v fone = true) :
    inUnit (unipolar v) = true := by
  have vf := isFinite_of_between (by decide) isFinite_fone h0 h1
  have v0 := fval_le_of_fle h0
  have v1 := fval_le_of_fle h1
  have htwo := fval_ftwo
  have hhalf := fval_fhalf
  have hpos := oneUnits_int_pos
  rw [fval_fneg, fval_fone] at v0
  rw [fval_fone] at v1
  obtain ⟨af, a0, a1⟩ := fadd_between vf isFinite_fone isFinite_fzero isFinite_ftwo
    (by rw [fval_fzero, fval_fone]; omega) (by rw [fval_fone]; omega)
  rw [fval_fzero] at a0
  rw [inUnit_iff]
  refine ⟨le_fmul af isFinite_fhalf isFinite_fzero ?_, fmul_le af isFinite_fhalf isFinite_fone ?_⟩
  · rw [fval_fzero, Int.zero_mul]
    exact Int.mul_nonneg a0 (by omega)
  · calc fval (fadd v fone) * fval fhalf ≤ 2 * oneUnits * fval fhalf :=
          Int.mul_le_mul_of_nonneg_right (by omega) (by omega)
      _ = fval fone * oneUnits := by rw [fval_fone, ← hhalf]; ring

/-- With the LFO phase in `[0, 1)` the swept working vowel is not below `LFOMIN`. -/
theorem lfoMin_le_workingVowel {u : UnitRegs} (h : VowelLegal u) (hlfo : u.hasLfo = true)
    (h0 : fle fzero u.lphase = true) (h1 : flt u.lphase fone = true) :
    fle u.lfoMin (workingVowel machineParams u) = true := by
  obtain ⟨hrange, hmin, -, horder⟩ := h.order
  obtain ⟨w0, w1⟩ := lawful_machineParams.wave u.lphase h0 h1
  have hsweep := inUnit_fmul hrange (inUnit_unipolar w0 w1)
  have hmf := isFinite_of_inUnit hmin
  rw [workingVowel_lfoOn (p := machineParams) hlfo]
  exact le_fmin horder (le_fadd hmf (isFinite_of_inUnit hsweep) hmf (by have := fval_of_inUnit hsweep; omega))

/-- A working vowel that `retrack` has moved between legal bounds is not below `LFOMIN`. -/
theorem lfoMin_le_retracked {S : Nat} {w : Regs S} (h : VowelLegal w) (hlfo : w.hasLfo = true)
    (hretrack : ∃ x, w.tempVowel = if w.hasLfo then fmin w.lfoMax (fmax w.lfoMin x) else w.vowel) :
    fle w.lfoMin w.tempVowel = true := by
  obtain ⟨x, htemp⟩ := hretrack
  obtain ⟨-, hmin, -, horder⟩ := h.order
  rw [htemp, hlfo, if_pos rfl]
  exact le_fmin horder (le_fmax_left (not_isNaN_of_isFinite (isFinite_of_inUnit hmin)))

theorem SweepLegal.congr {S : Nat} {u w : Regs S} (h : SweepLegal u) (hvowels : VowelLegal w)
    (hsrate : w.srate = u.srate) (hlrate : w.lrate = u.lrate) (hlphase : w.lphase = u.lphase)
    (hlfo : w.hasLfo = u.hasLfo) (hmin : w.lfoMin = u.lfoMin) (htemp : w.tempVowel = u.tempVowel) : SweepLegal w where
  vowels := hvowels
  rate := by unfold RateAccepted; rw [hsrate]; exact h.rate
  mapped := by unfold LfoRateMapped; rw [hlrate]; exact h.mapped
  phase := by rw [hsrate, hlphase]; exact h.phase
  lower := by rw [hsrate, hlfo, hmin, htemp]; exact h.lower

theorem sweepLegal_processedRegs {u : UnitRegs} {k : Fin entries} {out : F64} (h : SweepLegal u)
    (hk : selectEntry (workingVowel machineParams u) = .ok k) : SweepLegal (processedRegs machineParams u k out) where
  vowels := vowelLegal_processedRegs h.vowels hk
  rate := h.rate
  mapped := h.mapped
  phase hsafe := by
    obtain ⟨rp, hrp, hlrate⟩ := h.mapped
    obtain ⟨h0, h1⟩ := h.phase hsafe
    show fle fzero (lfoNextPhase u.lphase u.lrate u.srate) = true ∧ flt (lfoNextPhase u.lphase u.lrate u.srate) fone = true
    rw [hlrate]
    exact lfoNextPhase_bounds h0 h1 (fdiv_nonneg (rateMap_nonneg hrp) h.rate.positive) (hsafe rp hrp)
  lower hsafe hlfo := by
    obtain ⟨h0, h1⟩ := h.phase hsafe
    show fle u.lfoMin (workingVowel machineParams u) = true
    exact lfoMin_le_workingVowel h.vowels hlfo h0 h1

theorem effect_keeps_sweepLegal {unit : Option UnitRegs} {i : Instr} {w : UnitRegs}
    (hu : ∀ u, unit = some u → SweepLegal u) (h : Effect unit i w) : SweepLegal w := by
  have hvowels := effect_keeps_vowelLegal (fun u hsome => (hu u hsome).vowels) h
  cases h with
  | construct hv hsr hrate hk =>
    refine ⟨hvowels, rateAccepted_constructed _ _ hsr hrate, ⟨fzero, by decide, ?_⟩, fun _ => ?_, fun _ => ?_⟩
    · rw [constructed_lrate, rateMap_fzero]
    · rw [constructed_lphase]
      exact ⟨by decide, by decide⟩
    · rw [constructed_hasLfo]
      exact nofun
  | setVowel hsome =>
    obtain ⟨-, rate, mapped, phase, -⟩ := hu _ hsome
    exact ⟨hvowels, rate, mapped, phase, fun _ hlfo => lfoMin_le_retracked hvowels hlfo ⟨_, rfl⟩⟩
  | setLfoChanged hsome =>
    obtain ⟨-, rate, -, phase, -⟩ := hu _ hsome
    exact ⟨hvowels, rate, ⟨_, inUnit_controlOperand _, rfl⟩, phase,
      fun _ hlfo => lfoMin_le_retracked hvowels hlfo ⟨_, rfl⟩⟩
  | setLfoSame hsome hsame =>
    obtain ⟨-, rate, -, phase, lower⟩ := hu _ hsome
    refine ⟨hvowels, rate, ⟨_, inUnit_controlOperand _, rfl⟩, phase, ?_⟩
    rw [setLfoRate_hasLfo_of_same hsame]
    exact lower
  | process hsome hk => exact sweepLegal_processedRegs (hu _ hsome) hk
  | getVowel hsome | dynCfg hsome | dynProc hsome => exact (hu _ hsome).congr hvowels rfl rfl rfl rfl rfl rfl

/-- Settles O54: under the condition of R266 the phase advances by less than one cycle, so the wave stays in `[-1, 1]` and
the sweep above `LFOMIN`. -/
theorem stepKeepsSweepLegal : Obligations.StepKeepsSweepLegal := by
  unfold Obligations.StepKeepsSweepLegal
  exact fun s t => holds_of_step fun _ _ _ => effect_keeps_sweepLegal

/-! ## Rounded results are at most twice the exact ones -/

/-- A finite rounded value is no further from the exact one than zero is. -/
theorem CorrectlyRounded.near_zero {r : F64} {n : Int} {d : Nat} (h : CorrectlyRounded r n d)
    (hf : isFinite r = true) : |fval r * d - n| ≤ |n| := by
  obtain ⟨-, hnear, -⟩ := h
  have := (hnear hf fzero isFinite_fzero).1
  rwa [fval_fzero, Int.zero_mul, zero_sub, abs_neg] at this

/-- A rounded value is between zero and twice the exact one. -/
theorem CorrectlyRounded.le_double {r : F64} {n : Int} {d : Nat} (h : CorrectlyRounded r n d)
    (hf : isFinite r = true) :
    (0 ≤ n → 0 ≤ fval r * d ∧ fval r * d ≤ 2 * n) ∧ (n ≤ 0 → 2 * n ≤ fval r * d ∧ fval r * d ≤ 0) := by
  have hnear := h.near_zero hf
  rw [Int.abs_eq_natAbs, Int.abs_eq_natAbs] at hnear
  omega

/-! ## Smoothing (R153, R154) -/

/-- A product with a factor in `[0, 1]` is finite. -/
theorem isFinite_fmul_inUnit {a d : F64} (ha : inUnit a = true) (hd : isFinite d = true) : isFinite (fmul a d) = true := by
  have af := isFinite_of_inUnit ha
  obtain ⟨a0, a1⟩ := fval_of_inUnit ha
  have habs := fval_fabs d
  have hmag := natAbs_fval d
  obtain ⟨hlo, hhi⟩ := mul_between (a := fval d) (u := fmag d) (by omega) (by omega) a0 a1
  rw [Int.mul_comm (fval d)] at hlo hhi
  refine (fmul_between (lo := fneg (fabs d)) (hi := fabs d) af hd (by simpa using hd) (by simpa using hd) ?_ ?_).1
  · rw [fval_fneg, habs, Int.neg_mul, Int.mul_comm (fmag d : Int)]
    exact hlo
  · rw [habs, Int.mul_comm (fmag d : Int)]
    exact hhi

/-- The move of a smoothing, `ATTEN` times the rounded difference, does not exceed the exact difference: with `ATTEN` at
most a quarter the two roundings, each at most a doubling, fit. -/
theorem smoothingMove_bounds {a v t : F64} (ha : inUnit a = true) (hquarter : 4 * fval a ≤ oneUnits)
    (hd : CorrectlyRounded (fsub t v) (fval t - fval v) 1) (hdf : isFinite (fsub t v) = true) :
    (fval v ≤ fval t → 0 ≤ fval (fmul a (fsub t v)) ∧ fval (fmul a (fsub t v)) ≤ fval t - fval v) ∧
    (fval t ≤ fval v → fval t - fval v ≤ fval (fmul a (fsub t v)) ∧ fval (fmul a (fsub t v)) ≤ 0) := by
  obtain ⟨dup, ddown⟩ := hd.le_double hdf
  obtain ⟨mup, mdown⟩ := (correctlyRounded_fmul (isFinite_of_inUnit ha) hdf).le_double (isFinite_fmul_inUnit ha hdf)
  obtain ⟨a0, -⟩ := fval_of_inUnit ha
  have hpos := oneUnits_int_pos
  generalize fval (fmul a (fsub t v)) = m at *
  generalize fval (fsub t v) = d at *
  generalize fval a = A at *
  generalize fval t = T at *
  generalize fval v = V at *
  generalize (oneUnits : Int) = U at *
  simp only [Nat.cast_one, Int.mul_one] at dup ddown
  constructor
  · intro hle
    obtain ⟨d0, d2⟩ := dup (by omega)
    obtain ⟨m0, m2⟩ := mup (Int.mul_nonneg a0 d0)
    refine ⟨nonneg_of_mul_nonneg_left m0 hpos, le_of_mul_le_mul_right ?_ hpos⟩
    calc m * U ≤ 2 * (A * d) := m2
      _ ≤ 2 * (A * (2 * (T - V))) := by have := Int.mul_le_mul_of_nonneg_left d2 a0; omega
      _ = (T - V) * (4 * A) := by ring
      _ ≤ (T - V) * U := Int.mul_le_mul_of_nonneg_left hquarter (by omega)
  · intro hle
    obtain ⟨d0, d2⟩ := ddown (by omega)
    obtain ⟨m0, m2⟩ := mdown (mul_nonpos_of_nonneg_of_nonpos a0 d2)
    refine ⟨le_of_mul_le_mul_right ?_ hpos, nonpos_of_mul_nonpos_left m2 hpos⟩
    calc (T - V) * U ≤ (T - V) * (4 * A) := Int.mul_le_mul_of_nonpos_left (by omega) hquarter
      _ = 2 * (A * (2 * (T - V))) := by ring
      _ ≤ 2 * (A * d) := by have := Int.mul_le_mul_of_nonneg_left d0 a0; omega
      _ ≤ m * U := m0

/-- A live value moved toward its target lies between the two. -/
theorem smoothed_between {v t : F64} (hv : isFinite v = true) (ht : isFinite t = true)
    (hdf : isFinite (fsub t v) = true) :
    (fval v ≤ fval t → fle v (smoothed machineParams v t) = true ∧ fle (smoothed machineParams v t) t = true) ∧
    (fval t ≤ fval v → fle t (smoothed machineParams v t) = true ∧ fle (smoothed machineParams v t) v = true) := by
  have hatten : inUnit machineParams.atten = true ∧ 4 * fval machineParams.atten ≤ oneUnits := by decide +kernel
  obtain ⟨ha, hquarter⟩ := hatten
  have mf := isFinite_fmul_inUnit ha hdf
  obtain ⟨hup, hdown⟩ := smoothingMove_bounds ha hquarter (correctlyRounded_fsub ht hv) hdf
  constructor
  · intro hle
    obtain ⟨m0, m1⟩ := hup hle
    exact ⟨le_fadd hv mf hv (by omega), fadd_le hv mf ht (by omega)⟩
  · intro hle
    obtain ⟨m0, m1⟩ := hdown hle
    exact ⟨le_fadd hv mf ht (by omega), fadd_le hv mf hv (by omega)⟩

/-! ## The live frequencies (R34) -/

theorem isPositive_of_between {x lo hi : F64} (hlo : isPositive lo = true) (hhi : isFinite hi = true)
    (h1 : fle lo x = true) (h2 : fle x hi = true) : isPositive x = true := by
  obtain ⟨lf, l0⟩ := (isPositive_iff lo).1 hlo
  exact (isPositive_iff x).2 ⟨isFinite_of_between lf hhi h1 h2, l0.trans_le (fval_le_of_fle h1)⟩

/-- The difference of two positive words is finite. -/
theorem isFinite_fsub_of_positive {v t : F64} (hv : isPositive v = true) (ht : isPositive t = true) :
    isFinite (fsub t v) = true := by
  obtain ⟨vf, v0⟩ := (isPositive_iff v).1 hv
  obtain ⟨tf, t0⟩ := (isPositive_iff t).1 ht
  exact isFinite_of_between (lo := fneg v) (by simpa using vf) tf
    (le_fsub tf vf (by simpa using vf) (by rw [fval_fneg]; omega)) (fsub_le tf vf tf (by omega))

/-- Smoothing a positive value toward a positive target gives a positive value. -/
theorem isPositive_smoothed {v t : F64} (hv : isPositive v = true) (ht : isPositive t = true) :
    isPositive (smoothed machineParams v t) = true := by
  have vf := isFinite_of_isPositive hv
  have tf := isFinite_of_isPositive ht
  obtain ⟨hup, hdown⟩ := smoothed_between vf tf (isFinite_fsub_of_positive hv ht)
  rcases le_total (fval v) (fval t) with hle | hle
  · obtain ⟨h1, h2⟩ := hup hle
    exact isPositive_of_between hv tf h1 h2
  · obtain ⟨h1, h2⟩ := hdown hle
    exact isPositive_of_between ht vf h1 h2

theorem effect_keeps_liveFrequenciesPositive {unit : Option UnitRegs} {i : Instr} {w : UnitRegs}
    (hu : ∀ u, unit = some u → LiveFrequenciesPositive u) (h : Effect unit i w) : LiveFrequenciesPositive w := by
  cases h with
  | construct =>
    intro s
    rw [constructed_fval, perSlot_get]
    exact lawful_machineParams.freq _
  | process hsome =>
    intro s
    show isPositive ((perSlot _).get s) = true
    rw [perSlot_get]
    exact isPositive_smoothed (hu _ hsome s) (lawful_machineParams.freq _)
  | setVowel hsome | getVowel hsome | setLfoChanged hsome | setLfoSame hsome | dynCfg hsome | dynProc hsome =>
    have hold := hu _ hsome
    exact hold

/-- Settles O55: CONSTRUCT loads positive targets, and PROCESS moves each live frequency to between its old value and a
positive target. -/
theorem stepKeepsLiveFrequenciesPositive : Obligations.StepKeepsLiveFrequenciesPositive := by
  unfold Obligations.StepKeepsLiveFrequenciesPositive
  exact fun s t => holds_of_step fun _ _ _ => effect_keeps_liveFrequenciesPositive

end Sys2Proof.Machine

/-! # Proofs: the envelopes of the Dynamics Processor (R35, R201 to R208) -/

namespace Sys2Proof.Machine

open Sys2Proof.Config

/-! ## Rounded sums that are not negative -/

/-- A positive sum is the rounding of its exact value. -/
theorem fadd_of_pos {x y : F64} (hx : isFinite x = true) (hy : isFinite y = true) (h : 0 < fval x + fval y) :
    fadd x y = ofUnits false (fval x + fval y).toNat 1 := by
  rw [fadd_of_finite hx hy, if_neg h.ne', decide_eq_false h.not_gt]
  congr 1
  omega

theorem fval_ofUnits_of_isFinite {n d : Nat} (h : isFinite (ofUnits false n d) = true) :
    fval (ofUnits false n d) = magOfBits 52 (roundRaw 52 n d) := by
  rw [fval_eq_signed, fsign_ofUnits, fmag, fbits_ofUnits_of_isFinite h]
  rfl

/-- The magnitude bits of a sum are at most those that a bound of the exact sum rounds to. -/
theorem fbits_fadd_le_roundRaw {x y : F64} {n : Nat} (hx : isFinite x = true) (hy : isFinite y = true)
    (h0 : 0 ≤ fval x + fval y) (h : fval x + fval y ≤ n) : fbits (fadd x y) ≤ roundRaw 52 n 1 := by
  rcases h0.eq_or_lt with hzero | hpos
  · rw [fadd_zero_sum hx hy hzero.symm, fbits_withSign _ (by decide)]
    exact Nat.zero_le _
  · rw [fadd_of_pos hx hy hpos, fbits_ofUnits, roundBits_eq]
    exact (Nat.min_le_left _ _).trans (roundRaw_mono_num (by omega))

/-- A difference of values `0 <= lo <= hi` exceeds the exact one by at most half a unit in the last place of `hi`. -/
theorem fsub_le_half_ulp {lo hi : F64} (hlo : isFinite lo = true) (hhi : isFinite hi = true) (h0 : 0 ≤ fval lo)
    (hle : fval lo ≤ fval hi) (hf : isFinite (fsub hi lo) = true) :
    2 * fval (fsub hi lo) ≤ 2 * (fval hi - fval lo) + ((2 ^ roundScale 52 (fmag hi) 1 : Nat) : Int) := by
  have hneg : isFinite (fneg lo) = true := by simpa using hlo
  have hsum : fval hi + fval (fneg lo) = fval hi - fval lo := by rw [fval_fneg]; rfl
  unfold fsub at hf ⊢
  rcases (sub_nonneg.2 hle).eq_or_lt with hzero | hpos
  · have hulp := Int.natCast_nonneg (2 ^ roundScale 52 (fmag hi) 1)
    rw [fadd_zero_sum hhi hneg (hsum.trans hzero.symm), fval_withSign_zero]
    omega
  · rw [fadd_of_pos hhi hneg (hsum ▸ hpos), hsum] at hf ⊢
    have hmag := natAbs_fval hi
    have hscale : roundScale 52 (fval hi - fval lo).toNat 1 ≤ roundScale 52 (fmag hi) 1 :=
      Nat.sub_le_sub_right (log2_mono (Nat.div_le_div_right (by omega))) 52
    have hulp := Nat.pow_le_pow_right (show 0 < 2 by decide) hscale
    obtain ⟨-, hnear⟩ := roundRaw_near 52 (fval hi - fval lo).toNat 1 one_pos
    rw [fval_ofUnits_of_isFinite hf]
    omega

/-! ## One-pole motion toward a higher value (R201, R206) -/

/-- The motion `lo + a * (hi - lo)` that stages E and X share. -/
def approach (a lo hi : F64) : F64 := fadd lo (fmul a (fsub hi lo))

theorem stageE_eq (c : DynRegs) (i env : F64) :
    stageE c i env = if flt env i then approach c.att env i else fmul env (fsub fone c.rel) := rfl

theorem stageX_eq (c : DynRegs) (env genv : F64) :
    stageX c env genv = if flt c.xthr env then approach c.gatt genv fone else fmul genv c.xrat := rfl

section Approach
variable {a lo hi : F64}

/-- The difference and the move are finite, and the move is between zero and the difference. -/
theorem approachMove_bounds (ha : inUnit a = true) (hlo : isFinite lo = true) (hhi : isFinite hi = true)
    (h0 : 0 ≤ fval lo) (hle : fval lo ≤ fval hi) :
    isFinite (fsub hi lo) = true ∧ isFinite (fmul a (fsub hi lo)) = true ∧ 0 ≤ fval (fmul a (fsub hi lo)) ∧
    fval (fmul a (fsub hi lo)) ≤ fval (fsub hi lo) := by
  obtain ⟨a0, a1⟩ := fval_of_inUnit ha
  have lower : fle fzero (fsub hi lo) = true := le_fsub hhi hlo isFinite_fzero (by rw [fval_fzero]; omega)
  have df := isFinite_of_between isFinite_fzero hhi lower (fsub_le hhi hlo hhi (by omega))
  have d0 := fval_le_of_fle lower
  rw [fval_fzero] at d0
  obtain ⟨mf, m0, m1⟩ := fmul_between (lo := fzero) (hi := fsub hi lo) (isFinite_of_inUnit ha) df isFinite_fzero df
    (by rw [fval_fzero, Int.zero_mul]; exact Int.mul_nonneg a0 d0)
    (by rw [Int.mul_comm]; exact Int.mul_le_mul_of_nonneg_left a1 d0)
  rw [fval_fzero] at m0
  exact ⟨df, mf, m0, m1⟩

/-- The motion never goes down. -/
theorem le_approach (ha : inUnit a = true) (hlo : isFinite lo = true) (hhi : isFinite hi = true) (h0 : 0 ≤ fval lo)
    (hle : fval lo ≤ fval hi) : fle lo (approach a lo hi) = true := by
  obtain ⟨-, mf, m0, -⟩ := approachMove_bounds ha hlo hhi h0 hle
  exact le_fadd hlo mf hlo (by omega)

/-- The bits of the motion are at most those of a bound half a unit in the last place above `hi`, rounded. -/
theorem fbits_approach_le {n : Nat} (ha : inUnit a = true) (hlo : isFinite lo = true) (hhi : isFinite hi = true)
    (h0 : 0 ≤ fval lo) (hle : fval lo ≤ fval hi) (hn : 2 * fmag hi + 2 ^ roundScale 52 (fmag hi) 1 ≤ 2 * n) :
    fbits (approach a lo hi) ≤ roundRaw 52 n 1 := by
  obtain ⟨df, mf, m0, m1⟩ := approachMove_bounds ha hlo hhi h0 hle
  have hnear := fsub_le_half_ulp hlo hhi h0 hle df
  have hmag := natAbs_fval hi
  generalize 2 ^ roundScale 52 (fmag hi) 1 = ulp at hn hnear
  exact fbits_fadd_le_roundRaw hlo mf (by omega) (by omega)

/-- The motion passes `hi` by one word at most: half a unit in the last place above `hi` is below the next word. -/
theorem fbits_approach_le_succ (ha : inUnit a = true) (hlo : isFinite lo = true) (hhi : isFinite hi = true)
    (h0 : 0 ≤ fval lo) (hle : fval lo ≤ fval hi) : fbits (approach a lo hi) ≤ fbits hi + 1 := by
  have hgap := magOfBits_roundRaw_succ 52 (magOfBits 52 (fbits hi) * 1) 1
  rw [roundRaw_exact 52 _ one_pos, Nat.mul_one] at hgap
  have hexact := roundRaw_exact 52 (fbits hi + 1) one_pos
  rw [Nat.mul_one] at hexact
  rw [← hexact]
  refine fbits_approach_le ha hlo hhi h0 hle ?_
  unfold fmag
  generalize 2 ^ roundScale 52 (magOfBits 52 (fbits hi)) 1 = ulp at *
  omega

/-- The motion toward 1 does not pass 1, whose last bit is even: the midpoint above it rounds to 1. -/
theorem approach_fone_le (ha : inUnit a = true) (hlo : inUnit lo = true) :
    fle fzero (approach a lo fone) = true ∧ fle (approach a lo fone) fone = true := by
  have lf := isFinite_of_inUnit hlo
  obtain ⟨l0, l1⟩ := fval_of_inUnit hlo
  rw [← fval_fone] at l1
  have htie : ∃ half : Nat, 2 ^ roundScale 52 (fmag fone) 1 = 2 * half ∧
      roundRaw 52 (fmag fone + half) 1 = fbits fone := ⟨2 ^ 1021, by decide +kernel, by decide +kernel⟩
  obtain ⟨half, hulp, hround⟩ := htie
  have hbits := fbits_approach_le (n := fmag fone + half) ha lf isFinite_fone l0 l1 (by omega)
  rw [hround] at hbits
  have lower := fle_trans ((inUnit_iff lo).1 hlo).1 (le_approach ha lf isFinite_fone l0 l1)
  have hone : ford fone = fbits fone := by decide
  refine ⟨lower, (fle_iff _ _).2 ⟨isNaN_right_of_fle lower, by decide, ?_⟩⟩
  rw [hone, ford]
  split <;> omega

end Approach

/-! ## An attack below 1 (R201) -/

/-- A value at least one part in 2^53 below a magnitude above `2^52` rounds below it: such a magnitude is more than
`2^52` units in its last place. -/
theorem roundRaw_lt_of_le {n d b : Nat} (hd : 0 < d) (hb : 2 ^ 52 < b)
    (h : 2 ^ 53 * n + magOfBits 52 b * d ≤ 2 ^ 53 * (magOfBits 52 b * d)) : roundRaw 52 n d < b := by
  obtain ⟨c, rfl⟩ : ∃ c, b = c + 1 := ⟨b - 1, by omega⟩
  by_contra hge
  have hnear := (roundRaw_nearest (n := n) (show 0 < 52 by decide) hd c).1
  have hmono := Nat.mul_le_mul_right d (magOfBits_le_iff (p := 52) |>.2 (not_lt.1 hge))
  have hnormal : c / 2 ^ 52 ≠ 0 := by omega
  have hbelow : 2 ^ 52 * 2 ^ (c / 2 ^ 52 - 1) ≤ magOfBits 52 c := by
    rw [magOfBits, if_neg hnormal]
    exact Nat.mul_le_mul_right _ (Nat.le_add_right _ _)
  have hulp : 0 < 2 ^ (c / 2 ^ 52 - 1) := Nat.two_pow_pos _
  rw [magOfBits_succ, Nat.add_mul] at h hmono
  have hgap := Nat.mul_pos hulp hd
  have hbelow := Nat.mul_le_mul_right d hbelow
  rw [Nat.mul_assoc] at hbelow
  rw [Int.abs_eq_natAbs, Int.abs_eq_natAbs, ← Int.natCast_mul, ← Int.natCast_mul] at hnear
  generalize 2 ^ (c / 2 ^ 52 - 1) * d = gap at *
  generalize magOfBits 52 c * d = below at *
  generalize magOfBits 52 (roundRaw 52 n d) * d = rounded at *
  omega

section Attack
variable {a lo hi : F64}

/-- A difference with the bits of a subnormal, or of the least normal word, is exact. -/
theorem fsub_exact_of_small (hlo : isFinite lo = true) (hhi : isFinite hi = true) (hle : fval lo ≤ fval hi)
    (hsmall : fbits (fsub hi lo) ≤ 2 ^ 52) : fval (fsub hi lo) = fval hi - fval lo := by
  have hnext : isFinite (0x0010000000000001#64) = true ∧ fval (0x0010000000000001#64) = 2 ^ 52 + 1 := by decide
  obtain ⟨nf, nv⟩ := hnext
  have hbound : fval hi - fval lo ≤ 2 ^ 52 := by
    by_contra hlt
    obtain ⟨-, -, hord⟩ := (fle_iff _ _).1 (le_fsub hhi hlo nf (by rw [nv]; omega))
    have hord0 : ford (0x0010000000000001#64) = 2 ^ 52 + 1 := by decide
    rw [hord0, ford] at hord
    split at hord <;> omega
  have hsum : fval hi + fval (fneg lo) = fval hi - fval lo := by rw [fval_fneg]; rfl
  have hexact := (fadd_dyadic (m := fval hi - fval lo) (e := 0) hhi (y := fneg lo) (by simpa using hlo) (by omega)
    (by decide) (by rw [hsum]; simp)).2
  rwa [hsum] at hexact

/-- With a coefficient below 1 the move does not exceed the exact difference: either it is below the rounded difference,
which is the nearest word to the exact one, or that difference is small enough to be exact. -/
theorem approachMove_le (ha : inUnit a = true) (hlt : flt a fone = true)
    (hlo : isFinite lo = true) (hhi : isFinite hi = true) (h0 : 0 ≤ fval lo) (hle : fval lo ≤ fval hi) :
    fval (fmul a (fsub hi lo)) ≤ fval hi - fval lo := by
  obtain ⟨df, mf, m0, m1⟩ := approachMove_bounds ha hlo hhi h0 hle
  rcases m1.eq_or_lt with hsame | hbelow
  · rw [hsame]
    refine (fsub_exact_of_small hlo hhi hle ?_).le
    by_contra hbig
    have af := isFinite_of_inUnit ha
    obtain ⟨a0, -⟩ := fval_of_inUnit ha
    have ha1 := fval_le_of_fle (fle_of_flt_next (y := 0x3FEFFFFFFFFFFFFF#64) (by decide) (by decide) hlt)
    have hbelowOne : 2 ^ 53 * fval (0x3FEFFFFFFFFFFFFF#64) + oneUnits = 2 ^ 53 * oneUnits := by decide +kernel
    have hmagA := natAbs_fval a
    have hcoeff : 2 ^ 53 * fmag a + oneUnits ≤ 2 ^ 53 * oneUnits := by omega
    have hround : roundRaw 52 (fmag a * fmag (fsub hi lo)) oneUnits < fbits (fsub hi lo) := by
      refine roundRaw_lt_of_le oneUnits_pos (not_le.1 hbig) ?_
      show 2 ^ 53 * (fmag a * fmag (fsub hi lo)) + fmag (fsub hi lo) * oneUnits ≤
        2 ^ 53 * (fmag (fsub hi lo) * oneUnits)
      have := Nat.mul_le_mul_left (fmag (fsub hi lo)) hcoeff
      rw [Nat.mul_add] at this
      calc 2 ^ 53 * (fmag a * fmag (fsub hi lo)) + fmag (fsub hi lo) * oneUnits
          = fmag (fsub hi lo) * (2 ^ 53 * fmag a) + fmag (fsub hi lo) * oneUnits := by ring
        _ ≤ fmag (fsub hi lo) * (2 ^ 53 * oneUnits) := this
        _ = 2 ^ 53 * (fmag (fsub hi lo) * oneUnits) := by ring
    have hbits : fbits (fmul a (fsub hi lo)) < fbits (fsub hi lo) := by
      rw [fmul_of_finite af df, fbits_ofUnits, roundBits_eq]
      exact (Nat.min_le_left _ _).trans_lt hround
    have hmag := fmag_lt_iff.2 hbits
    rw [← natAbs_fval, ← natAbs_fval, hsame] at hmag
    omega
  · by_contra hover
    obtain ⟨-, hnearest, -⟩ := correctlyRounded_fsub hhi hlo
    have hnear := (hnearest df _ mf).1
    rw [Int.abs_eq_natAbs, Int.abs_eq_natAbs] at hnear
    omega

/-- With a coefficient below 1 the motion does not pass `hi`. -/
theorem approach_le (ha : inUnit a = true) (hlt : flt a fone = true)
    (hlo : isFinite lo = true) (hhi : isFinite hi = true) (h0 : 0 ≤ fval lo) (hle : fval lo ≤ fval hi) :
    fle (approach a lo hi) hi = true := by
  obtain ⟨-, mf, -, -⟩ := approachMove_bounds ha hlo hhi h0 hle
  have := approachMove_le ha hlt hlo hhi h0 hle
  exact fadd_le hlo mf hhi (by omega)

end Attack

/-! ## Decay -/

theorem isNonNegative_of_between {x hi : F64} (hhi : isFinite hi = true) (h0 : fle fzero x = true)
    (h1 : fle x hi = true) : isNonNegative x = true := by
  have v0 := fval_le_of_fle h0
  rw [fval_fzero] at v0
  exact (isNonNegative_iff x).2 ⟨isFinite_of_between isFinite_fzero hhi h0 h1, v0⟩

theorem fle_fzero_of_isNonNegative {x : F64} (h : isNonNegative x = true) : fle fzero x = true := by
  rw [isNonNegative, Bool.and_eq_true] at h
  exact h.2

/-- `1 - r` is in `[0, 1]` for an `r` in `[0, 1]`. -/
theorem inUnit_complement {r : F64} (hr : inUnit r = true) : inUnit (fsub fone r) = true := by
  have rf := isFinite_of_inUnit hr
  obtain ⟨r0, r1⟩ := fval_of_inUnit hr
  rw [← fval_fone] at r1
  rw [inUnit_iff]
  exact ⟨le_fsub isFinite_fone rf isFinite_fzero (by rw [fval_fzero]; omega),
    fsub_le isFinite_fone rf isFinite_fone (by omega)⟩

/-- A factor in `[0, 1]` moves a value that is not negative toward zero. -/
theorem decay_bounds {e r : F64} (he : isNonNegative e = true) (hr : inUnit r = true) :
    isNonNegative (fmul e r) = true ∧ fle (fmul e r) e = true := by
  obtain ⟨ef, e0⟩ := (isNonNegative_iff e).1 he
  have rf := isFinite_of_inUnit hr
  obtain ⟨r0, r1⟩ := fval_of_inUnit hr
  have lower : fle fzero (fmul e r) = true :=
    le_fmul ef rf isFinite_fzero (by rw [fval_fzero, Int.zero_mul]; exact Int.mul_nonneg e0 r0)
  have upper : fle (fmul e r) e = true := fmul_le ef rf ef (Int.mul_le_mul_of_nonneg_left r1 e0)
  exact ⟨isNonNegative_of_between ef lower upper, upper⟩

/-! ## The three envelopes -/

theorem flush_eq_or (e : F64) : flush e = fzero ∨ flush e = e := by
  unfold flush
  split
  · exact .inl rfl
  · exact .inr rfl

theorem dyn_env (c : DynRegs) (e : Envelopes) (x : F64) : (dyn c e x).2.env = flush (stageE c (fabs x) e.env) := by
  unfold dyn
  cases c.mode <;> rfl

/-- Simple mode leaves `ENV2` to the flush alone. -/
theorem dyn_env2 (c : DynRegs) (e : Envelopes) (x : F64) : (dyn c e x).2.env2 =
    flush (if c.mode then stageE2 c (fabs x) (stageE c (fabs x) e.env) e.env2 else e.env2) := by
  unfold dyn
  cases c.mode <;> rfl

/-- Simple mode leaves `GENV` to the flush alone. -/
theorem dyn_genv (c : DynRegs) (e : Envelopes) (x : F64) : (dyn c e x).2.genv =
    flush (if c.mode then stageX c (stageE c (fabs x) e.env) e.genv else e.genv) := by
  unfold dyn
  cases c.mode <;> rfl

/-- The range of `ENV` after a sample of magnitude `i`, with the old `ENV` and `i` not above `bound`. -/
def EnvInRange (c : DynRegs) (bound i v : F64) : Prop :=
  fle fzero v = true ∧ (flt c.att fone = true → fle v bound = true) ∧ fbits v ≤ fbits bound + 1 ∧
  (flt c.att fone = true ∨ i ≠ 0x7FEFFFFFFFFFFFFF#64 → isNonNegative v = true)

theorem envInRange_of_le {c : DynRegs} {bound i v : F64} (hv : isNonNegative v = true) (hle : fle v bound = true) :
    EnvInRange c bound i v := by
  refine ⟨fle_fzero_of_isNonNegative hv, fun _ => hle, ?_, fun _ => hv⟩
  have hmag : fmag v ≤ fmag bound := by
    obtain ⟨-, h0⟩ := (isNonNegative_iff v).1 hv
    have h1 := fval_le_of_fle hle
    rw [← natAbs_fval, ← natAbs_fval]
    omega
  exact (fmag_le_iff.1 hmag).trans (Nat.le_succ _)

/-- The attack stays in range below a finite magnitude of positive sign. -/
theorem envInRange_attack {c : DynRegs} {env i : F64} (hc : DynSafe c) (henv : isNonNegative env = true)
    (hi : isFinite i = true) (hs : fsign i = false) (hle : fval env ≤ fval i) :
    EnvInRange c i i (approach c.att env i) := by
  obtain ⟨ef, v0⟩ := (isNonNegative_iff env).1 henv
  have lower := fle_trans (fle_fzero_of_isNonNegative henv) (le_approach hc.attUnit ef hi v0 hle)
  have hbits := fbits_approach_le_succ hc.attUnit ef hi v0 hle
  have upper := fun hlt => approach_le hc.attUnit hlt ef hi v0 hle
  refine ⟨lower, upper, hbits, fun h => ?_⟩
  rcases h with hlt | hne
  · exact isNonNegative_of_between hi lower (upper hlt)
  · rw [isNonNegative, lower, Bool.and_true]
    rw [isFinite_iff] at hi ⊢
    have hmax : fbits (0x7FEFFFFFFFFFFFFF#64) = infBits - 1 := by decide
    have hbelow : fbits i ≠ infBits - 1 := fun heq => hne (f64_ext (hs.trans (by decide)) (heq.trans hmax.symm))
    omega

/-- Stage E keeps `ENV` in range. -/
theorem envInRange_stageE {c : DynRegs} {env x : F64} (hc : DynSafe c) (hx : isFinite x = true)
    (henv : isNonNegative env = true) : EnvInRange c (fmax env (fabs x)) (fabs x) (stageE c (fabs x) env) := by
  rw [stageE_eq, fmax]
  split
  · rename_i hlt
    exact envInRange_attack hc henv (by simpa using hx) (fsign_fabs x) (fval_le_of_fle (fle_of_flt hlt))
  · obtain ⟨hdecay, hle⟩ := decay_bounds henv (inUnit_complement hc.rel)
    exact envInRange_of_le hdecay hle

/-- Stage E2 keeps `ENV2` finite and not negative. -/
theorem isNonNegative_stageE2 {c : DynRegs} {env env2 x : F64} (hc : DynSafe c) (hx : isFinite x = true)
    (henv2 : isNonNegative env2 = true) : isNonNegative (stageE2 c (fabs x) env env2) = true := by
  unfold stageE2
  split
  · rw [isNonNegative_iff, fval_fabs]
    exact ⟨by simpa using hx, Int.natCast_nonneg _⟩
  · exact (decay_bounds henv2 (inUnit_complement hc.rel)).1

/-- Stage X keeps `GENV` in `[0, 1]`. -/
theorem inUnit_stageX {c : DynRegs} {env genv : F64} (hc : DynSafe c) (hgenv : inUnit genv = true) :
    inUnit (stageX c env genv) = true := by
  rw [stageX_eq]
  split
  · exact (inUnit_iff _).2 (approach_fone_le hc.gatt hgenv)
  · exact inUnit_fmul hgenv hc.xrat

/-- Settles O49: each stage keeps its envelope in range, and the flush gives `+0` or what the stage gave. -/
theorem envelopesStayInRange : Obligations.EnvelopesStayInRange := by
  unfold Obligations.EnvelopesStayInRange
  intro c e x hc hx henv henv2 hgenv
  have hbound : fle fzero (fmax e.env (fabs x)) = true := by
    exact fle_trans (fle_fzero_of_isNonNegative henv)
      (le_fmax_left (not_isNaN_of_isFinite (isFinite_of_isNonNegative henv)))
  have hrange : EnvInRange c (fmax e.env (fabs x)) (fabs x) (dyn c e x).2.env := by
    rw [dyn_env]
    rcases flush_eq_or (stageE c (fabs x) e.env) with h | h <;> rw [h]
    · exact envInRange_of_le (by decide) hbound
    · exact envInRange_stageE hc hx henv
  have hrange2 : isNonNegative (dyn c e x).2.env2 = true := by
    rw [dyn_env2]
    rcases flush_eq_or (if c.mode then stageE2 c (fabs x) (stageE c (fabs x) e.env) e.env2 else e.env2) with h | h <;>
      rw [h]
    · decide
    · split
      · exact isNonNegative_stageE2 hc hx henv2
      · exact henv2
  have hrangeG : inUnit (dyn c e x).2.genv = true := by
    rw [dyn_genv]
    rcases flush_eq_or (if c.mode then stageX c (stageE c (fabs x) e.env) e.genv else e.genv) with h | h <;> rw [h]
    · decide
    · split
      · exact inUnit_stageX hc hgenv
      · exact hgenv
  obtain ⟨hnonneg, hunder, hbits, hfinite⟩ := hrange
  exact ⟨hnonneg, hunder, hbits, hfinite, hrange2, hrangeG, dyn_envelopes_flushed c e x⟩

end Sys2Proof.Machine

/-! # Proofs: serial transport, decoding in a step, PROCESSBLK and the table lookup -/

namespace Sys2Proof.Machine

open Sys2Proof.Config

/-! ## Comparisons (R12) -/

theorem flt_of_not_fle {x y : F64} (hx : isNaN x = false) (hy : isNaN y = false) (h : fle y x = false) :
    flt x y = true := by
  by_contra hlt
  rw [fle_of_not_flt hy hx (by simpa using hlt)] at h
  cases h

/-! ## Rows and columns of the lookup (R125) -/

/-- The greatest word below 256. -/
def below256 : F64 := 0x406FFFFFFFFFFFFF#64

theorem rowCoordinate_fone : rowCoordinate fone = f256 := by decide +kernel

theorem fval_f256 : fval f256 = 256 * oneUnits := by decide +kernel

/-- `256 * y * 0.5` is between 0 and `128 * c` for a `y` between 0 and `c`, where `m = 256 * c` and `b = 128 * c` are
binary64: neither product rounds past its bound. -/
theorem halfOf256_between {y c m b : F64} (hy : isFinite y = true) (hm : isFinite m = true) (hb : isFinite b = true)
    (h0 : 0 ≤ fval y) (hyc : fval y ≤ fval c) (hcm : 256 * fval c = fval m)
    (hmb : fval m = 2 * fval b) :
    isFinite (fmul (fmul f256 y) fhalf) = true ∧ 0 ≤ fval (fmul (fmul f256 y) fhalf) ∧
      fval (fmul (fmul f256 y) fhalf) ≤ fval b := by
  have hu := oneUnits_int_pos
  have hhalf := fval_fhalf
  obtain ⟨pf, p0, p1⟩ := fmul_between (x := f256) (lo := fzero) (by decide) hy isFinite_fzero hm
    (by rw [fval_fzero, fval_f256, Int.zero_mul]; exact Int.mul_nonneg (by omega) h0)
    (by rw [fval_f256, ← hcm, mul_right_comm]; exact Int.mul_le_mul_of_nonneg_right (by omega) hu.le)
  rw [fval_fzero] at p0
  have q := fmul_between (lo := fzero) pf isFinite_fhalf isFinite_fzero hb
    (by rw [fval_fzero, Int.zero_mul]; exact Int.mul_nonneg p0 (by omega))
    (by rw [← hhalf, ← mul_assoc]; exact Int.mul_le_mul_of_nonneg_right (by omega) (by omega))
  rwa [fval_fzero] at q

/-- The row coordinate of a phase in `[-1, 1]` is in `[0, 256]`. -/
theorem rowCoordinate_bounds {phase : F64} (hlo : fle (fneg fone) phase = true) (hhi : fle phase fone = true) :
    isFinite (rowCoordinate phase) = true ∧ 0 ≤ fval (rowCoordinate phase) ∧
      fval (rowCoordinate phase) ≤ 256 * oneUnits := by
  have pf := isFinite_of_between (by decide) isFinite_fone hlo hhi
  have vlo := fval_le_of_fle hlo
  have vhi := fval_le_of_fle hhi
  rw [fval_fneg] at vlo
  have htwo : fval ftwo = 2 * fval fone := by rw [fval_ftwo, fval_fone]
  obtain ⟨sf, s0, s1⟩ := fadd_between pf isFinite_fone isFinite_fzero isFinite_ftwo
    (by rw [fval_fzero]; omega) (by omega)
  rw [fval_fzero] at s0
  rw [← fval_f256]
  exact halfOf256_between (m := 0x4080000000000000#64) sf (by decide) (by decide) s0 s1
    (by decide +kernel) (by decide +kernel)

/-- A phase below `1 - 2^-53` does not reach column 256: its sum with 1 does not round up to 2. -/
theorem rowCoordinate_before_end {phase : F64} (hlo : fle (fneg fone) phase = true)
    (hend : flt phase (0x3FEFFFFFFFFFFFFF#64) = true) : fval (rowCoordinate phase) < 256 * oneUnits := by
  have hbelow : fle phase (0x3FEFFFFFFFFFFFFE#64) = true := by
    obtain ⟨hn, -, hlt⟩ := (flt_iff _ _).1 hend
    have hsucc : ford (0x3FEFFFFFFFFFFFFF#64) = ford (0x3FEFFFFFFFFFFFFE#64) + 1 := by decide
    exact (fle_iff _ _).2 ⟨hn, by decide, by omega⟩
  have pf := isFinite_of_between (by decide) (by decide) hlo hbelow
  have vlo := fval_le_of_fle hlo
  have vhi := fval_le_of_fle hbelow
  rw [fval_fneg] at vlo
  have hsum : fval (0x3FEFFFFFFFFFFFFE#64) + fval fone = fval belowTwo := by decide +kernel
  obtain ⟨sf, s0, s1⟩ := fadd_between (hi := belowTwo) pf isFinite_fone isFinite_fzero (by decide)
    (by rw [fval_fzero]; omega) (by omega)
  rw [fval_fzero] at s0
  obtain ⟨-, -, h⟩ := halfOf256_between (c := belowTwo) (m := 0x407FFFFFFFFFFFFF#64) (b := below256) sf (by decide)
    (by decide) s0 s1 (by decide +kernel) (by decide +kernel)
  exact h.trans_lt (by decide +kernel)

/-- A phase of at least `1 - 2^-53` in range is one of two words, and both reach column 256. -/
theorem rowCoordinate_at_end {phase : F64} (hhi : fle phase fone = true)
    (hend : fle (0x3FEFFFFFFFFFFFFF#64) phase = true) : rowCoordinate phase = f256 := by
  have hsucc : ford fone = ford (0x3FEFFFFFFFFFFFFF#64) + 1 := by decide
  have hne : ford fone ≠ 0 ∧ ford (0x3FEFFFFFFFFFFFFF#64) ≠ 0 := by decide
  obtain ⟨-, -, h1⟩ := (fle_iff _ _).1 hhi
  obtain ⟨-, -, h2⟩ := (fle_iff _ _).1 hend
  rcases (show ford phase = ford fone ∨ ford phase = ford (0x3FEFFFFFFFFFFFFF#64) by omega) with h | h
  · rw [eq_of_ford_eq hne.1 h, rowCoordinate_fone]
  · rw [eq_of_ford_eq hne.2 h]
    decide +kernel

theorem clampWidth_of_isNaN {w : F64} (h : isNaN w = true) : clampWidth w = w := by
  rw [clampWidth, (comparisons_of_isNaN (Or.inl h)).1, (comparisons_of_isNaN (Or.inr h)).1]
  rfl

/-- A width of at least 62 is clamped to the value 62. -/
theorem fval_clampWidth_at_end {w : F64} (h : fle fsixtyTwo w = true) : fval (clampWidth w) = 62 * oneUnits := by
  have hpos : flt w fzero = false := not_flt_of_fle (fle_trans (by decide) h)
  obtain ⟨-, -, hle⟩ := clampWidth_bounds (isNaN_right_of_fle h)
  have hge : fval fsixtyTwo ≤ fval (clampWidth w) := by
    rw [clampWidth, hpos, if_neg (by decide)]
    split
    · exact le_rfl
    · exact fval_le_of_fle h
  rw [fval_fsixtyTwo] at hge
  omega

/-- A width below 62 stays below 62. -/
theorem fval_clampWidth_before_end {w : F64} (h : flt w fsixtyTwo = true) : fval (clampWidth w) < 62 * oneUnits := by
  obtain ⟨hn, -, -⟩ := (flt_iff _ _).1 h
  have hpos := oneUnits_int_pos
  rw [clampWidth, not_flt_of_fle (fle_of_flt h)]
  split
  · rw [fval_fzero]; omega
  · rw [if_neg (by decide), ← fval_fsixtyTwo]
    exact (flt_iff_fval hn (by decide)).1 h

/-! ## The lookup at a row and a column (R125, R126, R240) -/

theorem getFormant_of_outside (tf : Table) {phase w : F64}
    (h : ¬ (fle (fneg fone) phase = true ∧ fle phase fone = true)) : getFormant tf phase w = .error .tableBounds := by
  rw [getFormant, if_neg (by simpa using h)]

/-- Where the width has no integer part the lookup raises `TableBounds`, whatever the column. -/
theorem getFormant_of_no_row (tf : Table) {phase w : F64} (h : toNatOrBounds (clampWidth w) = .error .tableBounds) :
    getFormant tf phase w = .error .tableBounds := by
  have hcolumn : toNatOrBounds (rowCoordinate phase) = .error .tableBounds ∨
      ∃ j, toNatOrBounds (rowCoordinate phase) = .ok j := by
    unfold toNatOrBounds
    cases ftoNat (rowCoordinate phase) with
    | none => exact .inl rfl
    | some j => exact .inr ⟨j, rfl⟩
  unfold getFormant
  split
  · rcases hcolumn with hj | ⟨j, hj⟩ <;> rw [hj]
    · rfl
    · rw [h]; rfl
  · rfl

theorem memRead_of_lt (tf : Table) {a : Nat} (h : a < tableWords) : memRead tf a = .ok (tf.read a) := if_pos h

/-- The lookup at column `j` and row `i`: `TableBounds` where the last of its four words is outside the table, and
their interpolation otherwise. -/
theorem getFormant_of_cell (tf : Table) {phase w : F64} {j i : Nat} (hlo : fle (fneg fone) phase = true)
    (hhi : fle phase fone = true) (hj : toNatOrBounds (rowCoordinate phase) = .ok j)
    (hi : toNatOrBounds (clampWidth w) = .ok i) :
    getFormant tf phase w = if tableWords ≤ j + 257 * i + 258 then .error .tableBounds else
      .ok (bilinear (fsub (rowCoordinate phase) (natToF64 j)) (fsub (clampWidth w) (natToF64 i))
        (tf.read (j + 257 * i)) (tf.read (j + 257 * i + 1)) (tf.read (j + 257 * i + 257))
        (tf.read (j + 257 * i + 258))) := by
  have hcell : cellAddress j i = j + 257 * i := rfl
  have hsize : tableSize = 257 := rfl
  unfold getFormant
  rw [hlo, hhi, hj, hi]
  simp only [bind, Except.bind, Bool.and_self, if_true, hcell, hsize]
  split
  · rfl
  · rename_i h
    rw [memRead_of_lt tf (by omega), memRead_of_lt tf (by omega), memRead_of_lt tf (by omega),
      memRead_of_lt tf (by omega)]

/-- A count of whole units in a value below `c` units is below `c`. -/
theorem count_lt {n : Nat} {v c : Int} (h : (n : Int) * oneUnits ≤ v) (hv : v < c * oneUnits) : (n : Int) < c :=
  Int.lt_of_mul_lt_mul_right (h.trans_lt hv) oneUnits_int_pos.le

theorem count_le {n : Nat} {v c : Int} (h : (n : Int) * oneUnits ≤ v) (hv : v ≤ c * oneUnits) : (n : Int) ≤ c :=
  Int.le_of_mul_le_mul_right (h.trans hv) oneUnits_int_pos

/-- Settles O24: the column is at most 256 and the row at most 62, and the fourth word is outside the table exactly
where both are at their end. -/
theorem lookupBounds : Obligations.LookupBounds := by
  unfold Obligations.LookupBounds
  intro tf phase w
  dsimp only
  refine ⟨getFormant_of_outside tf, fun ⟨_, hw⟩ => ?_, fun ⟨⟨hlo, hhi⟩, hw, hend, hwidth⟩ => ?_,
    fun ⟨⟨hlo, hhi⟩, hw, hcorner⟩ => ?_⟩
  · refine getFormant_of_no_row tf (toNatOrBounds_of_outside (Or.inl ?_))
    rw [clampWidth_of_isNaN hw]
    exact Bool.eq_false_iff.2 fun hf => by simp [not_isNaN_of_isFinite hf] at hw
  · obtain ⟨rf, r0, -⟩ := rowCoordinate_bounds hlo hhi
    obtain ⟨wf, w0, -⟩ := clampWidth_bounds hw
    obtain ⟨j, hj, -, jhi⟩ := toNatOrBounds_of_nonneg rf r0
    obtain ⟨i, hi, -, ihi⟩ := toNatOrBounds_of_nonneg wf w0
    rw [rowCoordinate_at_end hhi hend, fval_f256] at jhi
    rw [fval_clampWidth_at_end hwidth] at ihi
    have hj256 := Int.lt_of_mul_lt_mul_right jhi oneUnits_int_pos.le
    have hi62 := Int.lt_of_mul_lt_mul_right ihi oneUnits_int_pos.le
    rw [getFormant_of_cell tf hlo hhi hj hi, if_pos (show 16448 ≤ _ by omega)]
  · obtain ⟨rf, r0, r1⟩ := rowCoordinate_bounds hlo hhi
    obtain ⟨wf, w0, w1⟩ := clampWidth_bounds hw
    obtain ⟨j, hj, jlo, jhi⟩ := toNatOrBounds_of_nonneg rf r0
    obtain ⟨i, hi, ilo, ihi⟩ := toNatOrBounds_of_nonneg wf w0
    have hj256 := count_le jlo r1
    have hi62 := count_le ilo w1
    have hfits : j + 257 * i + 258 < 16448 := by
      cases hend : fle (0x3FEFFFFFFFFFFFFF#64) phase with
      | false =>
        have hflt := flt_of_not_fle (isNaN_left_of_fle hhi) (by decide) hend
        have := count_lt jlo (rowCoordinate_before_end hlo hflt)
        omega
      | true =>
        have hwidth : fle fsixtyTwo w = false := Bool.eq_false_iff.2 fun h => hcorner ⟨hend, h⟩
        have hflt := flt_of_not_fle hw (by decide) hwidth
        have := count_lt ilo (fval_clampWidth_before_end hflt)
        omega
    rw [fval_fone]
    refine ⟨j, i, by omega, by omega, hfits, jlo, jhi, ilo, ihi, ?_⟩
    rw [getFormant_of_cell tf hlo hhi hj hi, if_neg (show ¬ 16448 ≤ _ by omega)]
    rfl

/-! ## Serial transport (R66) -/

@[simp] theorem bigEndianBytes_length (n : Nat) {v : Nat} (w : BitVec v) : (bigEndianBytes n w).length = n := by
  simp [bigEndianBytes]

theorem bigEndianBytes_getElem? {n i v : Nat} (w : BitVec v) (h : i < n) :
    (bigEndianBytes n w)[i]? = some (w.extractLsb' (8 * (n - 1 - i)) 8) := by
  simp [bigEndianBytes, h]

/-- The first byte is the most significant one, and the others are the bytes of the bits below it. -/
theorem bigEndianBytes_succ (n : Nat) {v : Nat} (w : BitVec v) :
    bigEndianBytes (n + 1) w = w.extractLsb' (8 * n) 8 :: bigEndianBytes n w := by
  rw [bigEndianBytes, List.range_succ_eq_map, List.map_cons, List.map_map, bigEndianBytes]
  congr 1
  refine List.map_congr_left fun i _ => ?_
  have hindex : n + 1 - 1 - (i + 1) = n - 1 - i := by omega
  exact congrArg (fun k => w.extractLsb' (8 * k) 8) hindex

/-- Reading bytes most significant first appends the low `8 * n` bits of the word to what was read before. -/
theorem foldl_bigEndianBytes (n acc : Nat) {v : Nat} (w : BitVec v) :
    (bigEndianBytes n w).foldl (fun acc b => acc * 256 + b.toNat) acc = acc * 256 ^ n + w.toNat % 256 ^ n := by
  induction n generalizing acc with
  | zero => simp [bigEndianBytes, Nat.mod_one]
  | succ n ih =>
    have hbyte : (w.extractLsb' (8 * n) 8).toNat = w.toNat / 256 ^ n % 256 := by
      rw [BitVec.extractLsb'_toNat, Nat.shiftRight_eq_div_pow, pow_mul]
      norm_num
    rw [bigEndianBytes_succ, List.foldl_cons, ih, hbyte, Nat.mod_pow_succ]
    ring

/-- The ten bytes of a command word carry that word. -/
theorem commandOfBytes_commandBytes (w : CommandWord) : commandOfBytes (commandBytes w) = some w := by
  have hlt : w.toNat < 256 ^ 10 := w.isLt
  rw [commandOfBytes, commandBytes, if_pos (bigEndianBytes_length 10 w), foldl_bigEndianBytes, Nat.zero_mul,
    Nat.zero_add, Nat.mod_eq_of_lt hlt, BitVec.ofNat_toNat, BitVec.setWidth_eq]

/-- Settles O5: the bytes of any word by their places, and the word read back byte by byte. -/
theorem serialTransport : Obligations.SerialTransport := by
  unfold Obligations.SerialTransport
  exact ⟨fun w => ⟨bigEndianBytes_length 10 w, fun _ => bigEndianBytes_getElem? w, commandOfBytes_commandBytes w⟩,
    fun r => ⟨bigEndianBytes_length 9 r, fun _ => bigEndianBytes_getElem? r⟩⟩

/-! ## A step on a command word (R71, R96, R98) -/

/-- A field check that fails gives `IllegalEncoding` and nothing else. -/
theorem illegalEncoding_of_check {p : Prop} [Decidable p] {i : Instr} {c : Cause}
    (h : (if p then Except.ok i else .error .illegalEncoding) = .error c) :
    c = .illegalOpcode ∨ c = .illegalEncoding := by
  split at h <;> cases h
  exact .inr rfl

/-- Decoding raises no cause but the two of R234 and R235. -/
theorem decode_error_cases {w : CommandWord} {c : Cause} (h : decode w = .error c) :
    c = .illegalOpcode ∨ c = .illegalEncoding := by
  unfold decode at h
  iterate 7
    split at h
    · exact illegalEncoding_of_check h
  cases h
  exact .inl rfl

theorem step_of_decode_ok {s : State} {w : CommandWord} {rest : List PortEvent} {i : Instr}
    (hin : s.input = .command w :: rest) (h : decode w = .ok i) : step s = exec i { s with input := rest } := by
  simp only [step, hin, h]

theorem step_of_decode_error {s : State} {w : CommandWord} {rest : List PortEvent} {c : Cause}
    (hin : s.input = .command w :: rest) (h : decode w = .error c) :
    step s = .next (raise c { s with input := rest }) := by
  simp only [step, hin, h]

/-- Taking a fault is the refusal with that cause's code (R232). -/
theorem refuses_raise (c : Cause) (s : State) : Refuses (.next (raise c s)) s c.code :=
  ⟨raise c s, rfl, rfl, rfl, rfl, rfl⟩

/-- Settles O6: a step goes by what the word decodes to, and taking a fault is a refusal. -/
theorem stepRunsTheDecodedCommand : Obligations.StepRunsTheDecodedCommand := by
  unfold Obligations.StepRunsTheDecodedCommand
  intro s w rest hin
  have hrefuses : ∀ c, decode w = .error c → Refuses (step s) { s with input := rest } c.code := fun c h => by
    rw [step_of_decode_error hin h]
    exact refuses_raise c _
  exact ⟨fun _ => step_of_decode_ok hin, fun _ => step_of_decode_error hin, hrefuses .illegalOpcode,
    hrefuses .illegalEncoding, fun _ => decode_error_cases⟩

/-! ## PROCESSBLK (R65, R100 (a)) -/

/-- PROCESS leads to a next state with one more response, whether it succeeds or faults (R93, R232). -/
theorem exec_process_answers (x : F64) (s : State) :
    ∃ t r, exec (.process x) s = .next t ∧ t.responses = r :: s.responses := by
  rcases onConstructed_cases (run := processRegs machineParams x) (s := s) rfl with
    ⟨-, h⟩ | ⟨u, -, ⟨u', data, -, h⟩ | ⟨c, -, h⟩⟩
  · exact ⟨_, _, h, raise_responses _ _⟩
  · exact ⟨_, _, h, respond_responses _ _ _⟩
  · exact ⟨_, _, h, raise_responses _ _⟩

theorem runCommands_cons {i : Instr} {rest : List Instr} {s t : State} (h : exec i s = .next t) :
    runCommands (i :: rest) s = runCommands rest t := by
  simp only [runCommands, h]

/-- The whole block was answered without a fault. -/
def BlockCompletes (buf : List F64) (s : State) (b : BlockResult) (answers : List ResponseWord) : Prop :=
  runCommands (buf.map .process) s = .next b.unitState ∧ answers.length = buf.length ∧
    (∀ a ∈ answers, responseCause a = 0#8) ∧ b.buffer = answers.map responseData

/-- Element `k` of the block was the first to fault, and the last to be sent. -/
def BlockStopsAt (k : Nat) (buf : List F64) (s : State) (b : BlockResult) (answers : List ResponseWord) : Prop :=
  k < buf.length ∧ answers.length = k + 1 ∧ runCommands ((buf.take (k + 1)).map .process) s = .next b.unitState ∧
    (∀ a ∈ answers.take k, responseCause a = 0#8) ∧ b.buffer = (answers.take k).map responseData ++ buf.drop k ∧
    (answers.getLast?.map responseCause) = some b.cause

section Block
variable {x : F64} {rest : List F64} {s t : State} {r : ResponseWord}

theorem processBlk_cons_of_success (hexec : exec (.process x) s = .next t) (hresp : t.responses = r :: s.responses)
    (hc : responseCause r = 0#8) : processBlk (x :: rest) s =
      { processBlk rest t with buffer := responseData r :: (processBlk rest t).buffer } := by
  simp only [processBlk, hexec, hresp, List.headD_cons, hc, if_true]

theorem processBlk_cons_of_fault (hexec : exec (.process x) s = .next t) (hresp : t.responses = r :: s.responses)
    (hc : responseCause r ≠ 0#8) : processBlk (x :: rest) s =
      { buffer := x :: rest, unitState := t, cause := responseCause r } := by
  simp only [processBlk, hexec, hresp, List.headD_cons, hc, if_false]

/-- A first element that succeeds comes before a block that completes. -/
theorem BlockCompletes.cons {b : BlockResult} {answers : List ResponseWord} (h : BlockCompletes rest t b answers)
    (hexec : exec (.process x) s = .next t) (hc : responseCause r = 0#8) :
    BlockCompletes (x :: rest) s { b with buffer := responseData r :: b.buffer } (r :: answers) := by
  obtain ⟨hrun, hlen, hcauses, hbuf⟩ := h
  refine ⟨?_, congrArg Nat.succ hlen, List.forall_mem_cons.2 ⟨hc, hcauses⟩, congrArg (responseData r :: ·) hbuf⟩
  rw [List.map_cons, runCommands_cons hexec, hrun]

/-- A first element that succeeds moves the place of the fault one further. -/
theorem BlockStopsAt.cons {k : Nat} {b : BlockResult} {answers : List ResponseWord}
    (h : BlockStopsAt k rest t b answers) (hexec : exec (.process x) s = .next t) (hc : responseCause r = 0#8) :
    BlockStopsAt (k + 1) (x :: rest) s { b with buffer := responseData r :: b.buffer } (r :: answers) := by
  obtain ⟨hk, hlen, hrun, hcauses, hbuf, hlast⟩ := h
  refine ⟨Nat.succ_lt_succ hk, congrArg Nat.succ hlen, ?_, List.forall_mem_cons.2 ⟨hc, hcauses⟩,
    congrArg (responseData r :: ·) hbuf, ?_⟩
  · rw [List.take_succ_cons, List.map_cons, runCommands_cons hexec, hrun]
  · cases answers with
    | nil => cases hlast
    | cons a l => rwa [List.getLast?_cons_cons]

/-- A first element that faults is the place of the fault. -/
theorem blockStopsAt_zero (hexec : exec (.process x) s = .next t) :
    BlockStopsAt 0 (x :: rest) s { buffer := x :: rest, unitState := t, cause := responseCause r } [r] := by
  refine ⟨Nat.succ_pos _, rfl, ?_, by simp, rfl, rfl⟩
  exact runCommands_cons hexec

end Block

/-- Settles O58, by induction on the buffer: the first element faults, or it succeeds and the rest of the block runs
from the state it leaves. -/
theorem processBlkStopsAtTheFirstFault : Obligations.ProcessBlkStopsAtTheFirstFault := by
  unfold Obligations.ProcessBlkStopsAtTheFirstFault
  intro buf
  induction buf with
  | nil => exact fun s => ⟨[], rfl, fun _ => ⟨rfl, rfl, by simp, rfl⟩, fun h => absurd rfl h⟩
  | cons x rest ih =>
    intro s
    obtain ⟨t, r, hexec, hresp⟩ := exec_process_answers x s
    by_cases hc : responseCause r = 0#8
    · obtain ⟨answers, hanswers, hcompletes, hstops⟩ := ih t
      rw [processBlk_cons_of_success hexec hresp hc]
      refine ⟨r :: answers, ?_, fun h => BlockCompletes.cons (hcompletes h) hexec hc, fun h => ?_⟩
      · rw [hanswers, hresp, List.reverse_cons, List.append_assoc]
        rfl
      · obtain ⟨k, hk⟩ := hstops h
        exact ⟨k + 1, BlockStopsAt.cons hk hexec hc⟩
    · rw [processBlk_cons_of_fault hexec hresp hc]
      exact ⟨[r], hresp, fun h => absurd h hc, fun _ => ⟨0, blockStopsAt_zero hexec⟩⟩

end Sys2Proof.Machine

/-! # Proofs: decoding and encoding, the answer to every command, LFOOFF and DYNCONFIGURE -/

namespace Sys2Proof

/-! ## A word and its fields (R90, R91) -/

/-- The three fields of a command word make up the word. -/
theorem word_of_fields (w : CommandWord) : opcField w ++ (selField w ++ xField w) = w := by
  rw [opcField, selField, xField, BitVec.extractLsb'_append_extractLsb'_eq_extractLsb' (by rfl),
    BitVec.extractLsb'_append_extractLsb'_eq_extractLsb' (by rfl), BitVec.extractLsb'_eq_self]

/-- The f64 operand is the two f32 operands side by side. -/
theorem xField_eq_halves (w : CommandWord) : xField w = aField w ++ bField w := by
  rw [xField, aField, bField, BitVec.extractLsb'_append_extractLsb'_eq_extractLsb' (by rfl)]

/-- A word with the opcode, selector and payload of a command is the word of that command. -/
theorem encode_eq_of_fields {w : CommandWord} {i : Instr} (hopc : opcField w = i.opcode)
    (hsel : selField w = i.selector) (hx : xField w = i.payload) : encode i = w := by
  rw [encode, ← hopc, ← hsel, ← hx, word_of_fields]

/-! ## Decoding, one equation per opcode (R94, R98) -/

section Decode
variable {w : CommandWord}

/-- An opcode is outside 1 to 7 or one of the seven of R94. -/
theorem opcField_cases (w : CommandWord) : ((opcField w).toNat < 1 ∨ 7 < (opcField w).toNat) ∨
    opcField w = 0x01#8 ∨ opcField w = 0x02#8 ∨ opcField w = 0x03#8 ∨ opcField w = 0x04#8 ∨ opcField w = 0x05#8 ∨
    opcField w = 0x06#8 ∨ opcField w = 0x07#8 := by
  bv_omega

theorem decode_of_illegal_opcode (h : (opcField w).toNat < 1 ∨ 7 < (opcField w).toNat) :
    decode w = .error .illegalOpcode := by
  have hne : ∀ o : BitVec 8, 1 ≤ o.toNat → o.toNat ≤ 7 → opcField w ≠ o := by
    rintro o h1 h7 rfl
    omega
  simp [decode, hne]

theorem decode_construct (h : opcField w = 0x01#8) : decode w =
    if selField w = 0 then .ok (.construct (aField w) (bField w)) else .error .illegalEncoding := by
  simp [decode, h]

theorem decode_setVowel (h : opcField w = 0x02#8) : decode w =
    if selField w = 0 ∧ bField w = 0 then .ok (.setVowel (aField w)) else .error .illegalEncoding := by
  simp [decode, h]

theorem decode_getVowel (h : opcField w = 0x03#8) : decode w =
    if selField w = 0 ∧ xField w = 0 then .ok .getVowel else .error .illegalEncoding := by
  simp [decode, h]

theorem decode_setLfo (h : opcField w = 0x04#8) : decode w =
    if selField w = 0 then .ok (.setLfo (aField w) (bField w)) else .error .illegalEncoding := by
  simp [decode, h]

theorem decode_process (h : opcField w = 0x05#8) : decode w =
    if selField w = 0 then .ok (.process (xField w)) else .error .illegalEncoding := by
  simp [decode, h]

theorem decode_dynCfg (h : opcField w = 0x06#8) : decode w =
    if selectorLegal (selField w) then .ok (.dynCfg (selField w) (xField w)) else .error .illegalEncoding := by
  simp [decode, h]

theorem decode_dynProc (h : opcField w = 0x07#8) : decode w =
    if selField w = 0 then .ok (.dynProc (xField w)) else .error .illegalEncoding := by
  simp [decode, h]

/-- A command that a field check gives has passed the check. -/
theorem ok_of_check {p : Prop} [Decidable p] {i j : Instr}
    (h : (if p then Except.ok i else .error Cause.illegalEncoding) = .ok j) : p ∧ i = j := by
  split at h <;> cases h
  exact ⟨‹p›, rfl⟩

end Decode

end Sys2Proof

namespace Sys2Proof.Machine

open Sys2Proof.Config

/-! ## Encoding then decoding, and back -/

/-- Settles O1, command by command: the word's fields are the command's, and they pass the check of its opcode. -/
theorem decodeOfEncode : Obligations.DecodeOfEncode := by
  unfold Obligations.DecodeOfEncode
  intro i hwf
  cases i with
  | construct v0 sr =>
    obtain ⟨hopc, hsel, -⟩ := Laws.WordFields.construct v0 sr
    obtain ⟨ha, hb⟩ : aField (encode (.construct v0 sr)) = v0 ∧ bField (encode (.construct v0 sr)) = sr :=
      halves_of_payload _ _ _ _
    rw [decode_construct hopc, ha, hb]
    exact if_pos hsel
  | setVowel v =>
    obtain ⟨hopc, hsel, -⟩ := Laws.WordFields.setVowel v
    obtain ⟨ha, hb⟩ : aField (encode (.setVowel v)) = v ∧ bField (encode (.setVowel v)) = 0#32 :=
      halves_of_payload _ _ _ _
    rw [decode_setVowel hopc, ha]
    exact if_pos ⟨hsel, hb⟩
  | getVowel =>
    obtain ⟨hopc, hsel, hx⟩ := Laws.WordFields.getVowel
    exact (decode_getVowel hopc).trans (if_pos ⟨hsel, hx⟩)
  | setLfo rp d =>
    obtain ⟨hopc, hsel, -⟩ := Laws.WordFields.setLfo rp d
    obtain ⟨ha, hb⟩ : aField (encode (.setLfo rp d)) = rp ∧ bField (encode (.setLfo rp d)) = d :=
      halves_of_payload _ _ _ _
    rw [decode_setLfo hopc, ha, hb]
    exact if_pos hsel
  | process x =>
    obtain ⟨hopc, hsel, hx⟩ := Laws.WordFields.process x
    rw [decode_process hopc, hx]
    exact if_pos hsel
  | dynCfg sel x =>
    obtain ⟨hopc, hsel, hx⟩ := Laws.WordFields.dynCfg sel x
    rw [decode_dynCfg hopc, hsel, hx]
    exact if_pos hwf
  | dynProc x =>
    obtain ⟨hopc, hsel, hx⟩ := Laws.WordFields.dynProc x
    rw [decode_dynProc hopc, hx]
    exact if_pos hsel

/-- Settles O2: the check that a decoded word has passed fixes every field that is no operand, so the command's word
agrees with it field by field. -/
theorem encodeOfDecode : Obligations.EncodeOfDecode := by
  unfold Obligations.EncodeOfDecode
  intro w i h
  have hhalves := xField_eq_halves w
  rcases opcField_cases w with ho | ho | ho | ho | ho | ho | ho | ho
  · rw [decode_of_illegal_opcode ho] at h
    cases h
  · rw [decode_construct ho] at h
    obtain ⟨hsel, rfl⟩ := ok_of_check h
    exact ⟨rfl, encode_eq_of_fields ho hsel hhalves⟩
  · rw [decode_setVowel ho] at h
    obtain ⟨⟨hsel, hb⟩, rfl⟩ := ok_of_check h
    rw [hb] at hhalves
    exact ⟨rfl, encode_eq_of_fields ho hsel hhalves⟩
  · rw [decode_getVowel ho] at h
    obtain ⟨⟨hsel, hx⟩, rfl⟩ := ok_of_check h
    exact ⟨rfl, encode_eq_of_fields ho hsel hx⟩
  · rw [decode_setLfo ho] at h
    obtain ⟨hsel, rfl⟩ := ok_of_check h
    exact ⟨rfl, encode_eq_of_fields ho hsel hhalves⟩
  · rw [decode_process ho] at h
    obtain ⟨hsel, rfl⟩ := ok_of_check h
    exact ⟨rfl, encode_eq_of_fields ho hsel rfl⟩
  · rw [decode_dynCfg ho] at h
    obtain ⟨hsel, rfl⟩ := ok_of_check h
    exact ⟨hsel, encode_eq_of_fields ho rfl rfl⟩
  · rw [decode_dynProc ho] at h
    obtain ⟨hsel, rfl⟩ := ok_of_check h
    exact ⟨rfl, encode_eq_of_fields ho hsel rfl⟩

/-- A legal opcode with a non-zero must-be-zero field, or DYNCFG with a reserved selector, is refused (R96, R235). -/
theorem decode_of_illegal_fields {w : CommandWord} (h1 : 1 ≤ (opcField w).toNat) (h7 : (opcField w).toNat ≤ 7)
    (h : (opcField w).toNat ≠ 6 ∧ selField w ≠ 0#8 ∨ (opcField w).toNat = 6 ∧ 10 < (selField w).toNat ∨
      (opcField w).toNat = 2 ∧ bField w ≠ 0#32 ∨ (opcField w).toNat = 3 ∧ xField w ≠ 0#64) :
    decode w = .error .illegalEncoding := by
  rcases opcField_cases w with ho | ho | ho | ho | ho | ho | ho | ho
  · omega
  all_goals rw [ho] at h
  · rw [decode_construct ho, if_neg (by simpa using h)]
  · rw [decode_setVowel ho, if_neg (by simpa [or_iff_not_imp_left] using h)]
  · rw [decode_getVowel ho, if_neg (by simpa [or_iff_not_imp_left] using h)]
  · rw [decode_setLfo ho, if_neg (by simpa using h)]
  · rw [decode_process ho, if_neg (by simpa using h)]
  · rw [decode_dynCfg ho, if_neg (by simpa [selectorLegal] using h)]
  · rw [decode_dynProc ho, if_neg (by simpa using h)]

/-- Settles O3: each clause is one case of the equation of its opcode. -/
theorem decodeRule : Obligations.DecodeRule := by
  unfold Obligations.DecodeRule
  intro w
  have hopc : ∀ {o : BitVec 8}, (opcField w).toNat = o.toNat → opcField w = o := BitVec.eq_of_toNat_eq
  refine ⟨decode_of_illegal_opcode, fun ⟨h1, h7, h⟩ => decode_of_illegal_fields h1 h7 h, ?_, ?_, ?_, ?_, ?_, ?_, ?_⟩
  · rintro ⟨ho, hsel⟩
    exact (decode_construct (hopc ho)).trans (if_pos hsel)
  · rintro ⟨ho, hfields⟩
    exact (decode_setVowel (hopc ho)).trans (if_pos hfields)
  · rintro ⟨ho, hfields⟩
    exact (decode_getVowel (hopc ho)).trans (if_pos hfields)
  · rintro ⟨ho, hsel⟩
    exact (decode_setLfo (hopc ho)).trans (if_pos hsel)
  · rintro ⟨ho, hsel⟩
    exact (decode_process (hopc ho)).trans (if_pos hsel)
  · rintro ⟨ho, hsel⟩
    exact (decode_dynCfg (hopc ho)).trans (if_pos (decide_eq_true hsel))
  · rintro ⟨ho, hsel⟩
    exact (decode_dynProc (hopc ho)).trans (if_pos hsel)

/-- Settles O4: each legal word is the word of its command, and each of the two illegal ones fails a check of R96. -/
theorem workedEncodings : Obligations.WorkedEncodings := by
  unfold Obligations.WorkedEncodings
  exact ⟨decodeOfEncode (.construct 0x3F000000#32 0x472C4400#32) rfl, decodeOfEncode (.setVowel 0x3E800000#32) rfl,
    decodeOfEncode .getVowel rfl, decodeOfEncode (.setLfo 0x3F000000#32 0x3F800000#32) rfl,
    decodeOfEncode (.process 0x3FF0000000000000#64) rfl, decodeOfEncode (.dynCfg 10#8 0x3FF0000000000000#64) rfl,
    decodeOfEncode (.dynProc 0x3FE0000000000000#64) rfl, decode_of_illegal_opcode (by decide),
    decode_of_illegal_fields (by decide) (by decide) (by decide)⟩

/-! ## The answer to every command (R93, R230, R232) -/

@[simp] theorem responseData_responseWord (c : Nat) (d : BitVec 64) : responseData (responseWord c d) = d :=
  BitVec.extractLsb'_append_eq_right

@[simp] theorem responseCause_responseWord (c : Nat) (d : BitVec 64) :
    responseCause (responseWord c d) = BitVec.ofNat 8 c :=
  BitVec.extractLsb'_append_eq_left

/-- Every code of R230 fits the `CAUSE` field. -/
theorem responseCause_toNat {c : Nat} (hc : c ≤ 7) (d : BitVec 64) : (responseCause (responseWord c d)).toNat = c := by
  rw [responseCause_responseWord, BitVec.toNat_ofNat, Nat.mod_eq_of_lt (by omega)]

theorem code_bounds (c : Cause) : 1 ≤ c.code ∧ c.code ≤ 7 := by cases c <;> decide

theorem constructRegs_data {v0 sr : F32} {w : UnitRegs} {y : BitVec 64}
    (h : constructRegs machineParams v0 sr = .ok (w, y)) : y = 0#64 := by
  unfold constructRegs at h
  split at h
  · cases h
  · split at h
    · cases h
    · obtain ⟨k, -, hw⟩ := bind_eq_ok h
      cases hw
      rfl

theorem setVowelRegs_data {v : F32} {u w : UnitRegs} {y : BitVec 64} (h : setVowelRegs v u = .ok (w, y)) :
    y = 0#64 := by
  unfold setVowelRegs at h
  split at h
  · cases h
  · obtain ⟨w', -, hw⟩ := bind_eq_ok h
    cases hw
    rfl

theorem setLfoRegs_data {rp d : F32} {u w : UnitRegs} {y : BitVec 64}
    (h : setLfoRegs machineParams rp d u = .ok (w, y)) : y = 0#64 := by
  unfold setLfoRegs at h
  split at h
  · cases h
  · split at h
    · obtain ⟨w', -, hw⟩ := bind_eq_ok h
      cases hw
      rfl
    · cases h
      rfl

theorem dynCfgRegs_data {sel : BitVec 8} {x : F64} {u w : UnitRegs} {y : BitVec 64}
    (h : dynCfgRegs sel x u = .ok (w, y)) : y = 0#64 := by
  unfold dynCfgRegs at h
  split at h
  · cases h
  · split at h <;> cases h
    rfl

/-- The `DATA` a successful command may answer: zero, except for GETVOWEL, PROCESS and DYNPROC (R93). -/
def DataAllowed (i : Instr) (y : BitVec 64) : Prop :=
  y = 0#64 ∨ i = .getVowel ∨ (∃ x, i = .process x) ∨ ∃ x, i = .dynProc x

/-- A fault taken, or new registers committed with a `DATA` the command may answer. -/
def PreciseOutcome (i : Instr) (s t : State) : Prop :=
  (∃ c, t = raise c s) ∨ ∃ u y, DataAllowed i y ∧ t = respond 0 y { s with unit := some u }

theorem preciseOutcome_of_commit {i : Instr} {s t : State} {r : Except Cause (UnitRegs × BitVec 64)}
    (h : commit r s = .next t) (hdata : ∀ u y, r = .ok (u, y) → DataAllowed i y) : PreciseOutcome i s t := by
  rcases commit_cases h with ⟨u, y, hr, ht⟩ | ⟨c, -, ht⟩
  · cases ht
    exact .inr ⟨u, y, hdata u y hr, rfl⟩
  · cases ht
    exact .inl ⟨c, rfl⟩

theorem preciseOutcome_of_onConstructed {i : Instr} {s t : State}
    {run : UnitRegs → Except Cause (UnitRegs × BitVec 64)} (h : onConstructed s run = .next t)
    (hdata : ∀ u w y, run u = .ok (w, y) → DataAllowed i y) : PreciseOutcome i s t := by
  rcases onConstructed_cases h with ⟨-, ht⟩ | ⟨u, -, ⟨w, y, hr, ht⟩ | ⟨c, -, ht⟩⟩
  · cases ht
    exact .inl ⟨_, rfl⟩
  · cases ht
    exact .inr ⟨w, y, hdata u w y hr, rfl⟩
  · cases ht
    exact .inl ⟨c, rfl⟩

/-- Every command answers once, and only three of them with data (R93). -/
theorem preciseOutcome_of_exec {i : Instr} {s t : State} (h : exec i s = .next t) : PreciseOutcome i s t := by
  cases i with
  | construct v0 sr => exact preciseOutcome_of_commit h fun _ _ hr => .inl (constructRegs_data hr)
  | setVowel v => exact preciseOutcome_of_onConstructed h fun _ _ _ hr => .inl (setVowelRegs_data hr)
  | getVowel => exact preciseOutcome_of_onConstructed h fun _ _ _ _ => .inr (.inl rfl)
  | setLfo rp d => exact preciseOutcome_of_onConstructed h fun _ _ _ hr => .inl (setLfoRegs_data hr)
  | process x => exact preciseOutcome_of_onConstructed h fun _ _ _ _ => .inr (.inr (.inl ⟨x, rfl⟩))
  | dynCfg sel x =>
    change execDynCfg sel x s = _ at h
    unfold execDynCfg at h
    split at h
    · exact preciseOutcome_of_onConstructed h fun _ _ _ hr => .inl (dynCfgRegs_data hr)
    · cases h
      exact .inl ⟨_, rfl⟩
  | dynProc x => exact preciseOutcome_of_onConstructed h fun _ _ _ _ => .inr (.inr (.inr ⟨x, rfl⟩))

/-- Settles O10: the response is that of a fault, which only sets its cause's bit, or that of a commit, whose cause is
0. -/
theorem faultsArePrecise : Obligations.FaultsArePrecise := by
  unfold Obligations.FaultsArePrecise
  refine ⟨fun c d hc => ⟨responseCause_toNat hc d, responseData_responseWord c d⟩, fun _ => ⟨rfl, rfl⟩, ?_⟩
  intro i s t h
  rcases preciseOutcome_of_exec h with ⟨c, rfl⟩ | ⟨u, y, hdata, rfl⟩
  · obtain ⟨h1, h7⟩ := code_bounds c
    have hcause := responseCause_toNat h7 0#64
    refine ⟨_, rfl, rfl, hcause.trans_le h7, fun h0 => ?_, fun _ => ⟨rfl, responseData_responseWord _ _, ?_⟩⟩
    · have hzero : 0 = c.code := (congrArg BitVec.toNat h0).symm.trans hcause
      omega
    · exact congrArg (fun n => s.statusFault ||| (1#8 <<< n)) hcause.symm
  · have hcause := responseCause_responseWord 0 y
    have hle := (responseCause_toNat (Nat.zero_le 7) y).trans_le (Nat.zero_le 7)
    have hallowed : DataAllowed i (responseData (responseWord 0 y)) := by rwa [responseData_responseWord]
    exact ⟨_, rfl, rfl, hle, fun _ => ⟨rfl, rfl, hallowed⟩, fun hne => absurd hcause hne⟩

/-- Settles O34: the registers committed are the old ones. -/
theorem getVowelAnswersTheVowel : Obligations.GetVowelAnswersTheVowel := by
  unfold Obligations.GetVowelAnswersTheVowel
  exact fun s u => exec_getVowel

/-! ## SETLFO and LFOOFF (R100 (c), R183) -/

theorem setLfoRegs_of_same {p : Params} {rp d : F32} {S : Nat} {u : Regs S} (hrp : isNaN32 rp = false)
    (hd : isNaN32 d = false) (hsame : lfoChanged rp d u = false) :
    setLfoRegs p rp d u = .ok (setLfoRate p rp u, 0#64) := by
  rw [setLfoRegs, hrp, hd, hsame]
  rfl

theorem setLfoRegs_of_changed {p : Params} {rp d : F32} {S : Nat} {u : Regs S} {k : Fin entries}
    (hrp : isNaN32 rp = false) (hd : isNaN32 d = false) (hchanged : lfoChanged rp d u = true)
    (hk : selectEntry
      (retrack (cacheLfo { setLfoRate p rp u with lfoDepth := controlOperand d })).tempVowel = .ok k) :
    setLfoRegs p rp d u =
      .ok ({ retrack (cacheLfo { setLfoRate p rp u with lfoDepth := controlOperand d }) with coeffOffset := k },
        0#64) := by
  rw [setLfoRegs, hrp, hd, hchanged, cacheCoeffOffset, hk]
  rfl

/-- The next state of a successful SETLFO. -/
theorem exec_setLfo {rp d : F32} {s : State} {u : UnitRegs} {r : UnitRegs × BitVec 64} (hu : s.unit = some u)
    (hr : setLfoRegs machineParams rp d u = .ok r) :
    exec (.setLfo rp d) s = .next { s with responses := responseWord 0 r.2 :: s.responses, unit := some r.1 } := by
  show onConstructed s (setLfoRegs machineParams rp d) = _
  rw [onConstructed_some hu, hr]
  rfl

theorem controlOperand_zero : controlOperand 0#32 = fzero := by decide +kernel

theorem lfoEnables_zero : lfoEnables 0#32 = false := by
  rw [lfoEnables, controlOperand_zero]
  decide

/-- With the LFO off `retrack` takes the working vowel from the base vowel. -/
theorem retrack_tempVowel_lfoOff {S : Nat} {u : Regs S} (h : u.hasLfo = false) : (retrack u).tempVowel = u.vowel := by
  rw [retrack, h]
  rfl

/-- A SETLFO that disables the LFO leaves the working vowel at the base vowel and the LFO phase alone (R183 (a)). -/
theorem setLfoRegs_lfoOff {rp d : F32} {u : UnitRegs} (hoff : lfoEnables rp = false) (h : VowelLegal u)
    (hrp : isNaN32 rp = false) (hd : isNaN32 d = false) :
    ∃ w, setLfoRegs machineParams rp d u = .ok (w, 0#64) ∧ w.hasLfo = false ∧
      w.lrate = rateMap machineParams (controlOperand rp) ∧ w.tempVowel = u.vowel ∧ w.lphase = u.lphase := by
  cases hchanged : lfoChanged rp d u with
  | false =>
    have hlfo : u.hasLfo = false := by rw [← setLfoRate_hasLfo_of_same hchanged, setLfoRate_hasLfo, hoff]
    exact ⟨_, setLfoRegs_of_same hrp hd hchanged, hoff, rfl, h.tracks hlfo, rfl⟩
  | true =>
    have htemp : (retrack (cacheLfo
        { setLfoRate machineParams rp u with lfoDepth := controlOperand d })).tempVowel = u.vowel :=
      retrack_tempVowel_lfoOff hoff
    obtain ⟨k, hk⟩ := selectEntry_ok h.vowel.inUnit
    exact ⟨_, setLfoRegs_of_changed hrp hd hchanged ((congrArg selectEntry htemp).trans hk), hoff, rfl, htemp, rfl⟩

/-- Settles O40: an LFO already off with the same depth tracks the vowel by `VowelLegal`, any other is retracked to
it; a rate of 0 is the least rate. -/
theorem lfoOffTracksTheVowel : Obligations.LfoOffTracksTheVowel := by
  unfold Obligations.LfoOffTracksTheVowel
  intro s u d hu hlegal hd
  obtain ⟨w, hr, hlfo, hrate, htemp, hphase⟩ := setLfoRegs_lfoOff lfoEnables_zero hlegal (by decide) hd
  rw [controlOperand_zero, rateMap_fzero] at hrate
  exact ⟨_, w, exec_setLfo hu hr, rfl, rfl, hlfo, hrate, htemp, hphase⟩

/-! ## DYNCONFIGURE (R100 (b)) -/

/-- A selector with a value that DYNCFG accepts for it (R210). -/
def SettingAccepted (setting : BitVec 8 × F64) : Prop :=
  setting.1.toNat ≤ 10 ∧ isNaN setting.2 = false ∧ configRefused setting.1 setting.2 = false

/-- A finite value is accepted for every register but `THR` and `MODE`. -/
theorem settingAccepted_of_finite {sel : BitVec 8} {x : F64} (hx : isFinite x = true) (hle : sel.toNat ≤ 10)
    (h0 : sel ≠ 0#8) (h10 : sel ≠ 10#8) : SettingAccepted (sel, x) :=
  ⟨hle, not_isNaN_of_isFinite hx,
    configRefused_eq_false hx (fun h => absurd h h0) (fun h => absurd h h10)⟩

theorem settingAccepted_thr {x : F64} (hx : isPositive x = true) : SettingAccepted (0#8, x) := by
  have hf := isFinite_of_isPositive hx
  rw [isPositive, hf, Bool.true_and] at hx
  exact ⟨Nat.zero_le 10, not_isNaN_of_isFinite hf, configRefused_eq_false hf (fun _ => hx) nofun⟩

theorem settingAccepted_mode (mode : Bool) : SettingAccepted (10#8, if mode then fone else fzero) := by
  cases mode <;> exact ⟨by decide, by decide, by decide⟩

/-- Accepted DYNCFG commands, one after the other, write their registers in turn and succeed. -/
theorem runCommands_dynCfg {settings : List (BitVec 8 × F64)} (haccept : ∀ p ∈ settings, SettingAccepted p)
    {s : State} {u : UnitRegs} (hu : s.unit = some u) :
    ∃ t, runCommands (settings.map fun p => .dynCfg p.1 p.2) s = .next t ∧
      t.unit = some { u with dyn := settings.foldl (fun c p => setDynReg c p.1 p.2) u.dyn } ∧
      t.statusFault = s.statusFault ∧ t.input = s.input ∧
      t.responses.length = s.responses.length + settings.length := by
  induction settings generalizing s u with
  | nil => exact ⟨s, rfl, hu, rfl, rfl, rfl⟩
  | cons p rest ih =>
    obtain ⟨⟨hsel, hnan, hconfig⟩, hrest⟩ := List.forall_mem_cons.1 haccept
    have hexec := exec_dynCfg hu hsel hnan hconfig
    obtain ⟨t, hrun, hunit, hfault, hinput, hlen⟩ := ih hrest (s := { s with
      responses := responseWord 0 0#64 :: s.responses, unit := some { u with dyn := setDynReg u.dyn p.1 p.2 } }) rfl
    refine ⟨t, (runCommands_cons hexec).trans hrun, hunit, hfault, hinput, ?_⟩
    rw [hlen, List.length_cons, List.length_cons]
    omega

/-- The selectors of DYNCONFIGURE with their values, in the order it sends them. -/
def dynSettings (c : DynRegs) : List (BitVec 8 × F64) :=
  [(0#8, c.thr), (1#8, c.rat), (2#8, c.trim), (3#8, c.att), (4#8, c.rel), (5#8, c.lthr), (6#8, c.xthr), (7#8, c.gatt),
   (8#8, c.xrat), (9#8, c.dry), (10#8, if c.mode then fone else fzero)]

theorem dynConfigure_eq_map (c : DynRegs) :
    dynConfigure c.thr c.rat c.trim c.att c.rel c.lthr c.xthr c.gatt c.xrat c.dry (if c.mode then fone else fzero) =
      (dynSettings c).map fun p => .dynCfg p.1 p.2 := rfl

theorem dynSettings_accepted {c : DynRegs} (h : DynAccepted c) : ∀ p ∈ dynSettings c, SettingAccepted p := by
  obtain ⟨thr, rat, trim, att, rel, lthr, xthr, gatt, xrat, dry⟩ := h
  have finite : ∀ {sel : BitVec 8} {x : F64}, isFinite x = true → sel.toNat ≤ 10 ∧ sel ≠ 0#8 ∧ sel ≠ 10#8 →
      SettingAccepted (sel, x) := fun hx ⟨hle, h0, h10⟩ => settingAccepted_of_finite hx hle h0 h10
  simp only [dynSettings, List.forall_mem_cons]
  exact ⟨settingAccepted_thr thr, finite rat (by decide), finite trim (by decide), finite att (by decide),
    finite rel (by decide), finite lthr (by decide), finite xthr (by decide), finite gatt (by decide),
    finite xrat (by decide), finite dry (by decide), settingAccepted_mode _, List.forall_mem_nil _⟩

/-- The eleven settings overwrite every register, whatever it held. -/
theorem foldl_dynSettings (old c : DynRegs) :
    (dynSettings c).foldl (fun c p => setDynReg c p.1 p.2) old = c := by
  have hmode : feq (if c.mode then fone else fzero) fone = c.mode := by cases c.mode <;> decide
  simp [dynSettings, setDynReg, hmode]

/-- Settles O59: DYNCONFIGURE is eleven accepted settings, which together overwrite every register. -/
theorem dynConfigureLoadsEveryRegister : Obligations.DynConfigureLoadsEveryRegister := by
  unfold Obligations.DynConfigureLoadsEveryRegister
  intro s u c hu haccept
  have h := runCommands_dynCfg (dynSettings_accepted haccept) hu
  rwa [foldl_dynSettings, ← dynConfigure_eq_map] at h

end Sys2Proof.Machine

/-! # Proofs: the formant table (R120 to R127) -/

namespace Sys2Proof.Machine

open Sys2Proof.Config

/-! ## Products with one, and products and sums with a zero -/

theorem isNaN_eq_false_cases {x : F64} (h : isNaN x = false) : isInf x = true ∨ isFinite x = true := by
  cases hi : isInf x with
  | true => exact .inl rfl
  | false => exact .inr (isFinite_of_not h hi)

theorem fmag_fone : fmag fone = oneUnits := by decide +kernel

theorem fmul_fone {x : F64} (hx : isFinite x = true) : fmul x fone = x := by
  have hs : fsign fone = false := by decide
  rw [fmul_of_finite hx isFinite_fone, hs, Bool.bne_false, fmag_fone, ofUnits_fmag hx oneUnits_pos]

theorem fone_fmul {x : F64} (hx : isFinite x = true) : fmul fone x = x := by
  rw [fmul_comm_of_finite isFinite_fone hx, fmul_fone hx]

theorem fmul_fneg {x y : F64} (hx : isFinite x = true) (hy : isFinite y = true) :
    fmul x (fneg y) = fneg (fmul x y) := by
  rw [fmul_of_finite hx hy, fmul_of_finite hx (by simpa using hy), fneg_ofUnits, fsign_fneg, fmag_fneg]
  simp

theorem isZero_fmul_fzero {d : F64} (hd : isFinite d = true) : isZero (fmul fzero d) = true := by
  rw [fmul_zero_factor isFinite_fzero hd (Or.inl (by decide)), isZero_iff, fbits_withSign _ (by decide)]

theorem fval_of_isZero {z : F64} (hz : isZero z = true) : fval z = 0 := by
  have hm := fmag_eq_zero.2 ((isZero_iff z).1 hz)
  rw [fval_eq_signed, hm]
  simp

theorem fval_ne_zero {x : F64} (h : isZero x = false) : fval x ≠ 0 := by
  have hpos := fmag_pos_of_not_isZero h
  rw [← natAbs_fval] at hpos
  omega

/-- A negative word of value zero is `-0`. -/
theorem eq_negZero {x : F64} (hs : fsign x = true) (h : fval x = 0) : x = 0x8000000000000000#64 := by
  have hm : fmag x = 0 := by rw [← natAbs_fval, h]; rfl
  exact f64_ext hs (fmag_eq_zero.1 hm)

theorem fsign_of_fval_zero {x : F64} (hne : x ≠ 0x8000000000000000#64) (h : fval x = 0) : fsign x = false :=
  Bool.eq_false_iff.2 fun hs => hne (eq_negZero hs h)

/-- Adding a zero of either sign keeps a finite word other than `-0`. -/
theorem fadd_zero {x z : F64} (hx : isFinite x = true) (hne : x ≠ 0x8000000000000000#64) (hz : isZero z = true) :
    fadd x z = x := by
  have hv := fval_of_isZero hz
  by_cases h0 : fval x = 0
  · have hs := fsign_of_fval_zero hne h0
    rw [fadd_zero_sum hx (isFinite_of_isZero hz) (by omega), hs, eq_fzero hs h0]
    rfl
  · exact fadd_exact hx (isFinite_of_isZero hz) hx h0 (by omega)

theorem isFinite_fadd_zero {x z : F64} (hx : isFinite x = true) (hz : isZero z = true) :
    isFinite (fadd x z) = true := by
  have hv := fval_of_isZero hz
  exact (fadd_between hx (isFinite_of_isZero hz) hx hx (by omega) (by omega)).1

theorem fzero_fadd {x : F64} (hx : isFinite x = true) (h0 : isZero x = false) : fadd fzero x = x :=
  fadd_exact isFinite_fzero hx hx (fval_ne_zero h0) (by rw [fval_fzero, Int.zero_add])

/-! ## `fast_cos` (R120) -/

/-- A square does not depend on the sign. -/
theorem fmul_fneg_self {x : F64} (h : isNaN x = false) : fmul (fneg x) (fneg x) = fmul x x := by
  rcases isNaN_eq_false_cases h with hinf | hfin
  · have hsq := fmul_inf h h (.inl hinf)
    have hneg := fmul_inf (x := fneg x) (y := fneg x) (by simpa using h) (by simpa using h) (.inl (by simpa using hinf))
    rw [not_isZero_of_isInf hinf] at hsq
    rw [isZero_fneg, not_isZero_of_isInf hinf] at hneg
    exact hneg.trans (by simpa using hsq.symm)
  · have hfin' : isFinite (fneg x) = true := by simpa using hfin
    rw [fmul_of_finite hfin' hfin', fmul_of_finite hfin hfin, fmag_fneg, bne_self_eq_false, bne_self_eq_false]

theorem fastCos_fneg {x : F64} (h : isNaN x = false) : fastCos (fneg x) = fastCos x := by
  rw [fastCos, fmul_fneg_self h, fastCos]

theorem isNaN_fastCos {x : F64} (h : isNaN x = true) : isNaN (fastCos x) = true := by
  obtain ⟨-, -, hsq, -⟩ := isNaN_operations (.inl h : isNaN x = true ∨ isNaN x = true)
  obtain ⟨-, -, hmul, -⟩ := isNaN_operations
    (.inl hsq : isNaN (fmul x x) = true ∨ isNaN (fsub (fmul ftwo (fmul x x)) ffour) = true)
  exact (isNaN_operations (.inr hmul)).1

/-- Settles O25: `fast_cos` reads its operand through its square alone. -/
theorem fastCosCorners : Obligations.FastCosCorners := by
  unfold Obligations.FastCosCorners
  refine ⟨fun x => fastCos_fneg, fun x => isNaN_fastCos, ?_⟩
  decide +kernel

/-! ## Counts as words (R11) -/

theorem fval_natToF64 {m : Nat} (hm : m < 2 ^ 53) : fval (natToF64 m) = m * oneUnits := (natToF64_exact hm).2

theorem isFinite_natToF64 {m : Nat} (hm : m < 2 ^ 53) : isFinite (natToF64 m) = true := (natToF64_exact hm).1

theorem fval_natToF64_nonneg {m : Nat} (hm : m < 2 ^ 53) : 0 ≤ fval (natToF64 m) := by
  rw [fval_natToF64 hm]
  exact Int.mul_nonneg (Int.natCast_nonneg m) oneUnits_int_pos.le

@[simp] theorem fsign_natToF64 (m : Nat) : fsign (natToF64 m) = false := fsign_ofUnits _ _ _

theorem fmag_natToF64 {m : Nat} (hm : m < 2 ^ 53) : fmag (natToF64 m) = m * oneUnits := by
  rw [← natAbs_fval, fval_natToF64 hm, Int.natAbs_mul, Int.natAbs_natCast, Int.natAbs_natCast]

theorem natToF64_nonneg {m : Nat} (hm : m < 2 ^ 53) : fle fzero (natToF64 m) = true := by
  rw [fle_iff_fval (by decide) (not_isNaN_of_isFinite (isFinite_natToF64 hm)), fval_fzero]
  exact fval_natToF64_nonneg hm

theorem isPositive_natToF64 {m : Nat} (h0 : 0 < m) (hm : m < 2 ^ 53) : isPositive (natToF64 m) = true := by
  rw [isPositive_iff, fval_natToF64 hm]
  exact ⟨isFinite_natToF64 hm, Int.mul_pos (by omega) oneUnits_int_pos⟩

theorem fmul_natToF64 {a b : Nat} (ha : a < 2 ^ 53) (hb : b < 2 ^ 53) :
    fmul (natToF64 a) (natToF64 b) = natToF64 (a * b) := by
  have hscale := ofUnits_mul_right false (a * b * oneUnits) 1 oneUnits_pos
  rw [Nat.one_mul] at hscale
  rw [fmul_of_finite (isFinite_natToF64 ha) (isFinite_natToF64 hb), fmag_natToF64 ha, fmag_natToF64 hb,
    Nat.mul_mul_mul_comm, ← Nat.mul_assoc, fsign_natToF64, fsign_natToF64, bne_self_eq_false, hscale, natToF64]

/-! ## Wrap continuity (R123) -/

theorem entryPhase_first : entryPhase 0 = fneg fone := by decide +kernel

theorem entryPhase_last : entryPhase 256 = fone := by decide +kernel

/-- A sum of two finite words mirrors when both do, unless it is an exact zero, which is `+0` either way. -/
theorem fadd_fneg_fneg {x y : F64} (hx : isFinite x = true) (hy : isFinite y = true) (h0 : fval x + fval y ≠ 0) :
    fadd (fneg x) (fneg y) = fneg (fadd x y) := by
  have hneg : fval (fneg x) + fval (fneg y) = -(fval x + fval y) := by rw [fval_fneg, fval_fneg]; omega
  rw [fadd_of_finite hx hy, fadd_of_finite (by simpa using hx) (by simpa using hy), hneg, if_neg h0,
    if_neg (by omega), fneg_ofUnits, Int.natAbs_neg]
  congr 1
  rw [← decide_not, decide_eq_decide]
  omega

section Wrap
variable {q x : F64}

theorem fval_add_of_same_sign (hq0 : isZero q = false) (hs : fsign x = fsign q) :
    fval x + fval q ≠ 0 ∧ decide (fval x + fval q < 0) = fsign q := by
  have hpos := fmag_pos_of_not_isZero hq0
  rw [fval_eq_signed, fval_eq_signed, hs]
  cases fsign q with
  | false => simp only [Bool.false_eq_true, if_false, decide_eq_false_iff_not]; omega
  | true => simp only [if_true, decide_eq_true_eq]; omega

/-- One advance of a running phase that has the sign of its increment mirrors with both, and keeps that sign, an
overflow to infinity included. -/
theorem fadd_mirrored (hq : isFinite q = true) (hq0 : isZero q = false) (hx : isNaN x = false)
    (hs : fsign x = fsign q) :
    fadd (fneg x) (fneg q) = fneg (fadd x q) ∧ isNaN (fadd x q) = false ∧ fsign (fadd x q) = fsign q := by
  rcases isNaN_eq_false_cases hx with hinf | hfin
  · rw [fadd_inf_left hinf hq, fadd_inf_left (by simpa using hinf) (by simpa using hq)]
    exact ⟨rfl, hx, hs⟩
  · obtain ⟨h0, hsum⟩ := fval_add_of_same_sign hq0 hs
    refine ⟨fadd_fneg_fneg hfin hq h0, isNaN_fadd hfin hq, ?_⟩
    rw [fadd_of_finite hfin hq, if_neg h0, fsign_ofUnits, hsum]

end Wrap

section Trace
variable {p : Params}

theorem formantTrace_zero (phase : F64) (i : Nat) : formantTrace p phase i 0 = (fhalf, fzero) := rfl

/-- With a zero `PI` the running phase never leaves `+0`. -/
theorem formantTrace_phase_of_zero_pi (hpi : isZero p.pi = true) {phase : F64} (hphase : isFinite phase = true)
    (i h : Nat) : (formantTrace p phase i h).2 = fzero := by
  induction h with
  | zero => rfl
  | succ h ih =>
    have hzero : isZero (fmul p.pi phase) = true := by
      rw [fmul_zero_factor (isFinite_of_isZero hpi) hphase (Or.inl (fmag_eq_zero.2 ((isZero_iff _).1 hpi))), isZero_iff,
        fbits_withSign _ (by decide)]
    rw [formantTrace_phase_succ, ih, fadd_zero isFinite_fzero (by decide) hzero]

/-- With any other finite `PI` the running phases of the first and the last entry mirror each other. -/
theorem formantTrace_phase_mirrored (hpi : isFinite p.pi = true) (h0 : isZero p.pi = false) (i h : Nat) :
    (formantTrace p (fneg fone) i (h + 1)).2 = fneg (formantTrace p fone i (h + 1)).2 ∧
      isNaN (formantTrace p fone i (h + 1)).2 = false ∧ fsign (formantTrace p fone i (h + 1)).2 = fsign p.pi := by
  rw [formantTrace_phase_succ, formantTrace_phase_succ, fmul_fneg hpi isFinite_fone, fmul_fone hpi]
  induction h with
  | zero =>
    rw [formantTrace_zero, formantTrace_zero, fzero_fadd hpi h0, fzero_fadd (by simpa using hpi) (by simpa using h0)]
    exact ⟨rfl, not_isNaN_of_isFinite hpi, rfl⟩
  | succ h ih =>
    obtain ⟨hneg, hn, hs⟩ := ih
    rw [formantTrace_phase_succ, formantTrace_phase_succ, fmul_fneg hpi isFinite_fone, fmul_fone hpi, hneg]
    exact fadd_mirrored hpi h0 hn hs

/-- An even cosine has the same value at the running phases of the first and the last entry. -/
theorem cos_formantTrace_ends (hcos : CosEven p.num) (hpi : isFinite p.pi = true) (i h : Nat) :
    p.num.cos (formantTrace p fone i (h + 1)).2 = p.num.cos (formantTrace p (fneg fone) i (h + 1)).2 := by
  cases h0 : isZero p.pi with
  | true => rw [formantTrace_phase_of_zero_pi h0 isFinite_fone, formantTrace_phase_of_zero_pi h0 (by decide)]
  | false => rw [(formantTrace_phase_mirrored hpi h0 i h).1, hcos]

theorem formantTrace_sum_ends (hcos : CosEven p.num) (hpi : isFinite p.pi = true) (i h : Nat) :
    (formantTrace p fone i h).1 = (formantTrace p (fneg fone) i h).1 := by
  induction h with
  | zero => rw [formantTrace_zero, formantTrace_zero]
  | succ h ih => rw [formantTrace_sum_succ, formantTrace_sum_succ, ih, cos_formantTrace_ends hcos hpi]

end Trace

/-- Settles O21: entries 0 and 256 are at the phases -1 and 1, whose running phases mirror each other. -/
theorem tableWrapsContinuously : Obligations.TableWrapsContinuously := by
  unfold Obligations.TableWrapsContinuously
  intro p hcos hpi i hi
  rw [read_buildTable_cell p (by decide) hi, read_buildTable_cell p (by decide) hi, entryPhase_first, entryPhase_last,
    generateFormant_eq_trace, generateFormant_eq_trace, formantTrace_sum_ends hcos hpi]

/-! ## Words of bounded magnitude -/

/-- Finite, and at most `c` in magnitude. -/
def Within (c : Nat) (x : F64) : Prop := isFinite x = true ∧ fmag x ≤ c * oneUnits

/-- A rounding of at most `c` is at most `c`, since `c` is a binary64. -/
theorem within_ofUnits (s : Bool) {n d c : Nat} (hd : 0 < d) (hc : c < 2 ^ 53) (h : n ≤ c * oneUnits * d) :
    Within c (ofUnits s n d) := by
  rw [← fmag_natToF64 hc] at h
  have hraw : roundRaw 52 n d ≤ fbits (natToF64 c) := roundRaw_le hd h
  have hfin : isFinite (ofUnits s n d) = true :=
    (isFinite_ofUnits_iff s n d).2 (hraw.trans_lt ((isFinite_iff _).1 (isFinite_natToF64 hc)))
  refine ⟨hfin, ?_⟩
  rw [← fmag_natToF64 hc, fmag_le_iff, fbits_ofUnits_of_isFinite hfin]
  exact hraw

section Within
variable {a b : Nat} {x y : F64}

theorem Within.mono (hx : Within a x) (h : a ≤ b) : Within b x :=
  ⟨hx.1, hx.2.trans (Nat.mul_le_mul_right _ h)⟩

theorem Within.fneg (hx : Within a x) : Within a (fneg x) := ⟨by simpa using hx.1, by simpa using hx.2⟩

theorem Within.fadd (hx : Within a x) (hy : Within b y) (h : a + b < 2 ^ 53) : Within (a + b) (fadd x y) := by
  obtain ⟨xf, hx⟩ := hx
  obtain ⟨yf, hy⟩ := hy
  rw [fadd_of_finite xf yf]
  split
  · refine ⟨isFinite_withSign_zero _, ?_⟩
    rw [← natAbs_fval, fval_withSign_zero]
    exact Nat.zero_le _
  · refine within_ofUnits _ one_pos h ?_
    have hsum := Int.natAbs_add_le (fval x) (fval y)
    rw [natAbs_fval, natAbs_fval] at hsum
    rw [Nat.mul_one, Nat.add_mul]
    omega

theorem Within.fsub (hx : Within a x) (hy : Within b y) (h : a + b < 2 ^ 53) : Within (a + b) (fsub x y) :=
  hx.fadd hy.fneg h

theorem Within.fmul (hx : Within a x) (hy : Within b y) (h : a * b < 2 ^ 53) : Within (a * b) (fmul x y) := by
  obtain ⟨xf, hx⟩ := hx
  obtain ⟨yf, hy⟩ := hy
  rw [fmul_of_finite xf yf]
  refine within_ofUnits _ oneUnits_pos h ((Nat.mul_le_mul hx hy).trans_eq ?_)
  ring

/-- A quotient of a magnitude by a greater one is within 1. -/
theorem within_fdiv (hx : isFinite x = true) (hy : isFinite y = true) (h0 : isZero y = false)
    (h : fmag x ≤ fmag y) : Within 1 (fdiv x y) := by
  rw [fdiv_of_finite hx hy h0]
  refine within_ofUnits _ (fmag_pos_of_not_isZero h0) (by decide) ?_
  rw [Nat.one_mul, Nat.mul_comm]
  exact Nat.mul_le_mul_left _ h

theorem within_of_fle_fabs (h : fle (fabs x) y = true) (hy : Within b y) : Within b x := by
  obtain ⟨hn, -, hle⟩ := (fle_iff _ _).1 h
  obtain ⟨yf, hy⟩ := hy
  have hbits : fbits x ≤ fbits y := by
    rw [ford_fabs, ford] at hle
    split at hle <;> omega
  exact ⟨(isFinite_iff x).2 (hbits.trans_lt ((isFinite_iff y).1 yf)), (fmag_le_iff.2 hbits).trans hy⟩

theorem within_fone : Within 1 fone := ⟨isFinite_fone, by rw [fmag_fone, Nat.one_mul]⟩

theorem within_one_of_between (h1 : fle (fneg fone) x = true) (h2 : fle x fone = true) :
    Within 1 x := by
  refine ⟨isFinite_of_between (by decide) isFinite_fone h1 h2, ?_⟩
  have v1 := fval_le_of_fle h1
  have v2 := fval_le_of_fle h2
  rw [fval_fneg] at v1
  rw [fval_fone] at v1 v2
  rw [← natAbs_fval]
  omega

theorem within_of_inUnit (h : inUnit x = true) : Within 1 x := by
  obtain ⟨h0, h1⟩ := (inUnit_iff x).1 h
  exact within_one_of_between (fle_trans (by decide) h0) h1

end Within

/-! ## The weights of a harmonic (R121) -/

theorem within_fastCos {x : F64} (hx : Within 1 x) : Within 7 (fastCos x) := by
  have htwo : Within 2 ftwo := ⟨isFinite_ftwo, by decide +kernel⟩
  have hfour : Within 4 ffour := ⟨isFinite_ffour, by decide +kernel⟩
  have hsq := hx.fmul hx (by decide)
  have hdiff := (htwo.fmul hsq (by decide)).fsub hfour (by decide)
  exact (within_fone.fadd (hsq.fmul hdiff (by decide)) (by decide)).mono (by decide)

section Weights
variable {p : Params} {i h : Nat}

theorem harmonicMax_le (i : Nat) : harmonicMax i ≤ 128 := Nat.min_le_right _ _

theorem pos_of_lt_harmonicMax (hh : h < harmonicMax i) : 0 < i := by
  have hle : harmonicMax i ≤ 10 * i := Nat.min_le_left _ _
  omega

theorem within_hannWeight (hh : h < harmonicMax i) : Within 8 (hannWeight i h) := by
  have hmax := harmonicMax_le i
  have hh53 : h < 2 ^ 53 := by omega
  have hm53 : harmonicMax i < 2 ^ 53 := by omega
  have hm0 : isZero (natToF64 (harmonicMax i)) = false := by
    rw [isZero, decide_eq_false_iff_not, ← fmag_eq_zero, fmag_natToF64 hm53]
    exact (Nat.mul_pos (by omega) oneUnits_pos).ne'
  have hhalf : Within 1 fhalf := within_of_inUnit (by decide)
  have hratio : Within 1 (fdiv (natToF64 h) (natToF64 (harmonicMax i))) := by
    refine within_fdiv (isFinite_natToF64 hh53) (isFinite_natToF64 hm53) hm0 ?_
    rw [fmag_natToF64 hh53, fmag_natToF64 hm53]
    exact Nat.mul_le_mul_right _ hh.le
  exact (hhalf.fadd (hhalf.fmul (within_fastCos hratio) (by decide)) (by decide)).mono (by decide)

/-- The exponent of the Gaussian envelope is not above zero. -/
theorem gaussExponent_nonpos (hh : h < 2 ^ 26) (h0 : 0 < i) (hi : i < 2 ^ 26) :
    fle (fneg (fdiv (fmul (natToF64 h) (natToF64 h)) (fmul (natToF64 i) (natToF64 i)))) fzero = true := by
  have hhh : h * h < 2 ^ 53 := (Nat.mul_lt_mul'' hh hh).trans (by decide)
  have hii : i * i < 2 ^ 53 := (Nat.mul_lt_mul'' hi hi).trans (by decide)
  rw [fmul_natToF64 (by omega) (by omega), fmul_natToF64 (by omega) (by omega)]
  have hquot := fdiv_nonneg (natToF64_nonneg hhh) (isPositive_natToF64 (Nat.mul_pos h0 h0) hii)
  obtain ⟨hz, hn, hle⟩ := (fle_iff _ _).1 hquot
  rw [fle_iff, ford_fneg, isNaN_fneg]
  have hzero : ford fzero = 0 := by decide
  exact ⟨hn, hz, by omega⟩

theorem within_gaussWeight (hexp : ExpUnit p.num) (hh : h < harmonicMax i) (hi : i < 64) :
    Within 2 (gaussWeight p i h) := by
  have hmax := harmonicMax_le i
  have h085 : Within 1 f085 := within_of_inUnit (by decide)
  have h015 : Within 1 f015 := within_of_inUnit (by decide)
  obtain ⟨-, -, hunit⟩ := hexp
  obtain ⟨e0, e1⟩ := hunit _ (gaussExponent_nonpos (h := h) (by omega) (pos_of_lt_harmonicMax hh) (by omega))
  have henvelope := within_of_inUnit ((inUnit_iff _).2 ⟨e0, e1⟩)
  exact ((h085.fmul henvelope (by decide)).fadd h015 (by decide)).mono (by decide)

/-! ## The words of the table (R124, R127) -/

theorem entryPhase_bounds {j : Nat} (hj : j < 257) :
    fle (fneg fone) (entryPhase j) = true ∧ fle (entryPhase j) fone = true := by
  obtain ⟨pf, hval⟩ := entryPhase_exact hj
  have hn := not_isNaN_of_isFinite pf
  have hpos : 0 ≤ fval fone := by decide +kernel
  have hlo : (-128 : Int) * fval fone ≤ ((j : Int) - 128) * fval fone := Int.mul_le_mul_of_nonneg_right (by omega) hpos
  have hhi : ((j : Int) - 128) * fval fone ≤ 128 * fval fone := Int.mul_le_mul_of_nonneg_right (by omega) hpos
  rw [fle_iff_fval (by decide) hn, fle_iff_fval hn (by decide), fval_fneg]
  omega

theorem within_formantTrace_phase {phase : F64} (hpi : Within 4 p.pi) (hphase : Within 1 phase) (hh : h ≤ 128) :
    Within (4 * h) (formantTrace p phase i h).2 := by
  induction h with
  | zero =>
    rw [formantTrace_zero]
    exact ⟨isFinite_fzero, by decide +kernel⟩
  | succ h ih =>
    rw [formantTrace_phase_succ]
    exact ((ih (by omega)).fadd (hpi.fmul hphase (by decide)) (by omega)).mono (by omega)

/-- A sum that does not start from `-0` is not `-0`: a zero sum of two negative words needs two zeros, and no other sum
rounds to a zero. -/
theorem fadd_ne_negZero {x y : F64} (hx : isFinite x = true) (hy : isFinite y = true)
    (hne : x ≠ 0x8000000000000000#64) : fadd x y ≠ 0x8000000000000000#64 := by
  intro hsum
  have hv : fval (fadd x y) = 0 := by rw [hsum]; decide
  have hleast : isFinite (1#64 : F64) = true ∧ fval (1#64 : F64) = 1 := by decide
  obtain ⟨lf, lv⟩ := hleast
  rcases lt_trichotomy (fval x + fval y) 0 with hlt | h0 | hgt
  · have hle := fval_le_of_fle (fadd_le (w := fneg 1#64) hx hy (by simpa using lf) (by rw [fval_fneg]; omega))
    rw [fval_fneg] at hle
    omega
  · have hs : (fsign x && fsign y) = true := by
      rw [← fsign_fadd_of_zero_sum hx hy h0, hsum]; decide
    obtain ⟨sx, sy⟩ := Bool.and_eq_true_iff.1 hs
    rw [fval_eq_signed, fval_eq_signed y, sx, sy] at h0
    simp only [if_true] at h0
    exact hne (eq_negZero sx (by rw [fval_eq_signed, sx]; simp only [if_true]; omega))
  · have hle := fval_le_of_fle (le_fadd (w := 1#64) hx hy lf (by omega))
    omega

/-- After `h` harmonics the sum is at most `1 + 16 * h` in magnitude and is not `-0`. -/
theorem formantTrace_sum_bounds (hp : LawfulParams p) (hpi : Within 4 p.pi) {phase : F64} (hphase : Within 1 phase)
    (hi : i < 64) (hh : h ≤ harmonicMax i - 1) :
    Within (1 + 16 * h) (formantTrace p phase i h).1 ∧ (formantTrace p phase i h).1 ≠ 0x8000000000000000#64 := by
  have hmax := harmonicMax_le i
  induction h with
  | zero =>
    rw [formantTrace_zero]
    exact ⟨(within_of_inUnit (by decide)).mono (by decide), by decide⟩
  | succ h ih =>
    obtain ⟨hsum, hne⟩ := ih (by omega)
    obtain ⟨phif, -⟩ := within_formantTrace_phase (i := i) hpi hphase (show h + 1 ≤ 128 by omega)
    obtain ⟨c0, c1⟩ := hp.cosRange _ phif
    have hweight := (within_hannWeight (show h + 1 < harmonicMax i by omega)).fmul
      (within_gaussWeight hp.expUnit (show h + 1 < harmonicMax i by omega) hi) (by decide)
    have hterm := hweight.fmul (within_one_of_between c0 c1) (by decide)
    rw [formantTrace_sum_succ]
    exact ⟨(hsum.fadd hterm (by omega)).mono (by omega), fadd_ne_negZero hsum.1 hterm.1 hne⟩

end Weights

/-- Row 0 has no harmonics. -/
theorem generateFormant_row_zero (p : Params) (phase : F64) : generateFormant p phase 0 = fhalf := rfl

/-- Settles O22: each term is at most 16 in magnitude and a row has at most 127 of them, so no partial sum overflows. -/
theorem tableWordsAreFinite : Obligations.TableWordsAreFinite := by
  unfold Obligations.TableWordsAreFinite
  refine ⟨fun p j hj => ?_, fun p hp hpi a ha => ?_⟩
  · have hcell := read_buildTable_cell p hj (show 0 < 64 by decide)
    rw [Nat.mul_zero, Nat.add_zero, generateFormant_row_zero] at hcell
    exact hcell
  · have hsize : tableWords = 16448 := rfl
    have hpi4 : Within 4 p.pi := within_of_fle_fabs hpi ⟨isFinite_ffour, by decide +kernel⟩
    have hcell := read_buildTable_cell p (j := a % 257) (i := a / 257) (by omega) (by omega)
    rw [Nat.mod_add_div, generateFormant_eq_trace] at hcell
    rw [hcell]
    obtain ⟨p0, p1⟩ := entryPhase_bounds (show a % 257 < 257 by omega)
    obtain ⟨⟨hfin, -⟩, hne⟩ := formantTrace_sum_bounds hp hpi4 (within_one_of_between p0 p1)
      (show a / 257 < 64 by omega) le_rfl
    exact ⟨hfin, hne⟩

/-! ## The lookup at grid points (R125, R127) -/

theorem toNatOrBounds_natToF64 {m : Nat} (hm : m < 2 ^ 53) : toNatOrBounds (natToF64 m) = .ok m := by
  obtain ⟨n, hn, hlo, hhi⟩ := toNatOrBounds_of_nonneg (isFinite_natToF64 hm) (fval_natToF64_nonneg hm)
  rw [fval_natToF64 hm] at hlo hhi
  have h1 := count_le hlo le_rfl
  have h2 := Int.lt_of_mul_lt_mul_right hhi oneUnits_int_pos.le
  rw [hn, show n = m by omega]

/-- The phase of entry `j`, moved into `[0, 2]`, is exactly `j/128`. -/
theorem entryPhase_add_one {j : Nat} (hj : j < 257) :
    isFinite (fadd (entryPhase j) fone) = true ∧ 128 * fval (fadd (entryPhase j) fone) = (j : Int) * fval fone := by
  obtain ⟨pf, pval⟩ := entryPhase_exact hj
  have hone : fval fone = 128 * ((2 ^ 1067 : Nat) : Int) := by
    rw [fval_fone, oneUnits_eq]; exact Nat.cast_mul _ _
  have hsum : fval (entryPhase j) + fval fone = (j : Int) * ((2 ^ 1067 : Nat) : Int) := by
    rw [hone] at pval ⊢
    generalize ((2 ^ 1067 : Nat) : Int) = u at pval ⊢
    linarith
  obtain ⟨sf, sval⟩ := fadd_dyadic pf isFinite_fone (by omega) (by decide) hsum
  refine ⟨sf, ?_⟩
  rw [sval, hsum, hone]
  ring

/-- The row coordinate of entry `j` is exactly `j`. -/
theorem rowCoordinate_entryPhase {j : Nat} (hj : j < 257) : rowCoordinate (entryPhase j) = natToF64 j := by
  rcases Nat.eq_zero_or_pos j with rfl | hpos
  · decide +kernel
  obtain ⟨sf, sval⟩ := entryPhase_add_one hj
  have hu := oneUnits_int_pos
  have h53 : 2 * j < 2 ^ 53 := by omega
  have hj53 : j < 2 ^ 53 := by omega
  have hne : ∀ m : Nat, 0 < m → (m : Int) * oneUnits ≠ 0 := fun m hm => (Int.mul_pos (by omega) hu).ne'
  have hdouble : fmul f256 (fadd (entryPhase j) fone) = natToF64 (2 * j) := by
    refine fmul_exact (by decide) sf (isFinite_natToF64 h53) ?_ ?_
    · rw [fval_natToF64 h53]; exact hne _ (by omega)
    · rw [fval_fone] at sval
      rw [fval_natToF64 h53, fval_f256]
      push_cast
      linear_combination 2 * (oneUnits : Int) * sval
  rw [rowCoordinate, hdouble]
  refine fmul_exact (isFinite_natToF64 h53) isFinite_fhalf (isFinite_natToF64 hj53) ?_ ?_
  · rw [fval_natToF64 hj53]; exact hne _ hpos
  · rw [fval_natToF64 h53, fval_natToF64 hj53]
    push_cast
    linear_combination (j : Int) * oneUnits * fval_fhalf

theorem clampWidth_natToF64 {i : Nat} (hi : i ≤ 62) : clampWidth (natToF64 i) = natToF64 i := by
  have h53 : i < 2 ^ 53 := by omega
  have hle : fle (natToF64 i) fsixtyTwo = true := by
    rw [fle_iff_fval (not_isNaN_of_isFinite (isFinite_natToF64 h53)) (by decide), fval_natToF64 h53, fval_fsixtyTwo]
    exact Int.mul_le_mul_of_nonneg_right (by omega) oneUnits_int_pos.le
  rw [clampWidth, not_flt_of_fle (natToF64_nonneg h53), not_flt_of_fle hle]
  rfl

section Lerp
variable {u v : F64}

theorem lerp_fzero (hu : isFinite u = true) (hne : u ≠ 0x8000000000000000#64) (hd : isFinite (fsub v u) = true) :
    lerp fzero u v = u := fadd_zero hu hne (isZero_fmul_fzero hd)

theorem isFinite_lerp_fzero (hu : isFinite u = true) (hd : isFinite (fsub v u) = true) :
    isFinite (lerp fzero u v) = true := isFinite_fadd_zero hu (isZero_fmul_fzero hd)

/-- With both fractions zero the interpolation is its first word: the other three weigh nothing, since no difference
overflows. -/
theorem bilinear_fzero {t00 t01 t10 t11 : F64} (h00 : isFinite t00 = true) (hne : t00 ≠ 0x8000000000000000#64)
    (h10 : isFinite t10 = true) (h0 : isFinite (fsub t01 t00) = true) (h1 : isFinite (fsub t11 t10) = true) :
    bilinear fzero fzero t00 t01 t10 t11 = t00 := by
  rw [bilinear, fsub_fzero isFinite_fone (by decide), lerp_fzero h00 hne h0, fone_fmul h00]
  exact fadd_zero h00 hne (isZero_fmul_fzero (isFinite_lerp_fzero h10 h1))

end Lerp

/-- Settles O23: at a grid point the row coordinate and the width are counts, so both fractions are zero. -/
theorem lookupIsExactAtGridPoints : Obligations.LookupIsExactAtGridPoints := by
  unfold Obligations.LookupIsExactAtGridPoints
  intro tf j i hj hi hcorner h00 hne h10 hd0 hd1
  have hj53 : j < 2 ^ 53 := by omega
  have hi53 : i < 2 ^ 53 := by omega
  have hrow := rowCoordinate_entryPhase (show j < 257 by omega)
  have hwidth := clampWidth_natToF64 hi
  obtain ⟨hlo, hhi⟩ := entryPhase_bounds (show j < 257 by omega)
  rw [getFormant_of_cell tf hlo hhi (by rw [hrow, toNatOrBounds_natToF64 hj53])
    (by rw [hwidth, toNatOrBounds_natToF64 hi53]), if_neg (show ¬ 16448 ≤ _ by omega), hrow, hwidth,
    fsub_self (isFinite_natToF64 hj53), fsub_self (isFinite_natToF64 hi53)]
  rw [show j + 257 * (i + 1) = j + 257 * i + 257 by ring] at h10 hd1
  rw [show j + 1 + 257 * (i + 1) = j + 257 * i + 258 by ring] at hd1
  rw [show j + 1 + 257 * i = j + 257 * i + 1 by ring] at hd0
  rw [bilinear_fzero h00 hne h10 hd0 hd1]

end Sys2Proof.Machine

/-! # Proofs: the phase of the LFO and SETLFO (R140 to R145, R183) -/

namespace Sys2Proof.Machine

open Sys2Proof.Config

/-! ## The LFO phase (R140, R143, R145) -/

/-- The cause a fault answers is never that of success (R93, R230). -/
theorem responseCause_raise_ne_zero (c : Cause) (s : State) :
    responseCause ((raise c s).responses.headD 0#72) ≠ 0#8 := by
  rw [raise_responses, List.headD_cons, responseCause_responseWord]
  cases c <;> decide

theorem responseCause_respond_zero (y : BitVec 64) (s : State) :
    responseCause ((respond 0 y s).responses.headD 0#72) = 0#8 := by
  rw [respond_responses, List.headD_cons, responseCause_responseWord]

@[simp] theorem setVowelBounds_lphase {S : Nat} (v : F64) (u : Regs S) : (setVowelBounds v u).lphase = u.lphase := by
  rw [setVowelBounds, retrack_lphase, cacheLfo_lphase]

@[simp] theorem processedRegs_lphase (p : Params) (u : Regs p.slotCount) (k : Fin entries) (out : F64) :
    (processedRegs p u k out).lphase = lfoNextPhase u.lphase u.lrate u.srate := by
  rw [processedRegs, processDyn_lphase]
  rfl

/-- Settles O26: a fault keeps the registers, and of the effects of the commands only that of PROCESS, which advances
the phase, and that of CONSTRUCT, which zeroes it, write `LPHASE`. -/
theorem lfoPhaseMovesOnlyInProcess : Obligations.LfoPhaseMovesOnlyInProcess := by
  unfold Obligations.LfoPhaseMovesOnlyInProcess
  intro i s t u u' hu hexec hu'
  rcases exec_cases hexec with ⟨c, rfl⟩ | ⟨w, y, heffect, rfl⟩
  · obtain rfl : u = u' := Option.some.inj (hu.symm.trans hu')
    rw [if_neg (responseCause_raise_ne_zero c s)]
  · cases hu'
    rw [if_pos (responseCause_respond_zero y _)]
    rw [hu] at heffect
    cases heffect with
    | construct => exact constructed_lphase _ _ _ _
    | process hsome =>
      cases hsome
      exact processedRegs_lphase machineParams u _ _
    | @setVowel v _ _ hsome =>
      cases hsome
      exact setVowelBounds_lphase (controlOperand v) u
    | setLfoSame hsome =>
      cases hsome
      exact setLfoRate_lphase _ _ u
    | setLfoChanged hsome =>
      cases hsome
      rw [retrack_lphase, cacheLfo_lphase, setLfoRate_lphase]
    | getVowel hsome | dynCfg hsome | dynProc hsome =>
      cases hsome
      rfl

/-- Settles O27: `LFO.peek` leaves the next phase, which is in `[0, 1)` for an advance in `[0, 1)`. -/
theorem lfoPhaseBound : Obligations.LfoPhaseBound := by
  unfold Obligations.LfoPhaseBound
  intro p S u h0 h1 hadvance0 hadvance1
  rw [lfoPeek_lphase]
  exact lfoNextPhase_bounds h0 h1 hadvance0 hadvance1

/-! ## SETLFO (R183) -/

section SetLfo
variable {S : Nat} {rp d : F32} {u : Regs S}

theorem lfoChanged_eq_true_iff :
    lfoChanged rp d u = true ↔ u.hasLfo ≠ lfoEnables rp ∨ feq (controlOperand d) u.lfoDepth = false := by
  rw [lfoChanged, Bool.or_eq_true, bne_iff_ne, Bool.not_eq_true', ne_comm]

theorem lfoChanged_eq_false_iff :
    lfoChanged rp d u = false ↔ u.hasLfo = lfoEnables rp ∧ feq (controlOperand d) u.lfoDepth = true := by
  rw [← Bool.not_eq_true, lfoChanged_eq_true_iff, not_or, not_not, Bool.not_eq_false]

/-- Where the enable is as before, SETLFO's write on every call is that of the rate. -/
theorem setLfoRate_of_same_enable (p : Params) (h : u.hasLfo = lfoEnables rp) :
    setLfoRate p rp u = { u with lrate := rateMap p (controlOperand rp) } := by
  rw [setLfoRate, lfoSetRate, ← h]

/-- `cacheLFO` and `retrack` leave the working vowel in `[0, 1]`, whatever it was: clamped into bounds that are in
`[0, 1]`, or taken from the vowel. -/
theorem inUnit_retrack_cacheLfo {w : Regs S} (hv : inUnit w.vowel = true) (hd : inUnit w.lfoDepth = true) :
    inUnit (retrack (cacheLfo w)).tempVowel = true := by
  obtain ⟨-, -, hmax, -, -⟩ := cacheLfo_bounds hv hd
  cases hlfo : w.hasLfo with
  | false => rwa [retrack_tempVowel_lfoOff (by rwa [cacheLfo_hasLfo]), cacheLfo_vowel]
  | true =>
    rw [retrack_tempVowel, cacheLfo_hasLfo, hlfo, if_pos rfl, cacheLfo_lfoMin]
    exact inUnit_between hmax

/-- SETLFO with a change selects an entry and succeeds. -/
theorem setLfoRegs_changed_ok (p : Params) (hv : inUnit u.vowel = true) (hrp : isNaN32 rp = false)
    (hd : isNaN32 d = false) (hchanged : lfoChanged rp d u = true) :
    ∃ k, selectEntry (retrack (cacheLfo { setLfoRate p rp u with lfoDepth := controlOperand d })).tempVowel = .ok k ∧
      setLfoRegs p rp d u =
        .ok ({ retrack (cacheLfo { setLfoRate p rp u with lfoDepth := controlOperand d }) with coeffOffset := k },
          0#64) := by
  obtain ⟨k, hk⟩ := selectEntry_ok (inUnit_retrack_cacheLfo
    (w := { setLfoRate p rp u with lfoDepth := controlOperand d }) hv (inUnit_controlOperand d))
  exact ⟨k, hk, setLfoRegs_of_changed hrp hd hchanged hk⟩

end SetLfo

/-- Settles O38: nothing has changed, so SETLFO writes the rate and the enable, which is what it was. -/
theorem setLfoUnchanged : Obligations.SetLfoUnchanged := by
  unfold Obligations.SetLfoUnchanged
  intro s u rp d hu hrp hd r henable hdepth
  have hr := setLfoRegs_of_same (p := machineParams) hrp hd (lfoChanged_eq_false_iff.2 ⟨henable, hdepth⟩)
  rw [setLfoRate_of_same_enable machineParams henable] at hr
  exact exec_setLfo hu hr

/-- Settles O39: the retracked working vowel is in `[0, 1]`, so an entry is selected; the registers are those that
`cacheLFO` and `retrack` write. -/
theorem setLfoChanged : Obligations.SetLfoChanged := by
  unfold Obligations.SetLfoChanged
  intro s u rp d hu hv hrp hd r depth on range hi lo t hchange
  obtain ⟨k, hk, hr⟩ := setLfoRegs_changed_ok machineParams hv hrp hd (lfoChanged_eq_true_iff.2 hchange)
  exact ⟨k, hk, exec_setLfo hu hr⟩

end Sys2Proof.Machine

/-! # Proofs: the coefficient bank (R150 to R154) -/

namespace Sys2Proof.Machine

open Sys2Proof.Config

/-! ## Entry selection (R151, R152) -/

theorem le_of_two_pow_le_oneUnits {e : Nat} (h : 2 ^ e ≤ oneUnits) : e ≤ 1074 := by
  unfold oneUnits at h
  exact (pow_le_pow_iff_right₀ one_lt_two).1 h

/-- A nonzero magnitude up to 1 leaves room for three more factors of two below the greatest exponent. -/
theorem fmag_eq_scaled_of_inUnit {t : F64} (h : inUnit t = true) :
    ∃ m e, m < 2 ^ 53 ∧ e + 3 ≤ 2045 ∧ fmag t = m * 2 ^ e := by
  obtain ⟨m, e, hm, -, hmag⟩ := fmag_eq_scaled (isFinite_of_inUnit h)
  rcases Nat.eq_zero_or_pos m with rfl | hpos
  · exact ⟨0, 0, hm, by decide, by rw [hmag, Nat.zero_mul, Nat.zero_mul]⟩
  · have hle : 2 ^ e ≤ oneUnits := by
      obtain ⟨h0, h1⟩ := fval_of_inUnit h
      have habs := natAbs_fval t
      calc 2 ^ e ≤ m * 2 ^ e := Nat.le_mul_of_pos_left _ hpos
        _ = fmag t := hmag.symm
        _ ≤ oneUnits := by omega
    have he := le_of_two_pow_le_oneUnits hle
    exact ⟨m, e, hm, by omega, hmag⟩

/-- Eight times a working vowel is exact. -/
theorem fmul_feight_exact {t : F64} (h : inUnit t = true) :
    isFinite (fmul t feight) = true ∧ fval (fmul t feight) = 8 * fval t := by
  have tf := isFinite_of_inUnit h
  have h8 : isFinite feight = true := by decide
  have hmag8 : fmag feight = 8 * oneUnits := by decide +kernel
  obtain ⟨t0, t1⟩ := fval_of_inUnit h
  obtain ⟨m, e, hm, he, hmag⟩ := fmag_eq_scaled_of_inUnit h
  obtain ⟨-, hprod⟩ := fmul_dyadic (e := e + 3) tf h8 hm he (by rw [hmag, hmag8, pow_add]; ring)
  obtain ⟨pf, p0, -⟩ := fmul_between (lo := fzero) (hi := feight) tf h8 isFinite_fzero h8
    (by rw [fval_fzero, Int.zero_mul, fval_feight]; exact Int.mul_nonneg t0 (by omega))
    (by rw [fval_feight, Int.mul_comm]; exact Int.mul_le_mul_of_nonneg_left t1 (by omega))
  have habs := natAbs_fval (fmul t feight)
  have htabs := natAbs_fval t
  rw [fval_fzero] at p0
  rw [pow_add, ← mul_assoc, ← hmag] at hprod
  exact ⟨pf, by omega⟩

/-- `scale` gives exactly eight times a working vowel: the cap takes effect at most at 8 itself. -/
theorem scale_exact {t : F64} (h : inUnit t = true) :
    isFinite (scale t fone feight) = true ∧ fval (scale t fone feight) = 8 * fval t := by
  have h8 : isFinite feight = true := by decide
  obtain ⟨pf, hval⟩ := fmul_feight_exact h
  obtain ⟨-, t1⟩ := fval_of_inUnit h
  rw [scale, fdiv_feight_fone, fmin]
  split
  · exact ⟨pf, hval⟩
  · rename_i hcap
    have hle := fval_le_of_fle
      (fle_of_not_flt (not_isNaN_of_isFinite h8) (not_isNaN_of_isFinite pf) (by simpa using hcap))
    rw [hval, fval_feight] at hle
    exact ⟨h8, by rw [fval_feight]; omega⟩

theorem toNatOrBounds_of_selectEntry {t : F64} {k : Fin entries} (hk : selectEntry t = .ok k) :
    toNatOrBounds (scale t fone feight) = .ok k.val := by
  obtain ⟨n, hn, hbound⟩ := bind_eq_ok hk
  rw [hn]
  split at hbound
  · cases hbound; rfl
  · cases hbound

/-- The thresholds of R152: the entry selected is the whole part of eight times the working vowel. -/
theorem selectEntry_thresholds {t : F64} {k : Fin entries} (h : inUnit t = true) (hk : selectEntry t = .ok k) :
    (k.val : Int) * oneUnits ≤ 8 * fval t ∧ 8 * fval t < ((k.val : Int) + 1) * oneUnits := by
  obtain ⟨sf, hval⟩ := scale_exact h
  obtain ⟨t0, -⟩ := fval_of_inUnit h
  obtain ⟨n, hn, hlo, hhi⟩ := toNatOrBounds_of_nonneg sf (by omega)
  rw [toNatOrBounds_of_selectEntry hk] at hn
  rw [Except.ok.inj hn, ← hval]
  exact ⟨hlo, hhi⟩

theorem eq_fone_of_fval {t : F64} (h : fval t = oneUnits) : t = fone :=
  eq_of_ford_eq (by decide) (ford_eq_iff.2 (h.trans fval_fone.symm))

/-- The last entry is selected by 1 alone. -/
theorem selectEntry_last_iff {t : F64} {k : Fin entries} (h : inUnit t = true) (hk : selectEntry t = .ok k) :
    k.val = 8 ↔ t = fone := by
  obtain ⟨hlo, hhi⟩ := selectEntry_thresholds h hk
  constructor
  · intro hlast
    obtain ⟨-, t1⟩ := fval_of_inUnit h
    rw [hlast] at hlo
    exact eq_fone_of_fval (by omega)
  · rintro rfl
    rw [fval_fone] at hhi
    have := Int.lt_of_mul_lt_mul_right hhi oneUnits_int_pos.le
    have : k.val < 9 := k.isLt
    omega

theorem cacheCoeffOffset_of_selectEntry {S : Nat} {u : Regs S} {k : Fin entries} (hk : selectEntry u.tempVowel = .ok k) :
    cacheCoeffOffset u = .ok { u with coeffOffset := k } := by
  rw [cacheCoeffOffset, hk]
  rfl

/-- Settles O29: a working vowel in `[0, 1]` selects an entry, whose thresholds are those of the whole part of the exact
product with 8. -/
theorem entrySelection : Obligations.EntrySelection := by
  unfold Obligations.EntrySelection
  intro S u h
  obtain ⟨k, hk⟩ := selectEntry_ok h
  obtain ⟨hlo, hhi⟩ := selectEntry_thresholds h hk
  rw [fval_fone]
  exact ⟨k, cacheCoeffOffset_of_selectEntry hk, hlo, hhi, selectEntry_last_iff h hk⟩

/-! ## Smoothing (R153, R154) -/

/-- A live value at its target moves by `ATTEN * 0`, which adds nothing to a word other than `-0`. -/
theorem smoothed_self {p : Params} {v : F64} (ha : isFinite p.atten = true) (hv : isFinite v = true)
    (hne : v ≠ 0x8000000000000000#64) : smoothed p v v = v := by
  rw [smoothed, fsub_self hv, fmul_comm_of_finite ha isFinite_fzero]
  exact fadd_zero hv hne (isZero_fmul_fzero ha)

/-- Settles O30: the move is between zero and the exact difference, and zero at the target. -/
theorem smoothingStaysBetween : Obligations.SmoothingStaysBetween := by
  unfold Obligations.SmoothingStaysBetween
  refine ⟨fun v t hv ht hdf => ?_, fun v hv hne => smoothed_self (by decide) hv hne⟩
  obtain ⟨hup, hdown⟩ := smoothed_between hv ht hdf
  exact ⟨fun hle => hup (fval_le_of_fle hle), fun hle => hdown (fval_le_of_fle hle)⟩

end Sys2Proof.Machine

/-! # Proofs: the formant filter's PROCESS (R171 to R187)

When PROCESS gives a value and when it raises `TableBounds` follows from which lookups give one; the next state is that
of `processRegs_eq`. -/

namespace Sys2Proof.Machine

open Sys2Proof.Config

/-! ## The carrier phase (R185) -/

/-- Settles O32: the bound holds for every `f0` in `[0, 192]`. -/
theorem carrierPhaseBound : Obligations.CarrierPhaseBound := by
  unfold Obligations.CarrierPhaseBound
  intro f0 srate phase h12 h192 hfinite hrate hphase
  exact phaseLegal_nextPhase (fle_trans (by decide) h12) h192 hfinite hrate hphase

/-! ## The working vowel without a sweep (R172, R186) -/

/-- A product with `+0` is a NaN or a zero. -/
theorem isNaN_or_isZero_fzero_fmul (z : F64) : isNaN (fmul fzero z) = true ∨ isZero (fmul fzero z) = true := by
  cases hn : isNaN z with
  | true =>
    obtain ⟨-, -, hmul, -⟩ := isNaN_operations (x := fzero) (Or.inr hn)
    exact .inl hmul
  | false =>
    rcases isNaN_eq_false_cases hn with hinf | hfin
    · exact .inl (fmul_inf (x := fzero) (by decide) hn (.inr hinf))
    · exact .inr (isZero_fmul_fzero hfin)

/-- A sweep of range `+0` leaves the vowel, even where the wave gives a NaN or an infinity. -/
theorem fmin_fadd_fzero_fmul {v : F64} (hv : inUnit v = true) (hs : fsign v = false) (z : F64) :
    fmin v (fadd v (fmul fzero z)) = v := by
  rcases isNaN_or_isZero_fzero_fmul z with hnan | hzero
  · obtain ⟨hadd, -, -, -⟩ := isNaN_operations (x := v) (Or.inr hnan)
    obtain ⟨hlt, -, -⟩ := comparisons_of_isNaN (y := v) (Or.inl hadd)
    rw [fmin, hlt]
    rfl
  · have hne : v ≠ 0x8000000000000000#64 := fun h => by rw [h] at hs; exact absurd hs (by decide)
    rw [fadd_zero (isFinite_of_inUnit hv) hne hzero, fmin, ite_self]

theorem HeldByF32.fsign_eq_false {x : F64} (h : HeldByF32 x) : fsign x = false := by
  obtain ⟨a, -, rfl⟩ := h
  exact fsign_clamp01 _

/-- With the LFO off or its depth 0 the working vowel of PROCESS is the base vowel. -/
theorem workingVowel_of_no_sweep {p : Params} {u : Regs p.slotCount} (h : VowelLegal u)
    (hno : u.hasLfo = false ∨ u.lfoDepth = fzero) : workingVowel p u = u.vowel := by
  cases hlfo : u.hasLfo with
  | false => rw [workingVowel_lfoOff hlfo, h.tracks hlfo]
  | true =>
    obtain ⟨hrange, hmin, hmax⟩ := cacheLfo_collapsed h.vowel.inUnit h.vowel.fsign_eq_false hno
    rw [h.bounds] at hrange hmin hmax
    rw [workingVowel_lfoOn hlfo, hrange, hmin, hmax, fmin_fadd_fzero_fmul h.vowel.inUnit h.vowel.fsign_eq_false]

/-- Settles O44: a fault keeps the registers, and a PROCESS that succeeds commits the working vowel of step 1. -/
theorem depthZeroPinsTheWorkingVowel : Obligations.DepthZeroPinsTheWorkingVowel := by
  unfold Obligations.DepthZeroPinsTheWorkingVowel
  intro s u x hu hlegal hno
  obtain ⟨t, -, hexec, -⟩ := exec_process_answers x s
  rcases exec_cases hexec with ⟨c, rfl⟩ | ⟨w, y, heffect, rfl⟩
  · obtain ⟨h1, h7⟩ := code_bounds c
    exact ⟨_, u, hexec, hu, rfl, .inr ⟨rfl, c.code, by omega, h7, rfl⟩⟩
  · rw [hu] at heffect
    cases heffect with
    | process hsome =>
      cases hsome
      exact ⟨_, _, hexec, rfl, rfl, .inl ⟨workingVowel_of_no_sweep (p := machineParams) hlegal hno, y, rfl⟩⟩

/-! ## Which lookups give a value (R125, R240) -/

section Lookup
variable {tf : Table} {phase w : F64}

/-- The lookup gives a value inside the table: a phase in `[-1, 1]`, and not the last column with the last row. -/
theorem getFormant_ok (hlo : fle (fneg fone) phase = true) (hhi : fle phase fone = true) (hw : isNaN w = false)
    (hcorner : ¬ (fle (0x3FEFFFFFFFFFFFFF#64) phase = true ∧ fle fsixtyTwo w = true)) :
    ∃ y, getFormant tf phase w = .ok y := by
  obtain ⟨-, -, -, hvalue⟩ := lookupBounds tf phase w
  obtain ⟨j, i, -, -, -, -, -, -, -, hy⟩ := hvalue ⟨⟨hlo, hhi⟩, hw, hcorner⟩
  exact ⟨_, hy⟩

/-- The only fault of a lookup is `TableBounds`. -/
theorem getFormant_cause {c : Cause} (h : getFormant tf phase w = .error c) : c = .tableBounds := by
  obtain ⟨houtside, hnan, hend, -⟩ := lookupBounds tf phase w
  suffices hb : getFormant tf phase w = .error .tableBounds from Except.error.inj (h.symm.trans hb)
  by_cases hin : fle (fneg fone) phase = true ∧ fle phase fone = true
  · cases hw : isNaN w with
    | true => exact hnan ⟨hin, hw⟩
    | false =>
      by_cases hcorner : fle (0x3FEFFFFFFFFFFFFF#64) phase = true ∧ fle fsixtyTwo w = true
      · exact hend ⟨hin, hw, hcorner⟩
      · obtain ⟨y, hy⟩ := getFormant_ok (tf := tf) hin.1 hin.2 hw hcorner
        rw [hy] at h
        cases h
  · exact houtside hin

end Lookup

/-! ## When step 5 raises `TableBounds` (R177, R180) -/

theorem bind_eq_error {α β : Type} {m : Except Cause α} {f : α → Except Cause β} {c : Cause}
    (h : m >>= f = .error c) : m = .error c ∨ ∃ a, m = .ok a ∧ f a = .error c := by
  cases m with
  | error d =>
    cases h
    exact .inl rfl
  | ok a => exact .inr ⟨a, rfl, h⟩

section Slots
variable {p : Params} {u : Regs p.slotCount} {f0 invf0 x : F64}

theorem slotFormant_of_synthMode (hmode : p.synthMode = true) (s : Fin p.slotCount) :
    slotFormant p invf0 s u = getFormant u.tf u.phase (fmul (p.widthScale s) invf0) := by
  rw [slotFormant, hmode]
  rfl

theorem slotFormant_cause {s : Fin p.slotCount} {c : Cause} (h : slotFormant p invf0 s u = .error c) :
    c = .tableBounds := by
  unfold slotFormant at h
  split at h
  · exact getFormant_cause h
  · cases h

/-- The only fault of step 5 for one slot is that of its lookup. -/
theorem processSlot_cause {acc : F64 × Regs p.slotCount} {s : Fin p.slotCount} {c : Cause}
    (h : processSlot p f0 invf0 x acc s = .error c) : c = .tableBounds := by
  rcases bind_eq_error h with hform | ⟨y, -, hok⟩
  · exact slotFormant_cause hform
  · cases hok

theorem foldlM_processSlot_cause {l : List (Fin p.slotCount)} {c : Cause} :
    ∀ {acc : F64 × Regs p.slotCount}, l.foldlM (processSlot p f0 invf0 x) acc = .error c → c = .tableBounds := by
  induction l with
  | nil => intro _ h; cases h
  | cons s l ih =>
    intro acc h
    rw [List.foldlM_cons] at h
    rcases bind_eq_error h with hslot | ⟨next, -, hrest⟩
    · exact processSlot_cause hslot
    · exact ih hrest

/-- Step 5 raises `TableBounds` as soon as one slot has no formant. -/
theorem processSlots_of_no_formant {s : Fin p.slotCount} {c : Cause}
    (hs : slotFormant p (fdiv fone f0) s u = .error c) : processSlots p f0 x u = .error .tableBounds := by
  cases hr : processSlots p f0 x u with
  | error d => rw [foldlM_processSlot_cause hr]
  | ok r =>
    obtain ⟨y, hy⟩ := formants_of_foldlM_processSlot (slots p.slotCount) _ _ rfl rfl hr s (List.mem_finRange s)
    rw [hy] at hs
    cases hs

theorem sampleRefused_of_isFinite (hx : isFinite x = true) : sampleRefused x = false := by
  rw [sampleRefused, not_isNaN_of_isFinite hx, not_isInf_of_isFinite hx]
  rfl

/-- PROCESS of a finite sample raises `TableBounds` when the working vowel selects an entry and a slot has no
formant. -/
theorem processRegs_of_no_formant {k : Fin entries} {s : Fin p.slotCount} {c : Cause} (hx : isFinite x = true)
    (hk : selectEntry (workingVowel p u) = .ok k)
    (hs : slotFormant p (fdiv fone (carrierFreq p (workingVowel p u))) s (preparedRegs p u k) = .error c) :
    processRegs p x u = .error .tableBounds := by
  rw [processRegs, sampleRefused_of_isFinite hx, processPrepare_eq hk]
  simp only [bind, Except.bind, Bool.false_eq_true, if_false, processSlots_of_no_formant hs]

end Slots

/-! ## The next state of PROCESS (R180) -/

section Exec
variable {x : F64} {s : State} {u : UnitRegs}

theorem exec_process_of_ok {r : UnitRegs × BitVec 64} (hu : s.unit = some u)
    (hr : processRegs machineParams x u = .ok r) :
    exec (.process x) s = .next { s with responses := responseWord 0 r.2 :: s.responses, unit := some r.1 } := by
  show onConstructed s (processRegs machineParams x) = _
  rw [onConstructed_some hu, hr]
  rfl

theorem exec_process_of_error {c : Cause} (hu : s.unit = some u) (hr : processRegs machineParams x u = .error c) :
    exec (.process x) s = .next (raise c s) := by
  show onConstructed s (processRegs machineParams x) = _
  rw [onConstructed_some hu, hr]
  rfl

end Exec

/-- Settles O42: each slot's lookup is at the phase after step 4, so a phase out of range leaves the first slot without
a formant, and the last column leaves without one the slots whose width is at the last row. -/
theorem processAtTheTableBound : Obligations.ProcessAtTheTableBound := by
  unfold Obligations.ProcessAtTheTableBound
  refine ⟨?_, fun s u x hu hr => ⟨_, exec_process_of_error hu hr, rfl, rfl, rfl, rfl⟩⟩
  intro p u x hp hmode hx sweep t f0 phase width inside atEnd ht
  obtain ⟨k, hk⟩ := selectEntry_ok ht
  have hlookup : ∀ s, slotFormant p (fdiv fone f0) s (preparedRegs p u k) = getFormant u.tf phase (width s) :=
    slotFormant_of_synthMode hmode
  refine ⟨fun houtside => ?_, fun ⟨hin, hend, s, hwide⟩ => ?_, fun ⟨hin, hend, hnarrow⟩ => ?_⟩
  · exact processRegs_of_no_formant (s := ⟨0, hp.slots⟩) hx hk
      ((hlookup _).trans (getFormant_of_outside u.tf houtside))
  · obtain ⟨-, -, hcorner, -⟩ := lookupBounds u.tf phase (width s)
    exact processRegs_of_no_formant hx hk
      ((hlookup s).trans (hcorner ⟨hin, isNaN_right_of_fle hwide, hend, hwide⟩))
  · have hvalue : ∀ s, ∃ y, slotFormant p (fdiv fone f0) s (preparedRegs p u k) = .ok y := fun s => by
      rw [hlookup]
      exact getFormant_ok hin.1 hin.2 (isNaN_left_of_fle (fle_of_flt (hnarrow s)))
        fun ⟨_, hwide⟩ => Bool.false_ne_true ((not_flt_of_fle hwide).symm.trans (hnarrow s))
    choose formant hformant using hvalue
    exact ⟨_, _, processRegs_eq hx hk hformant⟩

/-! ## The whole next state of PROCESS (R171 to R180) -/

/-- The width `WIDTHSCALE[s] * invf0` of the machine is not a NaN, for a working vowel in `[0, 1]`. -/
theorem isNaN_slotWidth {t : F64} (ht : inUnit t = true) (s : Fin machineParams.slotCount) :
    isNaN (fmul (machineParams.widthScale s) (fdiv fone (carrierFreq machineParams t))) = false := by
  obtain ⟨hlo, hhi⟩ := carrierFrequencyRange.1 t ht
  have hf0 := isFinite_of_between (by decide) (by decide) hlo hhi
  have vlo := fval_le_of_fle hlo
  have hunit := oneUnits_int_pos
  have v12 : fval ftwelve = 12 * oneUnits := by decide +kernel
  have hinv : inUnit (fdiv fone (carrierFreq machineParams t)) = true := by
    refine (inUnit_iff _).2 ⟨le_fdiv isFinite_fone hf0 (by omega) isFinite_fzero ?_,
      fdiv_le isFinite_fone hf0 (by omega) isFinite_fone ?_⟩
    · rw [fval_fzero, fval_fone, Int.zero_mul]
      exact Int.mul_nonneg hunit.le hunit.le
    · rw [fval_fone]
      exact Int.mul_le_mul_of_nonneg_left (by omega) hunit.le
  exact isNaN_fmul (isFinite_of_isNonNegative (lawful_machineParams.widthScale s)) (isFinite_of_inUnit hinv)

theorem perSlot_four (f : Fin 4 → F64) : perSlot f = #v[f 0, f 1, f 2, f 3] :=
  vector_ext_get fun s => by
    rw [perSlot_get]
    fin_cases s <;> rfl

theorem foldl_slots_four (g : F64 → Fin 4 → F64) (a : F64) :
    (slots 4).foldl g a = g (g (g (g a 0) 1) 2) 3 := rfl

/-- Settles O41: the working vowel selects an entry and the lookups stay inside the table, so PROCESS gives the
registers and the output of `processRegs_eq`, here for four slots. -/
theorem processCompletes : Obligations.ProcessCompletes := by
  unfold Obligations.ProcessCompletes
  intro s u x hu hx lphase sweep t f0 invf0 moved phase width cosine wrapped carrier ht hlo hhi hinside
  obtain ⟨k, hk⟩ := selectEntry_ok ht
  have hvalue : ∀ sl, ∃ y, getFormant u.tf phase (width sl) = .ok y := fun sl => by
    refine getFormant_ok hlo hhi (isNaN_slotWidth ht sl) fun ⟨hend, hwide⟩ => ?_
    rcases hinside with hbefore | hnarrow
    · exact Bool.false_ne_true ((not_flt_of_fle hend).symm.trans hbefore)
    · exact Bool.false_ne_true ((not_flt_of_fle hwide).symm.trans (hnarrow sl))
  choose formant hformant using hvalue
  refine ⟨k, formant, hk, hformant, ?_⟩
  have hr := processRegs_eq (p := machineParams) (u := u) (x := x) (formant := formant) hx hk hformant
  rw [foldl_slots_four, perSlot_four, perSlot_four] at hr
  exact exec_process_of_ok hu hr

end Sys2Proof.Machine

/-! # Proofs: `Dyn` as a gain, DYNPROC, oddness and silence (R201 to R213)

Every stage but the output reads the sample through its magnitude, so `Dyn` is a gain and new envelopes, both functions of
`abs(x)`, and the product of the sample with that gain. -/

namespace Sys2Proof.Machine

open Sys2Proof.Config

/-! ## Products with a negated or zero factor -/

theorem isNaN_factors_of_fmul {x y : F64} (h : isNaN (fmul x y) = false) : isNaN x = false ∧ isNaN y = false := by
  refine ⟨Bool.eq_false_iff.2 fun hx => ?_, Bool.eq_false_iff.2 fun hy => ?_⟩
  · obtain ⟨-, -, hmul, -⟩ := isNaN_operations (y := y) (.inl hx)
    exact Bool.false_ne_true (h.symm.trans hmul)
  · obtain ⟨-, -, hmul, -⟩ := isNaN_operations (x := x) (.inr hy)
    exact Bool.false_ne_true (h.symm.trans hmul)

/-- A product with an infinity is an infinity, when it is not a NaN. -/
theorem fmul_inf_of_not_isNaN {x y : F64} (hinf : isInf x = true ∨ isInf y = true) (h : isNaN (fmul x y) = false) :
    (isZero x || isZero y) = false ∧ fmul x y = withSign (fsign x != fsign y) infBits := by
  obtain ⟨hx, hy⟩ := isNaN_factors_of_fmul h
  have hprod := fmul_inf hx hy hinf
  split at hprod
  · exact absurd (h.symm.trans hprod) Bool.false_ne_true
  · rename_i hzero
    exact ⟨by simpa using hzero, hprod⟩

theorem fneg_fmul {x y : F64} (h : isNaN (fmul x y) = false) : fmul (fneg x) y = fneg (fmul x y) := by
  obtain ⟨hx, hy⟩ := isNaN_factors_of_fmul h
  by_cases hinf : isInf x = true ∨ isInf y = true
  · obtain ⟨hzero, hprod⟩ := fmul_inf_of_not_isNaN hinf h
    have hneg := fmul_inf (x := fneg x) (by simpa using hx) hy (by simpa using hinf)
    rw [isZero_fneg, hzero] at hneg
    rw [hprod, fneg_withSign _ infBits_lt]
    simpa using hneg
  · obtain ⟨hxi, hyi⟩ : isInf x = false ∧ isInf y = false := by simpa using hinf
    have hxf := isFinite_of_not hx hxi
    have hyf := isFinite_of_not hy hyi
    rw [fmul_of_finite hxf hyf, fmul_of_finite (by simpa using hxf) hyf, fneg_ofUnits, fsign_fneg, fmag_fneg,
      Bool.not_bne]

theorem isZero_fmul_of_isZero {x y : F64} (hx : isZero x = true) (hy : isFinite y = true) :
    isZero (fmul x y) = true := by
  rw [fmul_zero_factor (isFinite_of_isZero hx) hy (.inl (fmag_eq_zero.2 ((isZero_iff x).1 hx))), isZero_iff,
    fbits_withSign _ (by decide)]

/-! ## `Dyn` as a gain of the sample's magnitude (R209) -/

/-- The factor `Dyn` applies to a sample of magnitude `i`: `g + DRY` in simple mode (R203), `g * GENV + DRY` in full mode
(R207). -/
def dynGain (c : DynRegs) (e : Envelopes) (i : F64) : F64 :=
  let env := stageE c i e.env
  if c.mode then fadd (fmul (stageL c (stageG c env) (stageE2 c i env e.env2)) (stageX c env e.genv)) c.dry
  else fadd (stageG c env) c.dry

/-- The envelopes `Dyn` leaves after a sample of magnitude `i`: simple mode runs stage E alone, full mode E, E2 and X. -/
def nextEnvelopes (c : DynRegs) (e : Envelopes) (i : F64) : Envelopes :=
  let env := stageE c i e.env
  stageF (if c.mode then { env := env, env2 := stageE2 c i env e.env2, genv := stageX c env e.genv }
    else { e with env := env })

/-- `Dyn` reads the sign of the sample in the final product alone. -/
theorem dyn_eq (c : DynRegs) (e : Envelopes) (x : F64) :
    dyn c e x = (fmul x (dynGain c e (fabs x)), nextEnvelopes c e (fabs x)) := by
  unfold dyn dynGain nextEnvelopes
  cases c.mode <;> rfl

theorem dyn_fneg_envelopes (c : DynRegs) (e : Envelopes) (x : F64) : (dyn c e (fneg x)).2 = (dyn c e x).2 := by
  rw [dyn_eq, dyn_eq, fabs_fneg]

theorem dyn_fneg_output {c : DynRegs} {e : Envelopes} {x : F64} (h : isNaN (dyn c e x).1 = false) :
    (dyn c e (fneg x)).1 = fneg (dyn c e x).1 := by
  rw [dyn_eq] at h
  rw [dyn_eq, dyn_eq, fabs_fneg]
  exact fneg_fmul h

/-- Settles O47: the envelopes and the gain depend on `abs(x)` alone, and the output is the sample times the gain. -/
theorem dynIsOdd : Obligations.DynIsOdd := by
  unfold Obligations.DynIsOdd
  exact fun c e x => ⟨dyn_fneg_envelopes c e x, dyn_fneg_output⟩

/-! ## Silence (R213 (b) and (c)) -/

theorem ford_fabs_of_isZero {x : F64} (h : isZero x = true) : ford (fabs x) = 0 := by
  rw [ford_fabs, (isZero_iff x).1 h]
  rfl

/-- Stage E releases an `ENV` that the magnitude of the sample does not exceed. -/
theorem stageE_of_not_flt {c : DynRegs} {i env : F64} (h : flt env i = false) :
    stageE c i env = fmul env (fsub fone c.rel) := by
  rw [stageE, h]
  rfl

/-- An `ENV` of at least 0, an infinity included, is not below the magnitude of a zero. -/
theorem not_flt_fabs_of_isZero {env x : F64} (hx : isZero x = true) (henv : fle fzero env = true) :
    flt env (fabs x) = false := by
  obtain ⟨-, -, hle⟩ := (fle_iff _ _).1 henv
  rw [← Bool.not_eq_true, flt_iff, ford_fabs_of_isZero hx]
  rintro ⟨-, -, hlt⟩
  exact absurd hle (not_le.2 hlt)

theorem isZero_dyn_output {c : DynRegs} {e : Envelopes} {x : F64} (hx : isZero x = true)
    (hgain : isFinite (dynGain c e (fabs x)) = true) : isZero (dyn c e x).1 = true := by
  rw [dyn_eq]
  exact isZero_fmul_of_isZero hx hgain

/-- Settles O48: stage E takes its release branch, and a zero times a finite gain is a zero. -/
theorem silenceDecays : Obligations.SilenceDecays := by
  unfold Obligations.SilenceDecays
  intro c e x hx
  refine ⟨fun henv => ?_, fun hmode hgain => ?_, fun hmode hgain => ?_⟩
  · rw [dyn_env, stageE_of_not_flt (not_flt_fabs_of_isZero hx henv)]
  all_goals
    refine isZero_dyn_output hx ?_
    rw [dynGain, hmode]
    exact hgain

/-! ## The whole next state of DYNPROC (R211) -/

theorem exec_dynProc {x : F64} {s : State} {u : UnitRegs} (hu : s.unit = some u) (hx : isFinite x = true) :
    exec (.dynProc x) s = .next
      { s with
        responses := responseWord 0 (dyn u.dyn u.envs x).1 :: s.responses
        unit := some { u with envs := (dyn u.dyn u.envs x).2 } } := by
  show onConstructed s (dynProcRegs x) = _
  rw [onConstructed_some hu, dynProcRegs, sampleRefused_of_isFinite hx]
  rfl

/-- Stage L with its two conditions as propositions (R205). -/
theorem stageL_eq (c : DynRegs) (g env2 : F64) :
    stageL c g env2 =
      if flt fzero c.lthr = true ∧ flt c.lthr (fmul g env2) = true then fdiv c.lthr env2 else g := by
  simp only [stageL, Bool.and_eq_true]

/-- Settles O46: DYNPROC commits what `Dyn` gives, and each stage is its formula. -/
theorem dynProcCompletes : Obligations.DynProcCompletes := by
  unfold Obligations.DynProcCompletes
  refine ⟨fun s u x hu hx => exec_dynProc hu hx, fun c e x => ⟨fun hmode => ?_, fun hmode => ?_⟩⟩
  · rw [dyn_eq, dynGain, nextEnvelopes, hmode]
    rfl
  · rw [dyn_eq, dynGain, nextEnvelopes, hmode, stageL_eq]
    rfl

end Sys2Proof.Machine

/-! # Proofs: the result of a command and the faults it reports (R230 to R247)

Every command commits one result, and that result is a function of the command and of the unit's registers alone. Which
fault a command reports, and when, is then a fact about its result. -/

namespace Sys2Proof.Machine

open Sys2Proof.Config

/-! ## The result of a command -/

/-- The result of a command that needs a constructed unit (R236). -/
def onUnit (unit : Option UnitRegs) (run : UnitRegs → Except Cause (UnitRegs × BitVec 64)) :
    Except Cause (UnitRegs × BitVec 64) :=
  match unit with
  | none => .error .notConstructed
  | some u => run u

/-- What a command computes from the unit's registers: its cause, or its new registers and its `DATA`. It reads neither
the sticky bits nor the earlier responses. -/
def commandResult (unit : Option UnitRegs) : Instr → Except Cause (UnitRegs × BitVec 64)
  | .construct v0 sr => constructRegs machineParams v0 sr
  | .setVowel v => onUnit unit (setVowelRegs v)
  | .getVowel => onUnit unit fun u => .ok (u, vowelData u)
  | .setLfo rp d => onUnit unit (setLfoRegs machineParams rp d)
  | .process x => onUnit unit (processRegs machineParams x)
  | .dynCfg sel x => if selectorLegal sel then onUnit unit (dynCfgRegs sel x) else .error .illegalEncoding
  | .dynProc x => onUnit unit (dynProcRegs x)

theorem onConstructed_eq_commit (s : State) (run : UnitRegs → Except Cause (UnitRegs × BitVec 64)) :
    onConstructed s run = commit (onUnit s.unit run) s := by
  cases hu : s.unit with
  | none => exact onConstructed_none hu
  | some u => exact onConstructed_some hu

/-- A command commits its result, and does nothing else (R180, R232). -/
theorem exec_eq_commit (i : Instr) (s : State) : exec i s = commit (commandResult s.unit i) s := by
  cases i with
  | construct v0 sr => rfl
  | setVowel | getVowel | setLfo | process | dynProc => exact onConstructed_eq_commit s _
  | dynCfg sel x =>
    show execDynCfg sel x s = commit (if selectorLegal sel then _ else _) s
    unfold execDynCfg
    split
    · exact onConstructed_eq_commit s _
    · rfl

/-- A command whose result is a fault is refused with that fault's cause. -/
theorem refuses_of_error (c : Cause) {i : Instr} {s : State} {unit : Option UnitRegs} (hu : s.unit = unit)
    (h : commandResult unit i = .error c) : Refuses (exec i s) s c.code := by
  rw [exec_eq_commit, hu, h]
  exact refuses_raise c s

/-- States with the same registers and the same input commit a result alike, whatever their sticky bits and earlier
responses are. -/
theorem commit_congr {r : Except Cause (UnitRegs × BitVec 64)} {s s' t : State} (h : commit r s = .next t)
    (hunit : s'.unit = s.unit) (hinput : s'.input = s.input) :
    ∃ t', commit r s' = .next t' ∧ t'.unit = t.unit ∧ t'.input = t.input ∧
      t'.responses.head? = t.responses.head? := by
  cases r with
  | ok p =>
    cases h
    exact ⟨_, rfl, rfl, hinput, rfl⟩
  | error c =>
    cases h
    exact ⟨_, rfl, hunit, hinput, rfl⟩

/-- Settles O12: the result is that of the same registers, so it is committed alike. -/
theorem faultHistoryIsUnobservable : Obligations.FaultHistoryIsUnobservable := by
  unfold Obligations.FaultHistoryIsUnobservable
  intro i s t bits history h
  rw [exec_eq_commit] at h ⊢
  exact commit_congr h rfl rfl

/-! ## Every step ends in a next state (R232, R247, R260) -/

theorem exec_next (i : Instr) (s : State) : ∃ t, exec i s = .next t := by
  rw [exec_eq_commit]
  cases commandResult s.unit i with
  | ok p => exact ⟨_, rfl⟩
  | error c => exact ⟨_, rfl⟩

theorem step_of_idle {s : State} (h : s.input = []) : step s = .next s := by simp only [step, h]

theorem step_of_hardwareReset {s : State} {rest : List PortEvent} (h : s.input = .hardwareReset :: rest) :
    step s = .next (hardwareReset { s with input := rest }) := by simp only [step, h]

/-- A step follows what the port holds: nothing, a hardware reset, or a word, which decodes or does not. -/
theorem step_next (s : State) : ∃ t, step s = .next t := by
  cases hin : s.input with
  | nil => exact ⟨s, step_of_idle hin⟩
  | cons event rest =>
    cases event with
    | hardwareReset => exact ⟨_, step_of_hardwareReset hin⟩
    | command w =>
      cases hw : decode w with
      | error c => exact ⟨_, step_of_decode_error hin hw⟩
      | ok i =>
        rw [step_of_decode_ok hin hw]
        exact exec_next i _

/-- Settles O9: a result is committed whatever it is. -/
theorem everyStepEndsInANextState : Obligations.EveryStepEndsInANextState := by
  unfold Obligations.EveryStepEndsInANextState
  exact ⟨step_next, exec_next⟩

/-- Settles O7: hardware reset empties the unit, and an empty unit holds no table word. -/
theorem idleAndHardwareReset : Obligations.IdleAndHardwareReset := by
  unfold Obligations.IdleAndHardwareReset
  intro s
  exact ⟨step_of_idle, fun rest hin => ⟨_, step_of_hardwareReset hin, rfl, rfl, fun _ => rfl, rfl, rfl, rfl⟩⟩

/-! ## Channels (R246) -/

theorem stepChannel_of_step {n : Nat} {channels : List State} {s t : State} (hs : channels[n]? = some s)
    (hstep : step s = .next t) : stepChannel n channels = .next (channels.set n t) := by
  simp only [stepChannel, hs, hstep]

/-- Settles O60: the step replaces one element of the list. -/
theorem channelsAreIndependent : Obligations.ChannelsAreIndependent := by
  unfold Obligations.ChannelsAreIndependent
  intro n channels s hs
  obtain ⟨t, hstep⟩ := step_next s
  have hn : n < channels.length := (List.getElem?_eq_some_iff.1 hs).1
  exact ⟨_, t, stepChannel_of_step hs hstep, hstep, List.getElem?_set_self hn, List.length_set,
    fun m hm => List.getElem?_set_ne hm.symm⟩

/-! ## NotConstructed (R236) -/

theorem unit_of_constructed {s : State} (h : s.constructed = true) : ∃ u, s.unit = some u :=
  Option.isSome_iff_exists.1 h

theorem unit_of_not_constructed {s : State} (h : s.constructed = false) : s.unit = none :=
  Option.isNone_iff_eq_none.1 (Option.isSome_eq_false_iff.1 h)

/-- Without a unit every well-formed command but CONSTRUCT raises `NotConstructed`. -/
theorem commandResult_none {i : Instr} (hwf : i.WellFormed = true) (hne : ∀ v sr, i ≠ .construct v sr) :
    commandResult none i = .error .notConstructed := by
  cases i with
  | construct v sr => exact absurd rfl (hne v sr)
  | dynCfg sel x => exact if_pos hwf
  | setVowel | getVowel | setLfo | process | dynProc => rfl

theorem code_injective {c d : Cause} : c.code = d.code → c = d := by
  cases c <;> cases d <;> decide

/-- A command that answers with the code of a cause has that cause for its result. -/
theorem commandResult_of_answered {i : Instr} {s t : State} {c : Cause} {d : BitVec 64} (h : exec i s = .next t)
    (ha : Answered s t c.code d) : commandResult s.unit i = .error c := by
  have hcode := responseCause_toNat (code_bounds c).2 d
  unfold Answered at ha
  rw [exec_eq_commit] at h
  rcases commit_cases h with ⟨u, y, -, ht⟩ | ⟨e, he, ht⟩
  · cases ht
    rw [← (List.cons.inj ha).1, responseCause_toNat (Nat.zero_le 7)] at hcode
    have := (code_bounds c).1
    omega
  · cases ht
    rw [← (List.cons.inj ha).1, responseCause_toNat (code_bounds e).2] at hcode
    rw [he, code_injective hcode]

/-- CONSTRUCT faults on its operands alone: past those checks the clamped vowel selects an entry. -/
theorem constructRegs_cause {p : Params} {v0 sr : F32} {c : Cause} (h : constructRegs p v0 sr = .error c) :
    c = .operandNaN ∨ c = .configError := by
  unfold constructRegs at h
  split at h
  · cases h
    exact .inl rfl
  · split at h
    · cases h
      exact .inr rfl
    · obtain ⟨k, hk⟩ := selectEntry_ok (inUnit_controlOperand v0)
      rw [hk] at h
      cases h

/-- Settles O13: the check for a unit comes first in every command but CONSTRUCT, which has none. -/
theorem notConstructedUntilConstruct : Obligations.NotConstructedUntilConstruct := by
  unfold Obligations.NotConstructedUntilConstruct
  refine ⟨fun i s hs hwf hne => ?_, fun v sr s t h d ha => ?_⟩
  · exact refuses_of_error .notConstructed (unit_of_not_constructed hs) (commandResult_none hwf hne)
  · rcases constructRegs_cause (commandResult_of_answered (c := .notConstructed) h ha) with hc | hc <;> cases hc

/-! ## OperandNaN (R238) -/

/-- An exponent of all ones with a fraction other than zero is a NaN (R7). -/
theorem isNaN_of_fields {x : F64} (h : x.extractLsb' 52 11 = 2047#11 ∧ x.extractLsb' 0 52 ≠ 0#52) :
    isNaN x = true := by
  obtain ⟨hexp, hfrac⟩ := h
  have he := toNat_exponentField x
  have hf := toNat_fractionField x
  have hpos : (x.extractLsb' 0 52).toNat ≠ 0 := fun h0 => hfrac (BitVec.eq_of_toNat_eq h0)
  rw [hexp] at he
  rw [isNaN_iff, infBits]
  simp only [BitVec.toNat_ofNat] at he
  omega

theorem isNaN32_of_fields {a : F32} (h : a.extractLsb' 23 8 = 255#8 ∧ a.extractLsb' 0 23 ≠ 0#23) :
    isNaN32 a = true := by
  obtain ⟨hexp, hfrac⟩ := h
  have he := toNat_exponentField32 a
  have hf := toNat_fractionField32 a
  have hpos : (a.extractLsb' 0 23).toNat ≠ 0 := fun h0 => hfrac (BitVec.eq_of_toNat_eq h0)
  rw [hexp] at he
  simp only [BitVec.toNat_ofNat] at he
  rw [isNaN32, decide_eq_true_eq, infBits32]
  omega

theorem or_isNaN32_of_fields {a b : F32}
    (h : (a.extractLsb' 23 8 = 255#8 ∧ a.extractLsb' 0 23 ≠ 0#23) ∨
      (b.extractLsb' 23 8 = 255#8 ∧ b.extractLsb' 0 23 ≠ 0#23)) : (isNaN32 a || isNaN32 b) = true :=
  Bool.or_eq_true_iff.2 (h.imp isNaN32_of_fields isNaN32_of_fields)

theorem constructRegs_of_nan (p : Params) {v sr : F32} (h : (isNaN32 v || isNaN32 sr) = true) :
    constructRegs p v sr = .error .operandNaN := if_pos h

theorem setVowelRegs_of_nan {S : Nat} {v : F32} (u : Regs S) (h : isNaN32 v = true) :
    setVowelRegs v u = .error .operandNaN := if_pos h

theorem setLfoRegs_of_nan {S : Nat} (p : Params) {rp d : F32} (u : Regs S) (h : (isNaN32 rp || isNaN32 d) = true) :
    setLfoRegs p rp d u = .error .operandNaN := if_pos h

theorem dynCfgRegs_of_nan {S : Nat} (sel : BitVec 8) {x : F64} (u : Regs S) (h : isNaN x = true) :
    dynCfgRegs sel x u = .error .operandNaN := if_pos h

/-- DYNCFG of a legal selector runs its checks on the unit. -/
theorem commandResult_dynCfg {sel : BitVec 8} (x : F64) {u : UnitRegs} (hsel : sel.toNat ≤ 10) :
    commandResult (some u) (.dynCfg sel x) = dynCfgRegs sel x u := if_pos (decide_eq_true hsel)

/-- Settles O14: the NaN check is the first of each of these commands on a constructed unit. -/
theorem naNControlOperandsAreRefused : Obligations.NaNControlOperandsAreRefused := by
  unfold Obligations.NaNControlOperandsAreRefused
  intro s nan32 nan64
  refine ⟨fun v sr h => ?_, fun hs => ?_⟩
  · exact refuses_of_error .operandNaN rfl (constructRegs_of_nan machineParams (or_isNaN32_of_fields h))
  · obtain ⟨u, hu⟩ := unit_of_constructed hs
    exact ⟨fun v h => refuses_of_error .operandNaN hu (setVowelRegs_of_nan u (isNaN32_of_fields h)),
      fun rp d h => refuses_of_error .operandNaN hu (setLfoRegs_of_nan machineParams u (or_isNaN32_of_fields h)),
      fun sel x hsel h => refuses_of_error .operandNaN hu
        ((commandResult_dynCfg x hsel).trans (dynCfgRegs_of_nan sel u (isNaN_of_fields h)))⟩

/-! ## SampleNonFinite (R239) -/

/-- A sample is refused exactly when its exponent is all ones. -/
theorem sampleRefused_iff (x : F64) : sampleRefused x = true ↔ x.extractLsb' 52 11 = 2047#11 := by
  have hexp := toNat_exponentField x
  have hlt := fbits_lt x
  rw [sampleRefused, Bool.or_eq_true_iff, isNaN_iff, isInf_iff, infBits, ← BitVec.toNat_inj, hexp]
  simp only [BitVec.toNat_ofNat]
  omega

theorem processRegs_of_refused (p : Params) {x : F64} (u : Regs p.slotCount) (h : sampleRefused x = true) :
    processRegs p x u = .error .sampleNonFinite := if_pos h

theorem dynProcRegs_of_refused {S : Nat} {x : F64} (u : Regs S) (h : sampleRefused x = true) :
    dynProcRegs x u = .error .sampleNonFinite := if_pos h

theorem selectEntry_cause {t : F64} {c : Cause} (h : selectEntry t = .error c) : c = .tableBounds := by
  rcases bind_eq_error h with hn | ⟨n, -, hrange⟩
  · unfold toNatOrBounds at hn
    split at hn <;> cases hn
    rfl
  · split at hrange <;> cases hrange
    rfl

theorem processPrepare_cause {S : Nat} {p : Params} {u : Regs S} {c : Cause} (h : processPrepare p u = .error c) :
    c = .tableBounds := by
  rcases bind_eq_error h with hoffset | ⟨w, -, hok⟩
  · rcases bind_eq_error hoffset with hentry | ⟨k, -, hok⟩
    · exact selectEntry_cause hentry
    · cases hok
  · cases hok

/-- Past the check of its sample PROCESS can only leave the table. -/
theorem processRegs_cause {p : Params} {x : F64} {u : Regs p.slotCount} {c : Cause} (hx : sampleRefused x = false)
    (h : processRegs p x u = .error c) : c = .tableBounds := by
  rw [processRegs, hx, if_neg Bool.false_ne_true] at h
  rcases bind_eq_error h with hprepare | ⟨prepared, -, hrest⟩
  · exact processPrepare_cause hprepare
  · rcases bind_eq_error hrest with hslots | ⟨summed, -, hok⟩
    · exact foldlM_processSlot_cause hslots
    · cases hok

theorem dynProcRegs_ne_error {S : Nat} {x : F64} {u : Regs S} {c : Cause} (hx : sampleRefused x = false) :
    dynProcRegs x u ≠ .error c := by
  rw [dynProcRegs, hx, if_neg Bool.false_ne_true]
  exact nofun

/-- Settles O15: both commands check the sample first, and no later check of theirs raises the same cause. -/
theorem nonFiniteSamplesAreRefused : Obligations.NonFiniteSamplesAreRefused := by
  unfold Obligations.NonFiniteSamplesAreRefused
  intro s x hs
  obtain ⟨u, hu⟩ := unit_of_constructed hs
  refine ⟨fun hexp => ?_, fun hexp t h d ha => ?_⟩
  · have hx := (sampleRefused_iff x).2 hexp
    exact ⟨refuses_of_error .sampleNonFinite hu (processRegs_of_refused machineParams u hx),
      refuses_of_error .sampleNonFinite hu (dynProcRegs_of_refused u hx)⟩
  · have hx : sampleRefused x = false := Bool.eq_false_iff.2 fun h => hexp ((sampleRefused_iff x).1 h)
    rcases h with h | h
    · have hr := commandResult_of_answered (c := .sampleNonFinite) h ha
      rw [hu] at hr
      cases processRegs_cause hx hr
    · have hr := commandResult_of_answered (c := .sampleNonFinite) h ha
      rw [hu] at hr
      exact dynProcRegs_ne_error hx hr

/-! ## ConfigError (R237) -/

theorem constructRegs_of_rateRefused (p : Params) {v sr : F32} (hv : isNaN32 v = false) (hsr : isNaN32 sr = false)
    (h : rateRefused sr = true) : constructRegs p v sr = .error .configError := by
  rw [constructRegs, hv, hsr, h]
  rfl

theorem dynCfgRegs_of_configRefused {S : Nat} {sel : BitVec 8} {x : F64} (u : Regs S) (hx : isNaN x = false)
    (h : configRefused sel x = true) : dynCfgRegs sel x u = .error .configError := by
  rw [dynCfgRegs, hx, h]
  rfl

/-- A word with the sign bit set is not above `+0`. -/
theorem not_fzero_flt_of_fsign {x : F64} (h : fsign x = true) : flt fzero x = false :=
  Bool.eq_false_iff.2 fun hlt => Bool.false_ne_true ((fsign_of_flt_fzero hlt).symm.trans h)

theorem rateRefused_of_not_above {sr : F32} (h : flt fzero (widen sr) = false) : rateRefused sr = true := by
  rw [rateRefused, h]
  rfl

/-- The sample rates with no meaning: a negative one, `+0` and `+inf`. -/
theorem rateRefused_of_meaningless {sr : F32} (hn : isNaN32 sr = false)
    (h : sr.msb = true ∨ sr = 0#32 ∨ sr = 0x7F800000#32) : rateRefused sr = true := by
  rcases h with hneg | rfl | rfl
  · exact rateRefused_of_not_above (not_fzero_flt_of_fsign ((fsign_widen hn).trans hneg))
  · exact rateRefused_of_not_above (by decide +kernel)
  · rw [rateRefused, widen_of_inf (by decide)]
    decide

theorem configRefused_iff (sel : BitVec 8) (x : F64) : configRefused sel x = true ↔
    isInf x = true ∨ (sel = 0#8 ∧ flt fzero x = false) ∨
      (sel = 10#8 ∧ feq x fzero = false ∧ feq x fone = false) := by
  simp only [configRefused, Bool.or_eq_true, Bool.and_eq_true, decide_eq_true_eq, Bool.not_eq_true', or_assoc,
    and_assoc]

/-- Only the two zeros equal `0.0`. -/
theorem feq_fzero_cases {x : F64} (h : feq x fzero = true) : x = 0#64 ∨ x = 0x8000000000000000#64 := by
  obtain ⟨-, -, hord⟩ := (feq_iff x fzero).1 h
  have hval : fval x = 0 := (ford_eq_iff.1 hord).trans fval_fzero
  cases hs : fsign x with
  | false => exact .inl (eq_fzero hs hval)
  | true => exact .inr (eq_negZero hs hval)

/-- Only one word equals `1.0`. -/
theorem eq_fone_of_feq {x : F64} (h : feq x fone = true) : x = fone := by
  obtain ⟨-, -, hord⟩ := (feq_iff x fone).1 h
  exact eq_fone_of_fval ((ford_eq_iff.1 hord).trans fval_fone)

/-- The dynamics values with no meaning: an infinity, a `THR` not above zero, a `MODE` other than 0 and 1. -/
theorem configRefused_of_meaningless {sel : BitVec 8} {x : F64}
    (h : x = 0x7FF0000000000000#64 ∨ x = 0xFFF0000000000000#64 ∨ (sel = 0#8 ∧ (x.msb = true ∨ x = 0#64)) ∨
      (sel = 10#8 ∧ x ≠ 0#64 ∧ x ≠ 0x8000000000000000#64 ∧ x ≠ 0x3FF0000000000000#64)) :
    configRefused sel x = true := by
  rw [configRefused_iff]
  rcases h with rfl | rfl | ⟨hsel, hneg | rfl⟩ | ⟨hsel, hzero, hnegZero, hone⟩
  · exact .inl (by decide)
  · exact .inl (by decide)
  · exact .inr (.inl ⟨hsel, not_fzero_flt_of_fsign hneg⟩)
  · exact .inr (.inl ⟨hsel, by decide⟩)
  · exact .inr (.inr ⟨hsel, Bool.eq_false_iff.2 fun h0 => (feq_fzero_cases h0).elim hzero hnegZero,
      Bool.eq_false_iff.2 fun h1 => hone (eq_fone_of_feq h1)⟩)

/-- Settles O16: the values listed are among those the checks of CONSTRUCT and DYNCFG refuse. -/
theorem meaninglessConfigurationIsRefused : Obligations.MeaninglessConfigurationIsRefused := by
  unfold Obligations.MeaninglessConfigurationIsRefused
  refine fun s => ⟨fun v sr hv hsr h => ?_, fun hs sel x hsel hx h => ?_⟩
  · exact refuses_of_error .configError rfl
      (constructRegs_of_rateRefused machineParams hv hsr (rateRefused_of_meaningless hsr h))
  · obtain ⟨u, hu⟩ := unit_of_constructed hs
    exact refuses_of_error .configError hu ((commandResult_dynCfg x hsel).trans
      (dynCfgRegs_of_configRefused u hx (configRefused_of_meaningless h)))

/-! ## The order of the checks (R233) -/

/-- The word of R233 that is DYNCFG `THR` with a NaN. -/
theorem decode_thr_nan : decode 0x06007FF8000000000000#80 = .ok (.dynCfg 0#8 0x7FF8000000000000#64) :=
  decodeOfEncode (.dynCfg 0#8 0x7FF8000000000000#64) rfl

/-- Settles O17: decoding comes before the check for a unit, that before the NaN check, and that before the others. -/
theorem priorityOfFaults : Obligations.PriorityOfFaults := by
  unfold Obligations.PriorityOfFaults
  intro s
  obtain ⟨hnanConstruct, hnanUnit⟩ := naNControlOperandsAreRefused s
  refine ⟨fun hin => ?_, fun hs hin => ?_, fun hs hin => ?_, hnanConstruct _ _ (.inl (by decide))⟩
  · obtain ⟨-, -, -, hillegal, -⟩ := stepRunsTheDecodedCommand s _ [] hin
    exact hillegal (decode_of_illegal_fields (by decide) (by decide) (by decide))
  · rw [step_of_decode_ok hin decode_thr_nan]
    exact notConstructedUntilConstruct.1 _ _ hs rfl nofun
  · rw [step_of_decode_ok hin decode_thr_nan]
    obtain ⟨-, -, hdynCfg⟩ := (naNControlOperandsAreRefused { s with input := [] }).2 hs
    exact hdynCfg _ _ (by decide) (by decide)

end Sys2Proof.Machine

/-! # Proofs: re-construction (R263)

The next state of an accepted CONSTRUCT holds one unit, chosen by the operands alone: the state before it gives only what
CONSTRUCT keeps, the sticky bits and the record of the port. -/

namespace Sys2Proof.Machine

open Sys2Proof.Config

/-- The next state of an accepted CONSTRUCT: the unit is the same whatever the state before it was. -/
theorem exec_construct {v0 sr : F32} (hv : isNaN32 v0 = false) (hsr : isNaN32 sr = false)
    (hrate : rateRefused sr = false) :
    ∃ u : UnitRegs, ∀ s : State,
      exec (.construct v0 sr) s = .next (respond 0 0#64 { s with unit := some u }) := by
  obtain ⟨k, -, hresult⟩ := constructRegs_ok machineParams hv hsr hrate
  refine ⟨constructed machineParams (controlOperand v0) (widen sr) k, fun s => ?_⟩
  rw [exec_eq_commit, commandResult, hresult]
  rfl

/-- Settles O19: CONSTRUCT stores the same unit and answers the same from `s` as from reset, and sets no sticky bit. -/
theorem reconstructionStartsFromScratch : Obligations.ReconstructionStartsFromScratch := by
  unfold Obligations.ReconstructionStartsFromScratch
  intro s v0 sr hv hsr hpos hinf
  have hrate : rateRefused sr = false := by rw [rateRefused, hpos, hinf]; rfl
  obtain ⟨u, hexec⟩ := exec_construct hv hsr hrate
  exact ⟨_, _, hexec s, hexec State.reset, rfl, Option.some_ne_none u, rfl, rfl⟩

end Sys2Proof.Machine
